-- ==== Sys2Proof/Word.lean ====
section
/-! DEFINITION. The word types of the block (spec/00_scope.md R11): a register word is an unsigned 32-bit value,
a buffer element or a character an 8-bit byte, a length register 9 bits wide. -/

namespace Sys2Proof

/-- A byte: an ASCII character, a buffer element, the A field of a command (R11, R13, R81). -/
abbrev Byte := BitVec 8

/-- A 32-bit register or bus word (R11). -/
abbrev Word := BitVec 32

/-- A length register: bits 8:0 of ILEN, TLEN and BODY_LEN (R30, R31, R32). -/
abbrev Len := BitVec 9

end Sys2Proof
end

