-- ==== Sys2Proof/Config.lean ====
section
/-! DEFINITION. The parameters of the implementation (spec/00_scope.md section 2, spec/20_memory.md R60 and R63), as
plain data. A state holds one `Config`; no step changes it (R35), so a statement about every state is a statement
about every choice of the parameters (log 4). -/

namespace Sys2Proof

/-- The closed enumeration of device-reported fault codes, by name (R7, C8). -/
inductive CommandError where
  | noError | lengthMismatch | formatMismatch | addressMismatch | incorrectCrc | invalidCommandId | messageTooShort
  deriving DecidableEq, Repr

/-- `KNOWN_CODES` (R7): the numeric code of each named entry, one field an entry. -/
structure CodeTable where
  noError          : Byte
  lengthMismatch   : Byte
  formatMismatch   : Byte
  addressMismatch  : Byte
  incorrectCrc     : Byte
  invalidCommandId : Byte
  messageTooShort  : Byte
  deriving DecidableEq, Repr

/-- The numeric code of a named entry (R7). -/
def CodeTable.code (t : CodeTable) : CommandError → Byte
  | .noError          => t.noError
  | .lengthMismatch   => t.lengthMismatch
  | .formatMismatch   => t.formatMismatch
  | .addressMismatch  => t.addressMismatch
  | .incorrectCrc     => t.incorrectCrc
  | .invalidCommandId => t.invalidCommandId
  | .messageTooShort  => t.messageTooShort

/-- The seven names, in the order of R7's table. -/
def CommandError.all : List CommandError :=
  [.noError, .lengthMismatch, .formatMismatch, .addressMismatch, .incorrectCrc, .invalidCommandId, .messageTooShort]

/-- The members of `KNOWN_CODES`, in the order of R7's table. -/
def CodeTable.codes (t : CodeTable) : List Byte := CommandError.all.map t.code

/-- The name of a device error code, where `KNOWN_CODES` has one (R7, R33). -/
def CodeTable.nameOf (t : CodeTable) (c : Byte) : Option CommandError :=
  CommandError.all.find? fun e => t.code e == c

/-- The default table of R7. Only the entry 0x04 comes from the source (D7). -/
def CodeTable.default : CodeTable :=
  { noError := 0x00#8, lengthMismatch := 0x01#8, formatMismatch := 0x02#8, addressMismatch := 0x03#8,
    incorrectCrc := 0x04#8, invalidCommandId := 0x05#8, messageTooShort := 0x06#8 }

/-- The parameters the model takes. -/
structure Config where
  /-- `TERM`, the frame terminator byte (R5; OPEN, D5). -/
  term : Byte
  /-- `BUF_SIZE`, the capacity of IBUF and of TBUF in bytes (R6). -/
  bufSize : Nat
  /-- `KNOWN_CODES` (R7; OPEN beyond code 4, D7). -/
  codes : CodeTable
  /-- `BASE`, the bus address of offset 0x000 of the window (R60; OPEN). -/
  base : Nat
  /-- `SUBWORD_ACCESS`: the platform gives narrow and misaligned accesses a meaning of its own (R63; OPEN). -/
  subwordAccess : Bool
  deriving DecidableEq, Repr

/-- The parameters of the test vectors (`95_test_vectors.md`): TERM 0x0D, BUF_SIZE 256, the default table.
DESIGN CHOICE (log 4): TERM, BASE and SUBWORD_ACCESS are OPEN in the spec. -/
def Config.default : Config :=
  { term := 0x0D#8, bufSize := 256, codes := CodeTable.default, base := 0, subwordAccess := false }

end Sys2Proof
end

