-- ==== Sys2Proof/Syntax.lean ====
section
/-! DEFINITION. The command words as abstract terms, one constructor per row of spec/opcode_table.json
(spec/30_encoding.md R84); the host's bus accesses; and the lines of the assembly text (R87, R88). -/

namespace Sys2Proof

/-- A Direction (R82): D = 0 is Read, D = 1 is Write. -/
inductive Direction where
  | read | write
  deriving DecidableEq, Repr

/-- The block's commands, one constructor per row of R84. An operand of type `Byte` is the A field, zero-extended
where a wider value is needed (R81). -/
inductive Instr where
  /-- NOP (R190). -/
  | nop
  /-- CRC.INIT (R125). -/
  | crcInit
  /-- CRC.BYTE (R126), `b` the data byte. -/
  | crcByte (b : Byte)
  /-- CRC.HEX (R127). -/
  | crcHex
  /-- HEX.ENC (R104), `d` the digit count. -/
  | hexEnc (d : Byte)
  /-- HEX.DEC (R105), `n` the character count. -/
  | hexDec (n : Byte)
  /-- RX.CLEAR (R165). -/
  | rxClear
  /-- RX.PUSH (R166), `b` the received byte. -/
  | rxPush (b : Byte)
  /-- RX.ABORT (R167). -/
  | rxAbort
  /-- FRAME.PARSE (R168). -/
  | frameParse
  /-- TX.CLEAR (R142). -/
  | txClear
  /-- TX.PUSH (R143), `b` the parameter byte. -/
  | txPush (b : Byte)
  /-- FRAME.BUILD (R144), `cid` the command id, `dir` the direction. -/
  | frameBuild (cid : Byte) (dir : Direction)
  /-- RESET (R191). -/
  | reset
  deriving DecidableEq, Repr

/-- The width of a host bus access. The block defines only `word` (R63, R64). -/
inductive AccessWidth where
  | byte | half | word
  deriving DecidableEq, Repr

/-- What a bus access does: `MemRead` or `MemWrite` of R12, with the word written. -/
inductive BusOp where
  | read
  | write (v : Word)
  deriving DecidableEq, Repr

/-- One host bus access, at a bus address (BASE plus the offset in the window, R60). -/
structure Access where
  addr  : Nat
  width : AccessWidth
  op    : BusOp
  deriving DecidableEq, Repr

/-- The registers of the map R21, by name. -/
inductive Reg where
  | cmd | status | crcAcc | crcOut | hexval | hexstrHi | hexstrLo | ilen | tlen | bodyLen | deverr | fcrc | config
  deriving DecidableEq, Repr

/-- A line of the assembly text: a command or a plain host access (R87), or a pseudo-instruction (R88). -/
inductive Line where
  | command (i : Instr)
  | wr (r : Reg) (v : Word)
  | rd (r : Reg)
  | rdIbuf (k : Nat)
  | rdTbuf (k : Nat)
  | crcBytes (s : List Byte)
  | crcOf (s : List Byte)
  | rxPushs (s : List Byte)
  | txPushs (s : List Byte)
  deriving DecidableEq, Repr

end Sys2Proof
end

