-- ==== Sys2Proof/WellFormed.lean ====
section
/-! DEFINITION. What the spec asks of a choice of parameters (spec/00_scope.md R5 to R7), of a command term
(spec/30_encoding.md R81) and of a bus access (spec/20_memory.md R60, R63). What it asks of the fields of a command
word (R83) stands with the encoding tables in Decode.lean: `CmdFields.Legal`. -/

namespace Sys2Proof

/-- TERM has exactly two admissible values (R5). -/
abbrev Config.TermOk (c : Config) : Prop := c.term = 0x0D#8 ∨ c.term = 0x0A#8

/-- `16 <= BUF_SIZE <= 256` (R6). -/
abbrev Config.BufSizeOk (c : Config) : Prop := 16 ≤ c.bufSize ∧ c.bufSize ≤ 256

/-- `KNOWN_CODES` has exactly seven members, and 4 is a member and names `incorrect_CRC` (R7). -/
abbrev CodeTable.Ok (t : CodeTable) : Prop := t.codes.Nodup ∧ t.incorrectCrc = 0x04#8

/-- An admissible choice of the parameters (R5, R6, R7). BASE and SUBWORD_ACCESS are not bounded by the spec. -/
abbrev Config.Valid (c : Config) : Prop := c.TermOk ∧ c.BufSizeOk ∧ c.codes.Ok

/-- A well-formed command. Every 8-bit A is a legal encoding of a row that takes it (R81), so a term of `Instr`, whose
operands are a `Byte` and a `Direction`, is well-formed; a digit count or command id outside the operation's contract
is not an encoding error (R81) and is left to the operation. -/
def Instr.wf : Instr → Bool
  | .nop | .crcInit | .crcByte _ | .crcHex | .hexEnc _ | .hexDec _ | .rxClear | .rxPush _ | .rxAbort | .frameParse
  | .txClear | .txPush _ | .frameBuild _ _ | .reset => true

/-- A bus access the spec defines (R60, R63, R65): a whole word, inside the window, at an offset that is a multiple
of 4. -/
abbrev Access.Defined (c : Config) (a : Access) : Prop :=
  c.base ≤ a.addr ∧ a.addr < c.base + 4096 ∧ a.width = .word ∧ (a.addr - c.base) % 4 = 0

end Sys2Proof
end

