-- ==== Sys2Proof/Decode.lean ====
section
/-! DEFINITION. The decoder of command words (spec/30_encoding.md R80), total on all 2^32 words and rejecting by name
(R85), the encoder (R87), and the match and mask table of R84. -/

namespace Sys2Proof

/-! ### The opcode map (R84) and the legal encodings (R83) -/

/-- The four fields of a command word (R80). -/
structure CmdFields where
  op  : Byte
  a   : Byte
  d   : BitVec 1
  rsv : BitVec 15
  deriving DecidableEq, Repr

/-- The opcode names of R84, without their operands. -/
inductive Opcode where
  | nop | crcInit | crcByte | crcHex | hexEnc | hexDec | rxClear | rxPush | rxAbort | frameParse | txClear | txPush
  | frameBuild | reset
  deriving DecidableEq, Repr

/-- The OP column of R84. -/
def Opcode.code : Opcode → Byte
  | .nop        => 0x00#8
  | .crcInit    => 0x01#8
  | .crcByte    => 0x02#8
  | .crcHex     => 0x03#8
  | .hexEnc     => 0x10#8
  | .hexDec     => 0x11#8
  | .rxClear    => 0x20#8
  | .rxPush     => 0x21#8
  | .rxAbort    => 0x22#8
  | .frameParse => 0x23#8
  | .txClear    => 0x30#8
  | .txPush     => 0x31#8
  | .frameBuild => 0x32#8
  | .reset      => 0xFF#8

/-- All rows of R84, in its order. -/
def Opcode.all : List Opcode :=
  [.nop, .crcInit, .crcByte, .crcHex, .hexEnc, .hexDec, .rxClear, .rxPush, .rxAbort, .frameParse, .txClear, .txPush,
   .frameBuild, .reset]

/-- Whether the row's A column holds an operand rather than "0" (R84). -/
def Opcode.usesA : Opcode → Bool
  | .crcByte | .hexEnc | .hexDec | .rxPush | .txPush | .frameBuild => true
  | .nop | .crcInit | .crcHex | .rxClear | .rxAbort | .frameParse | .txClear | .reset => false

/-- Whether the row's D column holds an operand rather than "0" (R84): only FRAME.BUILD (R82). -/
def Opcode.usesD : Opcode → Bool
  | .frameBuild => true
  | .nop | .crcInit | .crcByte | .crcHex | .hexEnc | .hexDec | .rxClear | .rxPush | .rxAbort | .frameParse
  | .txClear | .txPush | .reset => false

/-- The fields of a legal command word of the row `o` (R80, R83): the row's OP, RSV zero, and zero in every field
whose column is "0". -/
abbrev CmdFields.LegalFor (f : CmdFields) (o : Opcode) : Prop :=
  f.op = o.code ∧ f.rsv = 0#15 ∧ (o.usesA = false → f.a = 0#8) ∧ (o.usesD = false → f.d = 0#1)

/-- A legal encoding (R80, R85): the fields of some row of R84. -/
abbrev CmdFields.Legal (f : CmdFields) : Prop := ∃ o ∈ Opcode.all, f.LegalFor o

/-! ### The fields of a word (R80) -/

/-- OP = w[7:0]. -/
def opField (w : Word) : Byte := w.extractLsb' 0 8

/-- A = w[15:8]. -/
def aField (w : Word) : Byte := w.extractLsb' 8 8

/-- D = w[16]. -/
def dField (w : Word) : BitVec 1 := w.extractLsb' 16 1

/-- RSV = w[31:17]. -/
def rsvField (w : Word) : BitVec 15 := w.extractLsb' 17 15

/-- The four fields of a word together (R80). -/
def fieldsOf (w : Word) : CmdFields := { op := opField w, a := aField w, d := dField w, rsv := rsvField w }

/-- The D field as a Direction (R82). -/
def directionOf (d : BitVec 1) : Direction := if d = 1#1 then .write else .read

/-- The D field of a Direction (R82). -/
def Direction.bit : Direction → BitVec 1
  | .read  => 0#1
  | .write => 1#1

/-- The row of R84 with a given OP value. -/
def opcodeOf (op : Byte) : Option Opcode := Opcode.all.find? fun o => o.code == op

/-- The command of a row with its operands taken from the A and D fields (R81, R82). -/
def Opcode.build (o : Opcode) (a : Byte) (d : BitVec 1) : Instr :=
  match o with
  | .nop        => .nop
  | .crcInit    => .crcInit
  | .crcByte    => .crcByte a
  | .crcHex     => .crcHex
  | .hexEnc     => .hexEnc a
  | .hexDec     => .hexDec a
  | .rxClear    => .rxClear
  | .rxPush     => .rxPush a
  | .rxAbort    => .rxAbort
  | .frameParse => .frameParse
  | .txClear    => .txClear
  | .txPush     => .txPush a
  | .frameBuild => .frameBuild a (directionOf d)
  | .reset      => .reset

/-- Why a word is no command (R80, R83, R85). Every reason has the same effect, BADCMD (R192); the names are the
model's (log 9). -/
inductive DecodeError where
  /-- OP is not in the opcode map. -/
  | unassignedOp
  /-- RSV is not zero. -/
  | reservedBits
  /-- A is not zero and the row's A column is "0". -/
  | unusedA
  /-- D is not zero and the row's D column is "0". -/
  | unusedD
  deriving DecidableEq, Repr

/-- The decoding of R80, in its order. -/
def decode (w : Word) : Except DecodeError Instr :=
  match opcodeOf (opField w) with
  | none => .error .unassignedOp
  | some o =>
    if rsvField w ≠ 0#15 then .error .reservedBits
    else if aField w ≠ 0#8 ∧ o.usesA = false then .error .unusedA
    else if dField w ≠ 0#1 ∧ o.usesD = false then .error .unusedD
    else .ok (o.build (aField w) (dField w))

/-! ### The encoder (R87) -/

/-- The row of a command. -/
def Instr.opcode : Instr → Opcode
  | .nop            => .nop
  | .crcInit        => .crcInit
  | .crcByte _      => .crcByte
  | .crcHex         => .crcHex
  | .hexEnc _       => .hexEnc
  | .hexDec _       => .hexDec
  | .rxClear        => .rxClear
  | .rxPush _       => .rxPush
  | .rxAbort        => .rxAbort
  | .frameParse     => .frameParse
  | .txClear        => .txClear
  | .txPush _       => .txPush
  | .frameBuild _ _ => .frameBuild
  | .reset          => .reset

/-- What the A field of a command's word holds (R81, R83). -/
def Instr.operandA : Instr → Byte
  | .crcByte b | .rxPush b | .txPush b => b
  | .hexEnc d => d
  | .hexDec n => n
  | .frameBuild cid _ => cid
  | .nop | .crcInit | .crcHex | .rxClear | .rxAbort | .frameParse | .txClear | .reset => 0#8

/-- What the D field of a command's word holds (R82, R83). -/
def Instr.operandD : Instr → BitVec 1
  | .frameBuild _ dir => dir.bit
  | .nop | .crcInit | .crcByte _ | .crcHex | .hexEnc _ | .hexDec _ | .rxClear | .rxPush _ | .rxAbort | .frameParse
  | .txClear | .txPush _ | .reset => 0#1

/-- The assembled word `(D << 16) or (A << 8) or OP` (R87). -/
def encode (i : Instr) : Word :=
  (i.operandD.setWidth 32 <<< 16) ||| (i.operandA.setWidth 32 <<< 8) ||| i.opcode.code.setWidth 32

/-! ### The match and mask table (R84) -/

/-- One row of the opcode map: a word `w` selects it when `w and mask = match`. -/
structure OpRow where
  opcode   : Opcode
  matchVal : Word
  mask     : Word
  deriving DecidableEq, Repr

/-- The match and mask columns of R84, copied row by row. -/
def opTable : List OpRow :=
  [⟨.nop,        0x00000000#32, 0xFFFFFFFF#32⟩,
   ⟨.crcInit,    0x00000001#32, 0xFFFFFFFF#32⟩,
   ⟨.crcByte,    0x00000002#32, 0xFFFF00FF#32⟩,
   ⟨.crcHex,     0x00000003#32, 0xFFFFFFFF#32⟩,
   ⟨.hexEnc,     0x00000010#32, 0xFFFF00FF#32⟩,
   ⟨.hexDec,     0x00000011#32, 0xFFFF00FF#32⟩,
   ⟨.rxClear,    0x00000020#32, 0xFFFFFFFF#32⟩] ++
  [⟨.rxPush,     0x00000021#32, 0xFFFF00FF#32⟩,
   ⟨.rxAbort,    0x00000022#32, 0xFFFFFFFF#32⟩,
   ⟨.frameParse, 0x00000023#32, 0xFFFFFFFF#32⟩,
   ⟨.txClear,    0x00000030#32, 0xFFFFFFFF#32⟩,
   ⟨.txPush,     0x00000031#32, 0xFFFF00FF#32⟩,
   ⟨.frameBuild, 0x00000032#32, 0xFFFE00FF#32⟩,
   ⟨.reset,      0x000000FF#32, 0xFFFFFFFF#32⟩]

/-- The word selects the row (R84). -/
abbrev OpRow.Selects (r : OpRow) (w : Word) : Prop := w &&& r.mask = r.matchVal

/-! ### The host's view of a table word -/

/-- The instruction the decoder reads from the word whose bits are `w`, numbered as spec/opcode_table.json numbers
them: a command is one 32-bit word and nothing else (R86), so a number with a bit at or above 32 is none. -/
def decodeTableWord (nbits w : Nat) : Option Instr :=
  if w % 2 ^ nbits < 2 ^ 32 then (decode (BitVec.ofNat 32 (w % 2 ^ nbits))).toOption else none

end Sys2Proof
end

