-- ==== Sys2Proof/Machine/Hex.lean ====
section
/-! DEFINITION. The integer/hex codec's pure functions (spec/40_hex_codec.md R100 to R103). -/

namespace Sys2Proof.Machine

/-- The uppercase hex digit character of `n`, for `n <= 15` (R100). -/
def hexchar (n : Nat) : Byte := BitVec.ofNat 8 (if n ≤ 9 then 0x30 + n else 0x37 + n)

/-- Whether a byte is an uppercase hex digit character, `[0-9A-F]` (R101). -/
def hexdigit (c : Byte) : Bool := (0x30#8 ≤ c && c ≤ 0x39#8) || (0x41#8 ≤ c && c ≤ 0x46#8)

/-- The value of a hex digit character (R101). -/
def hexval (c : Byte) : Nat := if c ≤ 0x39#8 then c.toNat - 0x30 else c.toNat - 0x37

/-- The `nb` bytes of `v`, most significant first (R102). -/
def bigEndianBytes (v : Nat) (nb : Nat) : List Nat :=
  (List.range nb).map fun j => (v >>> (8 * (nb - 1 - j))) % 256

/-- The two hex digit characters of a byte (R102). -/
def hexPair (b : Nat) : List Byte := [hexchar (b / 16), hexchar (b % 16)]

/-- `encode_hex(v, d)` (R102); `none` is its precondition failure. -/
def encodeHex (v : Word) (d : Nat) : Option (List Byte) :=
  let nb := (d + 1) / 2
  if d < 1 ∨ d > 8 then none
  else if v.toNat ≥ 2 ^ (8 * nb) then none
  else
    let t := (bigEndianBytes v.toNat nb).flatMap hexPair
    some (if d % 2 = 1 then t.drop 1 else t)

/-- The value of a digit string, the first character most significant: the sum of R103. -/
def hexSum : List Byte → Nat
  | [] => 0
  | c :: cs => hexval c * 16 ^ cs.length + hexSum cs

/-- `decode_hex(s)` (R103); `none` is its precondition failure. -/
def decodeHex (s : List Byte) : Option Word :=
  if s.length < 1 ∨ s.length > 8 then none
  else if s.all hexdigit then some (BitVec.ofNat 32 (hexSum s))
  else none

end Sys2Proof.Machine
end

