-- ==== Sys2Proof/Machine/Crc.lean ====
section
/-! DEFINITION. The CRC function and the checksum string (spec/41_crc.md R120 to R123). The algorithm is the spec's own
choice, CRC-32/ISO-HDLC, supplied there from general knowledge (R10, D8; log 8). -/

namespace Sys2Proof.Machine

/-- The CRC initial value (R10, R121). -/
def crcInit : Word := 0xFFFFFFFF#32

/-- The final XOR (R10, R121). -/
def crcFinal (acc : Word) : Word := acc ^^^ 0xFFFFFFFF#32

/-- One of the eight rounds of R120. -/
def crcRound (acc : Word) : Word :=
  if acc.getLsbD 0 then (acc >>> 1) ^^^ 0xEDB88320#32 else acc >>> 1

/-- `crc_step(acc, b)` (R120): one byte, least significant bit first. -/
def crcStep (acc : Word) (b : Byte) : Word := Nat.repeat crcRound 8 (acc ^^^ b.setWidth 32)

/-- The accumulator after a byte sequence. -/
def crcFeed (acc : Word) (s : List Byte) : Word := s.foldl crcStep acc

/-- `crc32(s)` (R121). -/
def crc32 (s : List Byte) : Word := crcFinal (crcFeed crcInit s)

/-- The hex digit character of the nibble of `v` at bits `4k+3 : 4k`. -/
def nibbleChar (v : Word) (k : Nat) : Byte := hexchar ((v.toNat >>> (4 * k)) % 16)

/-- `hex8(v)` (R122): eight uppercase hex characters, most significant nibble first, leading zeros kept. -/
def hex8 (v : Word) : List Byte :=
  [nibbleChar v 7, nibbleChar v 6, nibbleChar v 5, nibbleChar v 4, nibbleChar v 3, nibbleChar v 2, nibbleChar v 1,
   nibbleChar v 0]

/-- `checksum(s) = hex8(crc32(s))` (R123). -/
def checksum (s : List Byte) : List Byte := hex8 (crc32 s)

end Sys2Proof.Machine
end

