-- ==== Sys2Proof/Machine/Memory.lean ====
section
/-! DEFINITION. A byte array as a canonical list of (index, byte) cells: the form in which IBUF and TBUF
(spec/10_state.md R37, R38), the block's only memories, are held. -/

namespace Sys2Proof.Machine

/-- The cells of a byte array, indices strictly rising, no cell equal to what an unlisted index reads as. -/
abbrev Memory := List Host.Cell

/-- What a byte that nothing has stored reads as. The spec leaves such bytes unspecified and unobservable (R37, R38,
R43). DESIGN CHOICE (log 5). -/
def Memory.unlisted : Byte := 0x00#8

/-- The canonical form. -/
abbrev Memory.wf (m : Memory) : Prop :=
  m.Pairwise (fun a b => a.1 < b.1) ∧ ∀ c ∈ m, c.2 ≠ Memory.unlisted

/-- The byte at index `k`. -/
def Memory.read : Memory → Nat → Byte
  | [], _ => Memory.unlisted
  | c :: m, k => if c.1 = k then c.2 else Memory.read m k

/-- Puts a cell in front of the first cell with a larger index. -/
def Memory.place : Memory → Host.Cell → Memory
  | [], x => [x]
  | c :: m, x => if x.1 < c.1 then x :: c :: m else c :: Memory.place m x

/-- Drops the cell at index `k`. -/
def Memory.drop (m : Memory) (k : Nat) : Memory := m.filter fun c => c.1 != k

/-- Stores a byte at index `k`, keeping the canonical form. -/
def Memory.write (m : Memory) (k : Nat) (v : Byte) : Memory :=
  if v = Memory.unlisted then m.drop k else (m.drop k).place (k, v)

/-- The `n` bytes from index `i` on: `BUF[i .. i+n-1]` of R12, empty when `n` is 0. -/
def Memory.span (m : Memory) (i n : Nat) : List Byte := (List.range n).map fun j => m.read (i + j)

/-- Stores a byte sequence from index `i` on. -/
def Memory.store : Memory → Nat → List Byte → Memory
  | m, _, [] => m
  | m, i, b :: bs => Memory.store (m.write i b) (i + 1) bs

end Sys2Proof.Machine
end

