-- ==== Sys2Proof/Machine/State.lean ====
section
/-! DEFINITION. The state of the block (spec/10_state.md) with the host's side of the bus, as plain data; its reset
values (R43); and the ways a step can stop. -/

namespace Sys2Proof.Machine

/-- The values of STATUS.RESULT (R25). The reserved values 9 to 15 are never written by the block and have no name
here (log 9). -/
inductive Result where
  | none | ok | deverr | malformed | integrity | timeout | precond | badcmd | dropped
  deriving DecidableEq, Repr

/-- The block's registers and buffers (R24 to R38), the parameters it was built with, and the host's side of the bus. -/
structure State where
  /-- The parameters (R5 to R7, R60, R63); no step changes them (R35). -/
  cfg : Config
  /-- STATUS.RESULT (R24, R25). -/
  result : Result
  /-- STATUS.RXDONE: IBUF holds a terminator, as its last byte (R24). -/
  rxdone : Bool
  /-- STATUS.RXOVF: sticky, a push was dropped because IBUF was full (R24). -/
  rxovf : Bool
  /-- STATUS.RXLATE: sticky, a push was dropped because RXDONE was 1 (R24). -/
  rxlate : Bool
  /-- STATUS.TXFRAME: TBUF holds a built frame rather than parameters (R24). -/
  txframe : Bool
  /-- ACC, the CRC accumulator read at CRC_ACC (R26). -/
  acc : Word
  /-- HEXVAL (R28). -/
  hexval : Word
  /-- HEXSTR_HI, characters HS[0..3] (R29). -/
  hexstrHi : Word
  /-- HEXSTR_LO, characters HS[4..7] (R29). -/
  hexstrLo : Word
  /-- ILEN, bytes held in IBUF (R30). -/
  ilen : Len
  /-- TLEN, bytes held in TBUF (R31). -/
  tlen : Len
  /-- BODY_LEN (R32). -/
  bodyLen : Len
  /-- DEVERR.VALID (R33). -/
  deverrValid : Bool
  /-- DEVERR.CODE (R33). -/
  deverrCode : Byte
  /-- FCRC (R34). -/
  fcrc : Word
  /-- IBUF, the receive buffer (R37). -/
  ibuf : Memory
  /-- TBUF, the transmit buffer (R38). -/
  tbuf : Memory
  /-- The model's own field: the host's accesses still to be served, oldest first (R20, R67; log 1). -/
  pending : List Access
  /-- The model's own field: the words the host's reads have returned, newest first (R64, R194; log 1). -/
  returned : List Word
  deriving DecidableEq, Repr

/-- What stops a step as a fault. The block itself has no trap (R200): no command faults. -/
inductive Fault where
  /-- Raised by a host access at a bus address outside [BASE, BASE + 4096), which is no address of the block (R60).
  Safe: the spec gives such an access no effect on the block (log 7). -/
  | outsideWindow
  deriving DecidableEq, Repr

/-- What stops a step as a refusal. -/
inductive Refusal where
  /-- Raised by an arm of `exec` whose instruction has no meaning yet; every instruction has one. Safe. -/
  | notModelled (mnemonic : String)
  /-- Raised by a host access narrower than 32 bits inside the window: not defined by the spec, which asks a model to
  refuse it (R63). Safe (log 6). -/
  | narrowAccess
  /-- Raised by a 32-bit host access at an offset that is no multiple of 4: not defined by the spec, which asks a model
  to refuse it (R63, R65). Safe (log 6). -/
  | misalignedAccess
  /-- Raised by a narrow or misaligned access where the parameter SUBWORD_ACCESS says that the platform defines it: the
  meaning is the platform's, not this spec's (R63). Safe (log 6). -/
  | platformAccess
  deriving DecidableEq, Repr

/-- The state after power-on reset (R43, R220), for any parameters and any contents of the two buffers, which R43
leaves unspecified. -/
def State.powerOn (c : Config) (ib tb : Memory) : State :=
  { cfg := c, result := .none, rxdone := false, rxovf := false, rxlate := false, txframe := false,
    acc := 0xFFFFFFFF#32, hexval := 0#32, hexstrHi := 0#32, hexstrLo := 0#32,
    ilen := 0#9, tlen := 0#9, bodyLen := 0#9, deverrValid := false, deverrCode := 0#8, fcrc := 0#32,
    ibuf := ib, tbuf := tb, pending := [], returned := [] }

/-- The machine right after power-on reset with the parameters of the test vectors and nothing stored in the buffers
(R43; DESIGN CHOICE, log 4 and log 5). -/
def State.reset : State := State.powerOn Config.default [] []

end Sys2Proof.Machine
end

