-- ==== Sys2Proof/Machine/Flags.lean ====
section
/-! DEFINITION. The STATUS register (spec/10_state.md R24, R25): its result codes, its word, and the updates of its
flags that several commands share. -/

namespace Sys2Proof.Machine

/-- The value column of R25. -/
def Result.code : Result → BitVec 4
  | .none      => 0#4
  | .ok        => 1#4
  | .deverr    => 2#4
  | .malformed => 3#4
  | .integrity => 4#4
  | .timeout   => 5#4
  | .precond   => 6#4
  | .badcmd    => 7#4
  | .dropped   => 8#4

/-- A one-bit field. -/
def flagBit (b : Bool) : BitVec 1 := BitVec.ofBool b

/-- STATUS as read (R24): RESULT in bits 3:0, RXDONE 4, RXOVF 5, RXLATE 6, TXFRAME 7, and 0 above. -/
def State.statusWord (s : State) : Word :=
  (flagBit s.txframe ++ flagBit s.rxlate ++ flagBit s.rxovf ++ flagBit s.rxdone ++ s.result.code).setWidth 32

/-- DEVERR as read (R33): CODE in bits 7:0, VALID in bit 8, and 0 above. -/
def State.deverrWord (s : State) : Word := (flagBit s.deverrValid ++ s.deverrCode).setWidth 32

/-- Clears the three receive flags (R165, R167, R168, R191). -/
def State.clearRxFlags (s : State) : State := { s with rxdone := false, rxovf := false, rxlate := false }

/-- Forgets the last parse: BODY_LEN and DEVERR to 0 (R32, R33). -/
def State.clearParse (s : State) : State :=
  { s with bodyLen := 0#9, deverrValid := false, deverrCode := 0#8 }

end Sys2Proof.Machine
end

