-- ==== Sys2Proof/Machine/Ops.lean ====
section
/-! DEFINITION. The shared operations over registers and buffers. The block has no trap (spec/60_exceptions.md R200,
R205): what stands for taking an exception is `State.raise`, and there is nothing to return from. -/

namespace Sys2Proof.Machine

/-- How every command ends: RESULT written, nothing else (R12 `raise`, R25, R200). -/
def State.raise (s : State) (r : Result) : State := { s with result := r }

/-- The next state of a command that ends with result `r`. -/
def State.finish (s : State) (r : Result) : Host.Outcome State Fault Refusal := .next (s.raise r)

/-- The valid bytes of IBUF: `IBUF[0 .. ILEN-1]` (R37). -/
def State.received (s : State) : List Byte := s.ibuf.span 0 s.ilen.toNat

/-- The valid bytes of TBUF: `TBUF[0 .. TLEN-1]` (R38). -/
def State.outgoing (s : State) : List Byte := s.tbuf.span 0 s.tlen.toNat

/-- Empties IBUF and forgets the last parse: what RX.CLEAR, RX.ABORT and a failing FRAME.PARSE share (R165, R167,
R168). The bytes are not erased but become unobservable (R37). -/
def State.emptyRx (s : State) : State := { s.clearRxFlags.clearParse with ilen := 0#9 }

/-- Stores a received byte at index ILEN; a terminator sets RXDONE (R166). -/
def State.appendRx (s : State) (b : Byte) : State :=
  { s with ibuf := s.ibuf.write s.ilen.toNat b, ilen := s.ilen + 1#9, rxdone := s.rxdone || (b == s.cfg.term) }

/-- Empties TBUF (R142). -/
def State.emptyTx (s : State) : State := { s with tlen := 0#9, txframe := false }

/-- Stores a parameter byte at index TLEN (R143). -/
def State.appendTx (s : State) (b : Byte) : State :=
  { s with tbuf := s.tbuf.write s.tlen.toNat b, tlen := s.tlen + 1#9 }

/-- Replaces the contents of TBUF by a built frame, whose covered span has the CRC `c` (R144). -/
def State.holdFrame (s : State) (f : List Byte) (c : Word) : State :=
  { s with tbuf := s.tbuf.store 0 f, tlen := BitVec.ofNat 9 f.length, fcrc := c, txframe := true }

/-- What a parse that found a body records: BODY_LEN and DEVERR (R168). -/
def State.recordParse (s : State) (n : Nat) (valid : Bool) (code : Byte) : State :=
  { s with bodyLen := BitVec.ofNat 9 n, deverrValid := valid, deverrCode := code }

end Sys2Proof.Machine
end

