-- ==== Sys2Proof/Machine/Control.lean ====
section
/-! DEFINITION. The control commands (spec/44_control.md R190, R191) and the effect of an illegal command word (R192). -/

namespace Sys2Proof.Machine

/-- NOP (R190). -/
def execNop (s : State) : Host.Outcome State Fault Refusal := s.finish .ok

/-- Every register at its reset value but RESULT (R43, R191). CONFIG is constant, and the buffers' bytes are not erased
but become unobservable. -/
def State.resetRegisters (s : State) : State :=
  { s.emptyRx.emptyTx with
    acc := crcInit, hexval := 0#32, hexstrHi := 0#32, hexstrLo := 0#32, fcrc := 0#32 }

/-- RESET (R191). -/
def execReset (s : State) : Host.Outcome State Fault Refusal := s.resetRegisters.finish .ok

/-- An illegal command word changes only RESULT (R192). -/
def illegalCommand (s : State) : Host.Outcome State Fault Refusal := s.finish .badcmd

end Sys2Proof.Machine
end

