-- ==== Sys2Proof/Machine/Operands.lean ====
section
/-! DEFINITION. The operand forms a command can read or write (spec/10_state.md R40): the codec's character string
HS[0..7] in HEXSTR_HI and HEXSTR_LO (R29), and the A field taken as a count or an id (spec/30_encoding.md R81). -/

namespace Sys2Proof.Machine

/-- The A field as a mathematical integer: zero-extended, never scaled or shifted (R81). -/
abbrev immediate (a : Byte) : Nat := a.toNat

/-- Four characters packed most significant byte first (R29). -/
def packChars (c0 c1 c2 c3 : Byte) : Word := c0 ++ c1 ++ c2 ++ c3

/-- The four characters of a packed word, the first in bits 31:24 (R29). -/
def unpackChars (w : Word) : List Byte :=
  [w.extractLsb' 24 8, w.extractLsb' 16 8, w.extractLsb' 8 8, w.extractLsb' 0 8]

/-- The character string HS[0..7] (R29). -/
def State.hs (s : State) : List Byte := unpackChars s.hexstrHi ++ unpackChars s.hexstrLo

/-- Writes HS from a string of at most 8 characters, left-aligned; the unused characters are zeroed (R29, R104). -/
def State.setHs (s : State) (cs : List Byte) : State :=
  { s with
    hexstrHi := packChars (cs.getD 0 0#8) (cs.getD 1 0#8) (cs.getD 2 0#8) (cs.getD 3 0#8)
    hexstrLo := packChars (cs.getD 4 0#8) (cs.getD 5 0#8) (cs.getD 6 0#8) (cs.getD 7 0#8) }

end Sys2Proof.Machine
end

