-- ==== Sys2Proof/Machine/CrcEngine.lean ====
section
/-! DEFINITION. The streaming CRC commands (spec/41_crc.md R125 to R127). -/

namespace Sys2Proof.Machine

/-- CRC.INIT (R125). -/
def execCrcInit (s : State) : Host.Outcome State Fault Refusal :=
  ({ s with acc := crcInit } : State).finish .ok

/-- CRC.BYTE (R126). -/
def execCrcByte (b : Byte) (s : State) : Host.Outcome State Fault Refusal :=
  ({ s with acc := crcStep s.acc b } : State).finish .ok

/-- CRC.HEX (R127). -/
def execCrcHex (s : State) : Host.Outcome State Fault Refusal :=
  (({ s with hexval := crcFinal s.acc } : State).setHs (hex8 (crcFinal s.acc))).finish .ok

end Sys2Proof.Machine
end

