-- ==== Sys2Proof/Machine/Frame.lean ====
section
/-! DEFINITION. The frame encoder and the frame decoder as pure functions of byte sequences (spec/42_frame_build.md
R140, R141; spec/43_frame_parse.md R160 to R164). -/

namespace Sys2Proof.Machine

/-- `PREFIX`, the three bytes "XT+" (R8). -/
def xtPrefix : List Byte := [0x58#8, 0x54#8, 0x2B#8]

/-- The separator before the checksum, one space (R140). -/
def space : Byte := 0x20#8

/-- `dirchar` (R82, R140): 'R' for Read, 'W' for Write. -/
def dirchar : Direction → Byte
  | .read  => 0x52#8
  | .write => 0x57#8

/-- A command id as two decimal digits, zero-padded (R141). -/
def twoDigits (cid : Nat) : List Byte := [BitVec.ofNat 8 (0x30 + cid / 10), BitVec.ofNat 8 (0x30 + cid % 10)]

/-- The covered span of a request, `PREFIX..PARAMS` (R141, glossary). -/
def requestSpan (cid : Nat) (dir : Direction) (params : List Byte) : List Byte :=
  xtPrefix ++ [dirchar dir] ++ twoDigits cid ++ params

/-- `build_frame(cid, dir, P)` (R141); `none` is its precondition failure. -/
def buildFrame (term : Byte) (cid : Nat) (dir : Direction) (params : List Byte) : Option (List Byte) :=
  if cid > 99 then none
  else
    let u := requestSpan cid dir params
    some (u ++ [space] ++ hex8 (crc32 u) ++ [term])

/-- The status token "OK" (R160). -/
def okToken : List Byte := [0x4F#8, 0x4B#8]

/-- The status token "ER" (R160). -/
def erToken : List Byte := [0x45#8, 0x52#8]

/-- The byte '+' between status and body (R160). -/
def plus : Byte := 0x2B#8

/-- `STATUS = F[0..1]` (R160). -/
def statusOf (f : List Byte) : List Byte := f.take 2

/-- The covered span `F[0 .. L-11]` of a response, with the '+' (R161, C2). -/
def coveredSpan (f : List Byte) : List Byte := f.take (f.length - 10)

/-- `BODY = F[3 .. L-11]` (R160). -/
def bodyOf (f : List Byte) : List Byte := (coveredSpan f).drop 3

/-- `CRCTXT = F[L-9 .. L-2]` (R160). -/
def crcText (f : List Byte) : List Byte := (f.drop (f.length - 9)).take 8

/-- Step 1, Match: the position checks of R160. Any byte may stand in BODY, LF included when TERM is CR, as D26 settles it;
the source's own grammar may have shut LF out (N13; UNVERIFIED, unsafe, log 15). -/
def matchFrame (term : Byte) (f : List Byte) : Bool :=
  decide (13 ≤ f.length)
    && decide (f.getD (f.length - 1) 0#8 = term)
    && (decide (statusOf f = okToken) || decide (statusOf f = erToken))
    && decide (f.getD 2 0#8 = plus)
    && decide (f.getD (f.length - 10) 0#8 = space)
    && (crcText f).all hexdigit

/-- What `parse_frame` returns (spec/43_frame_parse.md section 1). -/
inductive ParseResult where
  | ok (n : Nat)
  | deverr (code : Byte)
  | malformed
  | integrity
  deriving DecidableEq, Repr

/-- Whether a code is in `KNOWN_CODES` (R7, R162). -/
def knownCode (t : CodeTable) (c : Byte) : Bool := t.codes.contains c

/-- The body of an `ER` frame as a device error code: exactly two uppercase hex digits whose value is a known code
(R162, R163). -/
def interpretError (t : CodeTable) (body : List Byte) : ParseResult :=
  match body with
  | [c1, c0] =>
    if hexdigit c1 && hexdigit c0 then
      let code : Byte := BitVec.ofNat 8 (16 * hexval c1 + hexval c0)
      if knownCode t code then .deverr code else .malformed
    else .malformed
  | _ => .malformed

/-- Step 3, Interpret, of a matched frame whose checksum is right (R162). -/
def interpret (t : CodeTable) (f : List Byte) : ParseResult :=
  if statusOf f = okToken then .ok (f.length - 13) else interpretError t (bodyOf f)

/-- Steps 2 and 3 of a matched frame (R161, R162, R164). -/
def verifyThenInterpret (t : CodeTable) (f : List Byte) : ParseResult :=
  if hex8 (crc32 (coveredSpan f)) ≠ crcText f then .integrity else interpret t f

/-- `parse_frame(F)` (R160 to R164): its result, and the recomputed CRC when the match step passed. -/
def parseFrame (c : Config) (f : List Byte) : ParseResult × Option Word :=
  if matchFrame c.term f then (verifyThenInterpret c.codes f, some (crc32 (coveredSpan f)))
  else (.malformed, none)

end Sys2Proof.Machine
end

