-- ==== Sys2Proof/Machine/FrameBuild.lean ====
section
/-! DEFINITION. The commands of the frame encoder (spec/42_frame_build.md R142 to R144). -/

namespace Sys2Proof.Machine

/-- TX.CLEAR (R142). -/
def execTxClear (s : State) : Host.Outcome State Fault Refusal := s.emptyTx.finish .ok

/-- TX.PUSH (R143). -/
def execTxPush (b : Byte) (s : State) : Host.Outcome State Fault Refusal :=
  if s.txframe then s.finish .precond
  else if s.tlen.toNat = s.cfg.bufSize then s.finish .precond
  else (s.appendTx b).finish .ok

/-- FRAME.BUILD (R144). -/
def execFrameBuild (cid : Byte) (dir : Direction) (s : State) : Host.Outcome State Fault Refusal :=
  if s.txframe then s.finish .precond
  else if immediate cid > 99 then s.finish .precond
  else if s.tlen.toNat + 16 > s.cfg.bufSize then s.finish .precond
  else
    match buildFrame s.cfg.term (immediate cid) dir s.outgoing with
    | none => s.finish .precond
    | some f => (s.holdFrame f (crc32 (f.take (s.tlen.toNat + 6)))).finish .ok

end Sys2Proof.Machine
end

