-- ==== Sys2Proof/Machine/FrameParse.lean ====
section
/-! DEFINITION. The commands of the frame decoder (spec/43_frame_parse.md R165 to R168). -/

namespace Sys2Proof.Machine

/-- RX.CLEAR (R165). -/
def execRxClear (s : State) : Host.Outcome State Fault Refusal := s.emptyRx.finish .ok

/-- RX.PUSH (R166). RXDONE is tested before fullness (R202). -/
def execRxPush (b : Byte) (s : State) : Host.Outcome State Fault Refusal :=
  if s.rxdone then ({ s with rxlate := true } : State).finish .dropped
  else if s.ilen.toNat = s.cfg.bufSize then ({ s with rxovf := true } : State).finish .dropped
  else (s.appendRx b).finish .ok

/-- RX.ABORT (R167). -/
def execRxAbort (s : State) : Host.Outcome State Fault Refusal := s.emptyRx.finish .timeout

/-- FCRC takes the recomputed CRC when the match step passed, and is unchanged otherwise (R34, R168). -/
def State.recordCrc (s : State) : Option Word → State
  | none => s
  | some c => { s with fcrc := c }

/-- The case of R168 on the parse's result. -/
def State.concludeParse (s : State) : ParseResult → Host.Outcome State Fault Refusal
  | .ok n        => (s.recordParse n false 0#8).finish .ok
  | .deverr code => (s.recordParse 2 true code).finish .deverr
  | .malformed   => s.emptyRx.finish .malformed
  | .integrity   => s.emptyRx.finish .integrity

/-- FRAME.PARSE (R168). -/
def execFrameParse (s : State) : Host.Outcome State Fault Refusal :=
  let r := parseFrame s.cfg s.received
  (s.recordCrc r.2).concludeParse r.1

end Sys2Proof.Machine
end

