-- ==== Sys2Proof/Machine/HexCodec.lean ====
section
/-! DEFINITION. The commands of the integer/hex codec (spec/40_hex_codec.md R104, R105). -/

namespace Sys2Proof.Machine

/-- HEX.ENC (R104). -/
def execHexEnc (d : Byte) (s : State) : Host.Outcome State Fault Refusal :=
  match encodeHex s.hexval (immediate d) with
  | none => s.finish .precond
  | some r => (s.setHs r).finish .ok

/-- HEX.DEC (R105). -/
def execHexDec (n : Byte) (s : State) : Host.Outcome State Fault Refusal :=
  if immediate n < 1 ∨ immediate n > 8 then s.finish .precond
  else
    match decodeHex (s.hs.take (immediate n)) with
    | none => s.finish .precond
    | some v => ({ s with hexval := v } : State).finish .ok

end Sys2Proof.Machine
end

