-- ==== Sys2Proof/Machine/Dispatch.lean ====
section
/-! DEFINITION. One arm per command (spec/30_encoding.md R84), each one call of its meaning. -/

namespace Sys2Proof.Machine

def exec (i : Instr) (s : State) : Host.Outcome State Fault Refusal :=
  match i with
  | .nop => Sys2Proof.Machine.execNop s
  | .crcInit => Sys2Proof.Machine.execCrcInit s
  | .crcByte b => Sys2Proof.Machine.execCrcByte b s
  | .crcHex => Sys2Proof.Machine.execCrcHex s
  | .hexEnc d => Sys2Proof.Machine.execHexEnc d s
  | .hexDec n => Sys2Proof.Machine.execHexDec n s
  | .rxClear => Sys2Proof.Machine.execRxClear s
  | .rxPush b => Sys2Proof.Machine.execRxPush b s
  | .rxAbort => Sys2Proof.Machine.execRxAbort s
  | .frameParse => Sys2Proof.Machine.execFrameParse s
  | .txClear => Sys2Proof.Machine.execTxClear s
  | .txPush b => Sys2Proof.Machine.execTxPush b s
  | .frameBuild cid dir => Sys2Proof.Machine.execFrameBuild cid dir s
  | .reset => Sys2Proof.Machine.execReset s

end Sys2Proof.Machine
end

