-- ==== Sys2Proof/Machine/Bus.lean ====
section
/-! DEFINITION. The host's bus accesses: the register map (spec/10_state.md R21), reads (spec/44_control.md R194),
writes (R193), the write to CMD that runs a command (R23, R192), and the accesses the spec does not define
(spec/20_memory.md R60, R63). -/

namespace Sys2Proof.Machine

/-- What an aligned offset of the window selects (R21). -/
inductive Target where
  | register (r : Reg)
  | ibufWord (k : Nat)
  | tbufWord (k : Nat)
  | reserved
  deriving DecidableEq, Repr

/-- The offset of a register (R21). -/
def regOffset : Reg → Nat
  | .cmd      => 0x000
  | .status   => 0x004
  | .crcAcc   => 0x008
  | .crcOut   => 0x00C
  | .hexval   => 0x010
  | .hexstrHi => 0x014
  | .hexstrLo => 0x018
  | .ilen     => 0x01C
  | .tlen     => 0x020
  | .bodyLen  => 0x024
  | .deverr   => 0x028
  | .fcrc     => 0x02C
  | .config   => 0x030

/-- Every register of R21. -/
def allRegs : List Reg :=
  [.cmd, .status, .crcAcc, .crcOut, .hexval, .hexstrHi, .hexstrLo, .ilen, .tlen, .bodyLen, .deverr, .fcrc, .config]

/-- The register map (R21): registers, then the IBUF window at 0x400, the TBUF window at 0x800, and reserved offsets
elsewhere (R36). -/
def targetOf (off : Nat) : Target :=
  match allRegs.find? fun r => regOffset r == off with
  | some r => .register r
  | none =>
    if 0x400 ≤ off ∧ off < 0x800 then .ibufWord ((off - 0x400) / 4)
    else if 0x800 ≤ off ∧ off < 0xC00 then .tbufWord ((off - 0x800) / 4)
    else .reserved

/-- CONFIG as read (R35): BUF_SIZE in bits 8:0, TERM in bits 23:16, 0 elsewhere. -/
def configWord (c : Config) : Word :=
  (c.term ++ (0#7) ++ (BitVec.ofNat 9 c.bufSize)).setWidth 32

/-- A word of a buffer window (R37, R38): byte `k` while it is valid, 0 otherwise. -/
def bufferWord (m : Memory) (len : Len) (k : Nat) : Word :=
  if k < len.toNat then (m.read k).setWidth 32 else 0#32

/-- What a read of a register returns (R22 to R35). -/
def State.readReg (s : State) : Reg → Word
  | .cmd      => 0#32
  | .status   => s.statusWord
  | .crcAcc   => s.acc
  | .crcOut   => crcFinal s.acc
  | .hexval   => s.hexval
  | .hexstrHi => s.hexstrHi
  | .hexstrLo => s.hexstrLo
  | .ilen     => s.ilen.setWidth 32
  | .tlen     => s.tlen.setWidth 32
  | .bodyLen  => s.bodyLen.setWidth 32
  | .deverr   => s.deverrWord
  | .fcrc     => s.fcrc
  | .config   => configWord s.cfg

/-- `MemRead(off, 4)` (R194). -/
def State.windowRead (s : State) (off : Nat) : Word :=
  match targetOf off with
  | .register r => s.readReg r
  | .ibufWord k => bufferWord s.ibuf s.ilen k
  | .tbufWord k => bufferWord s.tbuf s.tlen k
  | .reserved   => 0#32

/-- A write to CMD (R23): the command the word decodes to, or BADCMD (R80, R192). -/
def State.command (s : State) (w : Word) : Host.Outcome State Fault Refusal :=
  match decode w with
  | .ok i => exec i s
  | .error _ => illegalCommand s

/-- A write to a register (R22, R193): CMD runs a command, the three read-write registers take all 32 bits, and a write
to a read-only register changes nothing. -/
def State.writeReg (s : State) (v : Word) : Reg → Host.Outcome State Fault Refusal
  | .cmd      => s.command v
  | .hexval   => .next { s with hexval := v }
  | .hexstrHi => .next { s with hexstrHi := v }
  | .hexstrLo => .next { s with hexstrLo := v }
  | .status | .crcAcc | .crcOut | .ilen | .tlen | .bodyLen | .deverr | .fcrc | .config => .next s

/-- `MemWrite(off, 4, v)` (R193): a write to a buffer window (RO) or a reserved offset changes nothing (R22, R36). -/
def State.windowWrite (s : State) (off : Nat) (v : Word) : Host.Outcome State Fault Refusal :=
  match targetOf off with
  | .register r => s.writeReg v r
  | .ibufWord _ | .tbufWord _ | .reserved => .next s

/-- An access inside the window that is not an aligned word: not defined by the spec, and refused (R63, R65; log 6). -/
def State.undefinedAccess (s : State) (r : Refusal) : Host.Outcome State Fault Refusal :=
  .refused (if s.cfg.subwordAccess then .platformAccess else r)

/-- Serves one host access (R64, R67): the word a read returns goes to the host, and a read changes nothing of the
block (R64). -/
def State.serve (s : State) (a : Access) : Host.Outcome State Fault Refusal :=
  if a.addr < s.cfg.base ∨ s.cfg.base + 4096 ≤ a.addr then .fault .outsideWindow
  else if a.width ≠ .word then s.undefinedAccess .narrowAccess
  else if (a.addr - s.cfg.base) % 4 ≠ 0 then s.undefinedAccess .misalignedAccess
  else
    match a.op with
    | .read    => .next { s with returned := s.windowRead (a.addr - s.cfg.base) :: s.returned }
    | .write v => s.windowWrite (a.addr - s.cfg.base) v

/-- A whole-word access at an offset of the window. -/
def wordAccess (c : Config) (off : Nat) (op : BusOp) : Access := { addr := c.base + off, width := .word, op := op }

/-- The CMD write that carries a command word (R23). -/
def cmdWrite (c : Config) (w : Word) : Access := wordAccess c 0x000 (.write w)

/-- One access of the host's program, or, with none pending, the block waiting with its state retained (R39, R209;
log 2). -/
def serveNext (s : State) : Host.Outcome State Fault Refusal :=
  match s.pending with
  | [] => .next s
  | a :: rest => ({ s with pending := rest } : State).serve a

/-- The host's next access becomes the CMD write of one word, before what was pending (log 3). -/
def State.pushCommand (s : State) (w : Word) : State := { s with pending := cmdWrite s.cfg w :: s.pending }

end Sys2Proof.Machine
end

