-- ==== Sys2Proof/Machine/Step.lean ====
section
/-! DEFINITION. One step of the machine: one host bus access (spec/00_scope.md R4, D1). -/

namespace Sys2Proof.Machine

/-- Serves the host's next access (R4, R67). -/
def step (s : State) : Host.Outcome State Fault Refusal := serveNext s

/-- `s` with the command word whose bits are `w` as the host's next access: the block fetches nothing (R39), and its
next instruction is the word of the next CMD write (R70). The bits above `nbits`, and those above bit 31, which no
command has (R86), are dropped (log 3). -/
def State.withFetchWord (s : State) (nbits w : Nat) : State := s.pushCommand (BitVec.ofNat 32 (w % 2 ^ nbits))

end Sys2Proof.Machine
end

