-- ==== Sys2Proof/Machine/Assembler.lean ====
section
/-! DEFINITION. The assembly text and the pseudo-instructions (spec/30_encoding.md R87, R88), and the command sequence
of one exchange (spec/70_reset_and_hazards.md R223). Syntax only: the block sees the expanded accesses one at a time.
What R87 leaves open about spaces, letter case of hex numerals and escapes is fixed as log 11 says. -/

namespace Sys2Proof.Machine

/-! ### Pseudo-instructions and lines as bus accesses (R87, R88) -/

/-- The commands of a line, in order; a plain register access has none (R88). -/
def lineCommands : Line → List Instr
  | .command i  => [i]
  | .crcBytes s => s.map .crcByte
  | .crcOf s    => [.crcInit] ++ s.map .crcByte ++ [.crcHex]
  | .rxPushs s  => s.map .rxPush
  | .txPushs s  => s.map .txPush
  | .wr _ _ | .rd _ | .rdIbuf _ | .rdTbuf _ => []

/-- The CMD writes of a command sequence. -/
def commandWrites (c : Config) (is : List Instr) : List Access := is.map fun i => cmdWrite c (encode i)

/-- The host accesses a line stands for (R87, R88). -/
def lineAccesses (c : Config) : Line → List Access
  | .wr r v   => [wordAccess c (regOffset r) (.write v)]
  | .rd r     => [wordAccess c (regOffset r) .read]
  | .rdIbuf k => [wordAccess c (0x400 + 4 * k) .read]
  | .rdTbuf k => [wordAccess c (0x800 + 4 * k) .read]
  | .command i  => commandWrites c (lineCommands (.command i))
  | .crcBytes s => commandWrites c (lineCommands (.crcBytes s))
  | .crcOf s    => commandWrites c (lineCommands (.crcOf s))
  | .rxPushs s  => commandWrites c (lineCommands (.rxPushs s))
  | .txPushs s  => commandWrites c (lineCommands (.txPushs s))

/-- The host accesses of a program. -/
def programAccesses (c : Config) (p : List Line) : List Access := p.flatMap (lineAccesses c)

/-! ### The exchange (R223) -/

/-- A command and the STATUS read by which the host learns its RESULT and RXDONE (R223, R229; log 16). -/
def checked (i : Instr) : List Line := [.command i, .rd .status]

/-- Whether FRAME.BUILD has RESULT OK on these parameters, so that there is a frame to send (R144). -/
def frameSent (c : Config) (cid : Byte) (params : List Byte) : Bool :=
  decide (cid.toNat ≤ 99) && decide (params.length + 16 ≤ c.bufSize)

/-- The request half: the parameters pushed and framed, and, when RESULT is OK, TLEN and the frame read (R223). -/
def requestProgram (c : Config) (cid : Byte) (dir : Direction) (params : List Byte) : List Line :=
  [.command .txClear] ++ params.flatMap (fun b => checked (.txPush b)) ++ checked (.frameBuild cid dir)
    ++ (if frameSent c cid params then .rd .tlen :: (List.range (params.length + 16)).map .rdTbuf else [])

/-- Whether pushing the bytes that arrive before the deadline makes RXDONE 1: a TERM is among the first BUF_SIZE of
them (R166). -/
def completes (c : Config) (arrived : List Byte) : Bool := (arrived.take c.bufSize).contains c.term

/-- The bytes pushed "until RXDONE = 1": up to and with the first TERM, or all that arrive before the deadline
(R223). -/
def pushedBytes (c : Config) (arrived : List Byte) : List Byte :=
  if completes c arrived then arrived.take (arrived.idxOf c.term + 1) else arrived

/-- What the host reads after FRAME.PARSE: BODY_LEN and the body on OK, DEVERR on DEVERR (R223). -/
def resultReads : ParseResult → List Line
  | .ok n      => .rd .bodyLen :: (List.range n).map fun j => .rdIbuf (3 + j)
  | .deverr _  => [.rd .deverr]
  | .malformed => []
  | .integrity => []

/-- What ends the wait for a response: FRAME.PARSE once RXDONE is 1, or RX.ABORT when the deadline passes with
RXDONE = 0 (R223, R233). -/
def responseEnd (c : Config) (arrived : List Byte) : List Line :=
  if completes c arrived then checked .frameParse ++ resultReads (parseFrame c (pushedBytes c arrived)).1
  else checked .rxAbort

/-- The response half, for the bytes that arrive before the deadline (R223; log 16). -/
def responseProgram (c : Config) (arrived : List Byte) : List Line :=
  [.command .rxClear] ++ (pushedBytes c arrived).flatMap (fun b => checked (.rxPush b)) ++ responseEnd c arrived
    ++ [.command .rxClear]

/-- One exchange (R223): a request, and, where it is sent, its response. -/
def exchangeProgram (c : Config) (cid : Byte) (dir : Direction) (params arrived : List Byte) : List Line :=
  requestProgram c cid dir params ++ (if frameSent c cid params then responseProgram c arrived else [])

/-! ### The assembly text (R87) -/

/-- The characters of a text as ASCII bytes (R13); none where a character is not ASCII. -/
def asciiOf (s : String) : Option (List Byte) :=
  s.toList.mapM fun c => if c.toNat < 128 then some (BitVec.ofNat 8 c.toNat) else none

/-- The mnemonic of a row (R84). -/
def mnemonic : Opcode → String
  | .nop        => "NOP"
  | .crcInit    => "CRC.INIT"
  | .crcByte    => "CRC.BYTE"
  | .crcHex     => "CRC.HEX"
  | .hexEnc     => "HEX.ENC"
  | .hexDec     => "HEX.DEC"
  | .rxClear    => "RX.CLEAR"
  | .rxPush     => "RX.PUSH"
  | .rxAbort    => "RX.ABORT"
  | .frameParse => "FRAME.PARSE"
  | .txClear    => "TX.CLEAR"
  | .txPush     => "TX.PUSH"
  | .frameBuild => "FRAME.BUILD"
  | .reset      => "RESET"

/-- The name of a register (R21). -/
def regName : Reg → String
  | .cmd      => "CMD"
  | .status   => "STATUS"
  | .crcAcc   => "CRC_ACC"
  | .crcOut   => "CRC_OUT"
  | .hexval   => "HEXVAL"
  | .hexstrHi => "HEXSTR_HI"
  | .hexstrLo => "HEXSTR_LO"
  | .ilen     => "ILEN"
  | .tlen     => "TLEN"
  | .bodyLen  => "BODY_LEN"
  | .deverr   => "DEVERR"
  | .fcrc     => "FCRC"
  | .config   => "CONFIG"

/-- Drops the spaces at both ends. -/
def trimSpaces (t : List Byte) : List Byte :=
  ((t.dropWhile (· == 0x20#8)).reverse.dropWhile (· == 0x20#8)).reverse

/-- The value of a digit character in base 10 or 16, either letter case. -/
def digitValue (base : Nat) (c : Byte) : Option Nat :=
  let v :=
    if 0x30#8 ≤ c ∧ c ≤ 0x39#8 then c.toNat - 0x30
    else if 0x41#8 ≤ c ∧ c ≤ 0x46#8 then c.toNat - 0x37
    else if 0x61#8 ≤ c ∧ c ≤ 0x66#8 then c.toNat - 0x57
    else 16
  if v < base then some v else none

/-- The value of a digit sequence after the value `acc`. -/
def digitsValue (base : Nat) : Nat → List Byte → Option Nat
  | acc, [] => some acc
  | acc, c :: cs =>
    match digitValue base c with
    | none => none
    | some v => digitsValue base (acc * base + v) cs

/-- A numeral: hexadecimal after "0x" (R11), else decimal. -/
def parseNumeral : List Byte → Option Nat
  | [] => none
  | [c] => digitsValue 10 0 [c]
  | c :: x :: cs =>
    if c = 0x30#8 ∧ x = 0x78#8 then
      (if cs = [] then none else digitsValue 16 0 cs)
    else digitsValue 10 0 (c :: x :: cs)

/-- A numeral below a bound. -/
def parseBounded (bound : Nat) (t : List Byte) : Option Nat :=
  match parseNumeral (trimSpaces t) with
  | some n => if n < bound then some n else none
  | none => none

/-- Quoted characters with the escapes for carriage return and newline (R88). -/
def parseChars : List Byte → Option (List Byte)
  | [] => some []
  | [c] => if c = 0x5C#8 then none else some [c]
  | c :: e :: cs =>
    if c = 0x5C#8 then
      (if e = 0x72#8 then (parseChars cs).map (0x0D#8 :: ·)
       else if e = 0x6E#8 then (parseChars cs).map (0x0A#8 :: ·)
       else none)
    else (parseChars (e :: cs)).map (c :: ·)

/-- The characters between two marks `q`, none of which stands inside. -/
def parseQuoted (q : Byte) (t : List Byte) : Option (List Byte) :=
  match trimSpaces t with
  | [] => none
  | c :: rest =>
    if c = q ∧ rest.getLast? = some q ∧ rest.dropLast.contains q = false then parseChars rest.dropLast else none

/-- A byte operand: a numeral or a quoted character (R87). -/
def parseByte (t : List Byte) : Option Byte :=
  match parseQuoted 0x27#8 t with
  | some [b] => some b
  | some _ => none
  | none => (parseBounded 256 t).map (BitVec.ofNat 8 ·)

/-- A digit count or command id: a numeral of the A field (R87). -/
def parseCount (t : List Byte) : Option Byte := (parseBounded 256 t).map (BitVec.ofNat 8 ·)

/-- The direction operand: R or W (R87). -/
def parseDirection (t : List Byte) : Option Direction :=
  if trimSpaces t = [0x52#8] then some .read
  else if trimSpaces t = [0x57#8] then some .write
  else none

/-- The text before and after the first comma. -/
def splitComma (t : List Byte) : Option (List Byte × List Byte) :=
  if t.contains 0x2C#8 then some (t.takeWhile (· != 0x2C#8), (t.dropWhile (· != 0x2C#8)).drop 1) else none

/-- The register a name stands for (R21). -/
def parseReg (t : List Byte) : Option Reg := allRegs.find? fun r => asciiOf (regName r) == some (trimSpaces t)

/-- The operands of a row (R87), from the text after its mnemonic. -/
def parseOperands (o : Opcode) (t : List Byte) : Option Instr :=
  match o with
  | .crcByte => (parseByte t).map .crcByte
  | .rxPush  => (parseByte t).map .rxPush
  | .txPush  => (parseByte t).map .txPush
  | .hexEnc  => (parseCount t).map .hexEnc
  | .hexDec  => (parseCount t).map .hexDec
  | .frameBuild =>
    match splitComma t with
    | none => none
    | some (a, d) =>
      match parseCount a, parseDirection d with
      | some cid, some dir => some (.frameBuild cid dir)
      | _, _ => none
  | .nop        => if trimSpaces t = [] then some .nop else none
  | .crcInit    => if trimSpaces t = [] then some .crcInit else none
  | .crcHex     => if trimSpaces t = [] then some .crcHex else none
  | .rxClear    => if trimSpaces t = [] then some .rxClear else none
  | .rxAbort    => if trimSpaces t = [] then some .rxAbort else none
  | .frameParse => if trimSpaces t = [] then some .frameParse else none
  | .txClear    => if trimSpaces t = [] then some .txClear else none
  | .reset      => if trimSpaces t = [] then some .reset else none

/-- `WR <REG>, <value>` after its first word (R87). -/
def parseWr (t : List Byte) : Option Line :=
  match splitComma t with
  | none => none
  | some (r, v) =>
    match parseReg r, parseBounded (2 ^ 32) v with
    | some reg, some n => some (.wr reg (BitVec.ofNat 32 n))
    | _, _ => none

/-- The index of `NAME[k]`, for a window word `k` (R87). -/
def parseIndex (name : String) (t : List Byte) : Option Nat :=
  match asciiOf name with
  | none => none
  | some n =>
    let body := trimSpaces t
    if (n ++ [0x5B#8]).isPrefixOf body ∧ body.getLast? = some 0x5D#8 then
      parseBounded 256 (body.drop (n.length + 1)).dropLast
    else none

/-- `RD <REG>`, `RD IBUF[k]` or `RD TBUF[k]` after its first word (R87). -/
def parseRd (t : List Byte) : Option Line :=
  match parseReg t with
  | some r => some (.rd r)
  | none =>
    match parseIndex "IBUF" t with
    | some k => some (.rdIbuf k)
    | none => (parseIndex "TBUF" t).map .rdTbuf

/-- A line by its first word and the text after it: a plain access, a pseudo-instruction, or a command. -/
def parseWords (w t : List Byte) : Option Line :=
  if asciiOf "WR" = some w then parseWr t
  else if asciiOf "RD" = some w then parseRd t
  else if asciiOf "CRC.BYTES" = some w then (parseQuoted 0x22#8 t).map .crcBytes
  else if asciiOf "CRC.OF" = some w then (parseQuoted 0x22#8 t).map .crcOf
  else if asciiOf "RX.PUSHS" = some w then (parseQuoted 0x22#8 t).map .rxPushs
  else if asciiOf "TX.PUSHS" = some w then (parseQuoted 0x22#8 t).map .txPushs
  else
    match Opcode.all.find? fun o => asciiOf (mnemonic o) == some w with
    | none => none
    | some o => (parseOperands o t).map .command

/-- Drops a comment, which starts at a semicolon outside quotes (as the programs of spec/95_test_vectors.md write it; log
11). The first argument is the quote mark that is open, if any. -/
def stripComment : Option Byte → List Byte → List Byte
  | _, [] => []
  | none, c :: cs =>
    if c = 0x3B#8 then [] else c :: stripComment (if c = 0x22#8 ∨ c = 0x27#8 then some c else none) cs
  | some q, c :: cs => c :: stripComment (if c = q then none else some q) cs

/-- One line of assembly text (R87, R88). -/
def parseLine (s : String) : Option Line :=
  match asciiOf s with
  | none => none
  | some t =>
    let u := trimSpaces (stripComment none t)
    parseWords (u.takeWhile (· != 0x20#8)) (u.dropWhile (· != 0x20#8))

/-- Whether a text line holds nothing but spaces and a comment. -/
def blankLine (s : String) : Bool := (asciiOf s).any fun t => trimSpaces (stripComment none t) == []

/-- A program text, one line a list entry; blank lines stand for nothing. -/
def parseProgram (ls : List String) : Option (List Line) := (ls.filter fun s => !blankLine s).mapM parseLine

end Sys2Proof.Machine
end

