-- ==== Sys2Proof/Safety.lean ====
section
/-! DEFINITION. The terms the claims use: the invariants of spec/10_state.md R42 with what makes them inductive, two
states that differ only in bytes no program can observe (R41), and the hazards of spec/70_reset_and_hazards.md section 3
as preconditions on the host's next access (log 10). -/

namespace Sys2Proof.Machine

/-! ### Invariants -/

/-- The invariants R42 lists, point by point. -/
structure State.R42 (s : State) : Prop where
  ilen_le      : s.ilen.toNat ≤ s.cfg.bufSize
  tlen_le      : s.tlen.toNat ≤ s.cfg.bufSize
  rxdone_iff   : s.rxdone = true ↔ 1 ≤ s.ilen.toNat ∧ s.ibuf.read (s.ilen.toNat - 1) = s.cfg.term
  one_term     : ∀ k, k + 1 < s.ilen.toNat → s.ibuf.read k ≠ s.cfg.term
  txframe_len  : s.txframe = true → 16 ≤ s.tlen.toNat
  txframe_form : s.txframe = true →
    ∃ (cid : Nat) (dir : Direction) (p : List Byte), buildFrame s.cfg.term cid dir p = some s.outgoing
  deverr_known : s.deverrValid = true → knownCode s.cfg.codes s.deverrCode = true ∧ s.bodyLen = 2#9
  body_len     : 0 < s.bodyLen.toNat → s.ilen.toNat = s.bodyLen.toNat + 13

/-- The inductive invariant: R42, with a body held only beside a terminator (without it RX.PUSH could move ILEN away
from a recorded body), the parameters admissible, and the buffers in canonical form and within their capacity. -/
structure State.Inv (s : State) : Prop where
  valid       : s.cfg.Valid
  r42         : s.R42
  body_done   : 0 < s.bodyLen.toNat → s.rxdone = true
  ibuf_wf     : s.ibuf.wf
  tbuf_wf     : s.tbuf.wf
  ibuf_within : ∀ c ∈ s.ibuf, c.1 < s.cfg.bufSize
  tbuf_within : ∀ c ∈ s.tbuf, c.1 < s.cfg.bufSize

/-! ### What a program can observe (R41) -/

/-- Every field equal but the buffers, and these equal on their valid bytes: the unused bytes of IBUF and TBUF are
state a program can never observe (R41). -/
structure State.Looks (s t : State) : Prop where
  fields : { t with ibuf := s.ibuf, tbuf := s.tbuf } = s
  ibuf   : ∀ k, k < s.ilen.toNat → t.ibuf.read k = s.ibuf.read k
  tbuf   : ∀ k, k < s.tlen.toNat → t.tbuf.read k = s.tbuf.read k

/-- Two outcomes a program cannot tell apart. -/
def LooksOutcome : Host.Outcome State Fault Refusal → Host.Outcome State Fault Refusal → Prop
  | .next s, .next t       => s.Looks t
  | .fault r, .fault q     => r = q
  | .refused r, .refused q => r = q
  | _, _                   => False

/-! ### The CRC stream (R128) -/

/-- The byte a command feeds to the CRC stream: only CRC.BYTE feeds one (R126, R128). -/
def fedByte : Instr → Option Byte
  | .crcByte b => some b
  | .nop | .crcInit | .crcHex | .hexEnc _ | .hexDec _ | .rxClear | .rxPush _ | .rxAbort | .frameParse | .txClear
  | .txPush _ | .frameBuild _ _ | .reset => none

/-! ### Hazards (R226 to R233) -/

/-- A hazard of the host's next command, named after what it does. -/
inductive Hazard where
  /-- RX.PUSH while RXDONE = 1 (R226). -/
  | pushWhileDone
  /-- FRAME.PARSE before the terminator has been pushed (R226, R233). -/
  | parseBeforeTerminator
  /-- RX.ABORT although a complete frame is held (R167, R233). -/
  | abortWhileDone
  /-- TX.PUSH or FRAME.BUILD while TXFRAME = 1 (R227). -/
  | transmitWhileFramed
  /-- TX.PUSH of a TERM byte (R230). -/
  | terminatorInParams
  deriving DecidableEq, Repr

/-- The hazards of a command in a state. -/
def State.hazards (s : State) : Instr → List Hazard
  | .rxPush _       => if s.rxdone then [.pushWhileDone] else []
  | .frameParse     => if s.rxdone then [] else [.parseBeforeTerminator]
  | .rxAbort        => if s.rxdone then [.abortWhileDone] else []
  | .txPush b       => (if s.txframe then [.transmitWhileFramed] else [])
                         ++ (if b = s.cfg.term then [.terminatorInParams] else [])
  | .frameBuild _ _ => if s.txframe then [.transmitWhileFramed] else []
  | .nop | .crcInit | .crcByte _ | .crcHex | .hexEnc _ | .hexDec _ | .rxClear | .txClear | .reset => []

/-- Whether R229 asks the host to read STATUS after this command. -/
def mustReadResult : Instr → Bool
  | .frameBuild _ _ | .frameParse | .hexEnc _ | .hexDec _ | .txPush _ | .rxPush _ => true
  | .nop | .crcInit | .crcByte _ | .crcHex | .rxClear | .rxAbort | .txClear | .reset => false

/-- A host program reads STATUS after every command that R229 names and before its next command, the last command of the
program included; `owed` says whether such a read is still due. -/
def readsResults (c : Config) : Bool → List Access → Bool
  | owed, [] => !owed
  | owed, a :: rest =>
    if a = wordAccess c (regOffset .status) .read then readsResults c false rest
    else
      match a.op with
      | .read => readsResults c owed rest
      | .write w =>
        if a = cmdWrite c w then
          !owed && readsResults c (match decode w with | .ok i => mustReadResult i | .error _ => false) rest
        else readsResults c owed rest

/-- A state whose next access is defined by the spec, and is hazard-free where it is a command. -/
def State.SafeNext (s : State) : Prop :=
  ∀ a rest, s.pending = a :: rest → a.Defined s.cfg ∧
    ∀ w i, a = cmdWrite s.cfg w → decode w = .ok i → s.hazards i = []

end Sys2Proof.Machine
end

