-- ==== Sys2Proof/Certificates/Slice0/Obligations.lean ====
section
/-! DEFINITION. The statements about the model, for the provers. Each formalises a rule of spec/, or a property the
named sections give by inference; OBLIGATIONS.json lists them. -/

open Sys2Proof Sys2Proof.Machine

/-! ### Encoding (spec/30_encoding.md) -/

/-- R80, R84, R87: decoding the word of any command gives the command back, with every operand at every value. -/
def Obligations.DecodeOfEncodeIsTheInstruction : Prop :=
  ∀ i : Instr, decode (encode i) = .ok i

/-- R84: every command has exactly one word. -/
def Obligations.DecodedWordIsTheEncoding : Prop :=
  ∀ (w : Word) (i : Instr), decode w = .ok i → w = encode i

/-- R84: the decoder gives a row's command, with its operands from A and D, exactly on the words the row's match and mask
select; no word selects two rows, and every word that decodes selects one. -/
def Obligations.DecodeFollowsMatchAndMask : Prop :=
  (∀ r ∈ opTable, ∀ w : Word, r.Selects w ↔ decode w = .ok (r.opcode.build (aField w) (dField w))) ∧
  (∀ r ∈ opTable, ∀ q ∈ opTable, ∀ w : Word, r.Selects w → q.Selects w → r = q) ∧
  (∀ (w : Word) (i : Instr), decode w = .ok i → ∃ r ∈ opTable, r.Selects w)

/-- R83, R192: the fields of a decoded word satisfy R83, and a CMD write of any word that is not legal changes only
RESULT, to BADCMD. -/
def Obligations.IllegalWordReportsBadcmdOnly : Prop :=
  (∀ w : Word, (fieldsOf w).Legal → ∃ i, decode w = .ok i) ∧
  (∀ (s : State) (rest : List Access) (w : Word), s.pending = cmdWrite s.cfg w :: rest → ¬ (fieldsOf w).Legal →
    step s = .next { s with pending := rest, result := .badcmd })

/-- R87, R84: words written out from the spec's format, one or more a family, decode to their commands. -/
def Obligations.SpecWordsDecode : Prop :=
  decode 0x00003102#32 = .ok (.crcByte 0x31#8) ∧
  decode 0x00000810#32 = .ok (.hexEnc 8#8) ∧
  decode 0x00010732#32 = .ok (.frameBuild 7#8 .write) ∧
  decode 0x00000032#32 = .ok (.frameBuild 0#8 .read) ∧
  decode 0x00000020#32 = .ok .rxClear ∧
  decode 0x00000D21#32 = .ok (.rxPush 0x0D#8) ∧
  decode 0x000000FF#32 = .ok .reset

/-! ### The bus (spec/20_memory.md, spec/44_control.md) -/

/-- R23, R70: a step whose next access is a CMD write of a word that decodes to `i` takes the access off the host's
queue and is `exec i` of the state so left. -/
def Obligations.StepRunsDecodedInstruction : Prop :=
  ∀ (s : State) (rest : List Access) (w : Word) (i : Instr),
    s.pending = cmdWrite s.cfg w :: rest → decode w = .ok i → step s = exec i { s with pending := rest }

/-- R39, R209 (log 2): with no access pending the block waits and keeps all its state. -/
def Obligations.IdleStepKeepsState : Prop :=
  ∀ s : State, s.pending = [] → step s = .next s

/-- R60, R63, R64, R65 (log 6, log 7): an access is refused exactly when it lies in the window and is not an aligned 32-bit access,
faults exactly when it lies outside the window (log 7), and otherwise has a next state that took it off the queue. -/
def Obligations.OnlyUndefinedAccessesStop : Prop :=
  ∀ (s : State) (a : Access) (rest : List Access), s.pending = a :: rest →
    (a.Defined s.cfg → ∃ t, step s = .next t ∧ t.pending = rest) ∧
    (¬ (s.cfg.base ≤ a.addr ∧ a.addr < s.cfg.base + 4096) → step s = .fault .outsideWindow) ∧
    (s.cfg.base ≤ a.addr ∧ a.addr < s.cfg.base + 4096 → ¬ a.Defined s.cfg → ∃ r, step s = .refused r)

/-- R194, with the map of R21 to R38: a read of any aligned offset of the window gives the host the word the map defines
there, and changes nothing of the block. -/
def Obligations.ReadReturnsTheMappedWord : Prop :=
  ∀ (s : State) (off : Nat) (rest : List Access), off < 4096 → off % 4 = 0 →
    s.pending = wordAccess s.cfg off .read :: rest →
    step s = .next { s with pending := rest, returned := s.windowRead off :: s.returned } ∧
    (off = 0x000 → s.windowRead off = 0#32) ∧
    (off = 0x004 → (s.windowRead off).toNat = s.result.code.toNat + (if s.rxdone then 16 else 0) +
      (if s.rxovf then 32 else 0) + (if s.rxlate then 64 else 0) + (if s.txframe then 128 else 0)) ∧
    (off = 0x008 → s.windowRead off = s.acc) ∧ (off = 0x00C → s.windowRead off = s.acc ^^^ 0xFFFFFFFF#32) ∧
    (off = 0x010 → s.windowRead off = s.hexval) ∧ (off = 0x014 → s.windowRead off = s.hexstrHi) ∧
    (off = 0x018 → s.windowRead off = s.hexstrLo) ∧ (off = 0x01C → (s.windowRead off).toNat = s.ilen.toNat) ∧
    (off = 0x020 → (s.windowRead off).toNat = s.tlen.toNat) ∧
    (off = 0x024 → (s.windowRead off).toNat = s.bodyLen.toNat) ∧
    (off = 0x028 → (s.windowRead off).toNat = (if s.deverrValid then 256 else 0) + s.deverrCode.toNat) ∧
    (off = 0x02C → s.windowRead off = s.fcrc) ∧
    (off = 0x030 → s.cfg.BufSizeOk → (s.windowRead off).toNat = s.cfg.bufSize + 65536 * s.cfg.term.toNat) ∧
    (∀ k, off = 0x400 + 4 * k → k < 256 →
      s.windowRead off = if k < s.ilen.toNat then (s.ibuf.read k).setWidth 32 else 0#32) ∧
    (∀ k, off = 0x800 + 4 * k → k < 256 →
      s.windowRead off = if k < s.tlen.toNat then (s.tbuf.read k).setWidth 32 else 0#32) ∧
    ((0x034 ≤ off ∧ off ≤ 0x3FC) ∨ 0xC00 ≤ off → s.windowRead off = 0#32)

/-- R193: a write to HEXVAL, HEXSTR_HI or HEXSTR_LO stores the word and nothing else; a write to any other aligned offset
but CMD changes nothing. -/
def Obligations.PlainWriteStoresOrIsIgnored : Prop :=
  ∀ (s : State) (off : Nat) (v : Word) (rest : List Access), off < 4096 → off % 4 = 0 → off ≠ 0x000 →
    s.pending = wordAccess s.cfg off (.write v) :: rest →
    step s = .next
      { s with
        pending  := rest
        hexval   := if off = 0x010 then v else s.hexval
        hexstrHi := if off = 0x014 then v else s.hexstrHi
        hexstrLo := if off = 0x018 then v else s.hexstrLo }

/-- R64: reads have no side effects, so two reads of one offset with nothing between them return the same word, and the
second leaves the state of the first. -/
def Obligations.RepeatedReadReturnsTheSame : Prop :=
  ∀ (s : State) (off : Nat) (rest : List Access), off < 4096 → off % 4 = 0 →
    s.pending = wordAccess s.cfg off .read :: wordAccess s.cfg off .read :: rest →
    ∃ v, core.run 2 s = .next { s with pending := rest, returned := v :: v :: s.returned }

/-- R67: a read issued after a CMD write returns the state after that command. -/
def Obligations.ReadAfterCommandSeesItsEffect : Prop :=
  ∀ (s t : State) (w : Word) (off : Nat) (rest : List Access), off < 4096 → off % 4 = 0 →
    s.pending = cmdWrite s.cfg w :: wordAccess s.cfg off .read :: rest →
    step s = .next t →
    core.run 2 s = .next { t with pending := rest, returned := t.windowRead off :: s.returned }

/-! ### Control (spec/44_control.md) -/

/-- R190. -/
def Obligations.NopOnlyReportsOk : Prop :=
  encode .nop = 0x00000000#32 ∧ ∀ s : State, exec .nop s = .next { s with result := .ok }

/-- R191: RESET gives every register its reset value and RESULT OK; CONFIG and the host's side stay, and no byte of a
buffer can be read any more. -/
def Obligations.ResetCommandClearsRegisters : Prop :=
  encode .reset = 0x000000FF#32 ∧
  ∀ s : State, ∃ t, exec .reset s = .next t ∧
    t = { s with
          acc := 0xFFFFFFFF#32, hexval := 0#32, hexstrHi := 0#32, hexstrLo := 0#32, ilen := 0#9, tlen := 0#9,
          bodyLen := 0#9, deverrValid := false, deverrCode := 0#8, fcrc := 0#32, rxdone := false, rxovf := false,
          rxlate := false, txframe := false, result := .ok } ∧
    t.windowRead 0x00C = 0x00000000#32 ∧ t.windowRead 0x004 = 0x00000001#32 ∧
    ∀ k, k < 256 → t.windowRead (0x400 + 4 * k) = 0#32 ∧ t.windowRead (0x800 + 4 * k) = 0#32

/-- R43: the values after power-on reset as the host reads them, for any parameters and buffer contents; and what a
program can read after the RESET command is the same at every offset but STATUS, which then reads 1. -/
def Obligations.ResetReadsAsPowerOn : Prop :=
  (∀ (c : Config) (ib tb : Memory),
    (State.powerOn c ib tb).windowRead 0x004 = 0#32 ∧
    (State.powerOn c ib tb).windowRead 0x008 = 0xFFFFFFFF#32 ∧
    (State.powerOn c ib tb).windowRead 0x00C = 0#32 ∧
    (c.BufSizeOk → ((State.powerOn c ib tb).windowRead 0x030).toNat = c.bufSize + 65536 * c.term.toNat) ∧
    (∀ off, off % 4 = 0 → off < 4096 → off ≠ 0x004 → off ≠ 0x008 → off ≠ 0x00C → off ≠ 0x030 →
      (State.powerOn c ib tb).windowRead off = 0#32)) ∧
  (∀ (s t : State) (ib tb : Memory), exec .reset s = .next t →
    (∀ off, off ≠ 0x004 → t.windowRead off = (State.powerOn s.cfg ib tb).windowRead off) ∧
    t.windowRead 0x004 = 1#32)

/-! ### The hex codec (spec/40_hex_codec.md) -/

/-- R100, R101: the digit characters and their values. -/
def Obligations.DigitsAndTheirValues : Prop :=
  (∀ n : Nat, n ≤ 9 → (hexchar n).toNat = 0x30 + n) ∧ (∀ n : Nat, 10 ≤ n → n ≤ 15 → (hexchar n).toNat = 0x37 + n) ∧
  (∀ n : Nat, n ≤ 15 → hexdigit (hexchar n) = true ∧ hexval (hexchar n) = n) ∧
  (∀ c : Byte, hexdigit c = true ↔
    (0x30 ≤ c.toNat ∧ c.toNat ≤ 0x39) ∨ (0x41 ≤ c.toNat ∧ c.toNat ≤ 0x46)) ∧
  (∀ c : Byte, 0x30 ≤ c.toNat → c.toNat ≤ 0x39 → hexval c = c.toNat - 0x30) ∧
  (∀ c : Byte, 0x41 ≤ c.toNat → c.toNat ≤ 0x46 → hexval c = c.toNat - 0x37)

/-- R102: `encode_hex` fails exactly outside its contract, and otherwise gives `d` characters, character `i` the digit
of the nibble at position `d-1-i`. -/
def Obligations.EncodeHexGivesTheLowDigits : Prop :=
  ∀ (v : Word) (d : Nat),
    (encodeHex v d = none ↔ d < 1 ∨ 8 < d ∨ 2 ^ (8 * ((d + 1) / 2)) ≤ v.toNat) ∧
    (∀ r, encodeHex v d = some r →
      r.length = d ∧ ∀ i, i < d → r[i]? = some (hexchar ((v.toNat >>> (4 * (d - 1 - i))) % 16)))

/-- R103: `decode_hex` fails exactly on an empty or too long string or a byte that is no uppercase hex digit, and
otherwise gives the positional sum, which fits 32 bits. -/
def Obligations.DecodeHexIsThePositionalSum : Prop :=
  ∀ s : List Byte,
    (decodeHex s = none ↔ s.length < 1 ∨ 8 < s.length ∨ ∃ c ∈ s, hexdigit c = false) ∧
    (∀ v, decodeHex s = some v →
      v.toNat = ∑ i ∈ Finset.range s.length, hexval (s.getD i 0#8) * 16 ^ (s.length - 1 - i))

/-- R106: the round trips of the codec; and at the command level, HEX.ENC d, then any accesses that leave HEXVAL and HEXSTR
as HEX.ENC left them, then HEX.DEC d: both report OK, and HEXVAL is what it was. -/
def Obligations.HexCodecRoundTrips : Prop :=
  (∀ (d : Nat) (v : Word), 1 ≤ d → d ≤ 8 → v.toNat < 16 ^ d →
    ∃ r, encodeHex v d = some r ∧ decodeHex r = some v) ∧
  (∀ s : List Byte, 1 ≤ s.length → s.length ≤ 8 → (∀ c ∈ s, hexdigit c = true) →
    ∃ v, decodeHex s = some v ∧ encodeHex v s.length = some s) ∧
  (∀ (d : Byte) (s : State) (between : List Access), 1 ≤ d.toNat → d.toNat ≤ 8 → s.hexval.toNat < 16 ^ d.toNat →
    s.pending = cmdWrite s.cfg (encode (.hexEnc d)) :: between →
    ∃ t, step s = .next t ∧ t.result = .ok ∧
      ∀ (n : Nat) (u : State) (rest : List Access), core.run n t = .next u →
        u.hexval = t.hexval → u.hexstrHi = t.hexstrHi → u.hexstrLo = t.hexstrLo →
        u.pending = cmdWrite u.cfg (encode (.hexDec d)) :: rest →
        ∃ v, step u = .next v ∧ v.result = .ok ∧ v.hexval = s.hexval)

/-- R107: for odd `d` a value one nibble too wide is encoded without failure by its low `d` digits: the characters of its
encoding with one digit more, without the leading one, which is not '0'. So decoding gives `v mod 16^d`, which is not
`v`. -/
def Obligations.OddDigitCountDropsALeadingDigit : Prop :=
  (∀ (d : Nat) (v : Word), d % 2 = 1 → d ≤ 8 → 16 ^ d ≤ v.toNat → v.toNat < 2 ^ (8 * ((d + 1) / 2)) →
    ∃ r u, encodeHex v d = some r ∧ r.length = d ∧
      (∀ i, i < d → r[i]? = some (hexchar ((v.toNat >>> (4 * (d - 1 - i))) % 16))) ∧
      (∃ c, c ≠ 0x30#8 ∧ encodeHex v (d + 1) = some (c :: r)) ∧
      decodeHex r = some u ∧ u.toNat = v.toNat % 16 ^ d ∧ u ≠ v) ∧
  encodeHex 0x1FAB#32 3 = some [0x46#8, 0x41#8, 0x42#8]

/-- R104: HEX.ENC. PRECOND exactly outside the contract, with nothing else changed; otherwise HS[0..A-1] is the encoding
and HS[A..7] is zero. The character HS[i] is HEXSTR_HI[31-8i:24-8i] for i up to 3, and HS[4+i] the same bits of HEXSTR_LO
(R29). -/
def Obligations.HexEncWritesTheDigits : Prop :=
  (∀ s : State, s.hs.length = 8 ∧ ∀ i, i < 4 →
    s.hs[i]? = some (s.hexstrHi.extractLsb' (24 - 8 * i) 8) ∧
    s.hs[4 + i]? = some (s.hexstrLo.extractLsb' (24 - 8 * i) 8)) ∧
  ∀ (d : Byte) (s : State),
    encode (.hexEnc d) = 0x00000010#32 ||| (d.setWidth 32 <<< 8) ∧
    (d.toNat = 0 ∨ 8 < d.toNat ∨ 2 ^ (8 * ((d.toNat + 1) / 2)) ≤ s.hexval.toNat →
      exec (.hexEnc d) s = .next { s with result := .precond }) ∧
    (1 ≤ d.toNat → d.toNat ≤ 8 → s.hexval.toNat < 2 ^ (8 * ((d.toNat + 1) / 2)) →
      ∃ t r, exec (.hexEnc d) s = .next t ∧ encodeHex s.hexval d.toNat = some r ∧
        t.hs = r ++ List.replicate (8 - d.toNat) 0#8 ∧
        t = { s with hexstrHi := t.hexstrHi, hexstrLo := t.hexstrLo, result := .ok })

/-- R105: HEX.DEC. PRECOND exactly outside the contract, with nothing else changed; otherwise HEXVAL is the decoding of
HS[0..A-1], whatever HS[A..7] hold. -/
def Obligations.HexDecReadsTheDigits : Prop :=
  ∀ (n : Byte) (s : State),
    encode (.hexDec n) = 0x00000011#32 ||| (n.setWidth 32 <<< 8) ∧
    (n.toNat = 0 ∨ 8 < n.toNat ∨ (∃ c ∈ s.hs.take n.toNat, hexdigit c = false) →
      exec (.hexDec n) s = .next { s with result := .precond }) ∧
    (1 ≤ n.toNat → n.toNat ≤ 8 → (∀ c ∈ s.hs.take n.toNat, hexdigit c = true) →
      ∃ v, decodeHex (s.hs.take n.toNat) = some v ∧
        exec (.hexDec n) s = .next { s with hexval := v, result := .ok })

/-! ### The CRC engine (spec/41_crc.md) -/

/-- R125. -/
def Obligations.CrcInitStartsAStream : Prop :=
  encode .crcInit = 0x00000001#32 ∧
  ∀ s : State, ∃ t, exec .crcInit s = .next t ∧ t = { s with acc := 0xFFFFFFFF#32, result := .ok } ∧
    t.windowRead 0x008 = 0xFFFFFFFF#32 ∧ t.windowRead 0x00C = 0#32 ∧ exec .crcInit t = .next t

/-- R126, with the corner cases' values. -/
def Obligations.CrcByteFeedsTheStream : Prop :=
  (∀ (b : Byte) (s : State),
    encode (.crcByte b) = 0x00000002#32 ||| (b.setWidth 32 <<< 8) ∧
    exec (.crcByte b) s = .next { s with acc := crcStep s.acc b, result := .ok }) ∧
  crcStep 0xFFFFFFFF#32 0x00#8 = 0x2DFD1072#32 ∧ crcStep 0xFFFFFFFF#32 0xFF#8 = 0x00FFFFFF#32 ∧
  crcStep 0#32 0x00#8 = 0#32 ∧ crcStep 0xFFFFFFFF#32 0x31#8 = 0x7C231048#32

/-- R127: CRC.HEX writes the finished CRC to HEXVAL and its eight digits to HS, and leaves ACC. -/
def Obligations.CrcHexRendersTheStream : Prop :=
  encode .crcHex = 0x00000003#32 ∧
  ∀ s : State, ∃ t, exec .crcHex s = .next t ∧ t.hs = hex8 (s.acc ^^^ 0xFFFFFFFF#32) ∧
    t = { s with
          hexval := s.acc ^^^ 0xFFFFFFFF#32, hexstrHi := t.hexstrHi, hexstrLo := t.hexstrLo, result := .ok }

/-- R122: `hex8(v)` is `encode_hex(v, 8)`, which never fails. -/
def Obligations.Hex8IsEncodeHexOfEight : Prop :=
  ∀ v : Word, encodeHex v 8 = some (hex8 v)

/-- R124: a string of 8 uppercase hex digits is the checksum exactly when it decodes to the CRC; a string with any other
byte never is, and a frame with such a checksum field is rejected before the comparison. -/
def Obligations.ChecksumEqualsItsDecodedCrc : Prop :=
  ∀ s r : List Byte,
    (r.length = 8 → (∀ c ∈ r, hexdigit c = true) → (checksum s = r ↔ decodeHex r = some (crc32 s))) ∧
    ((∃ c ∈ r, hexdigit c = false) → checksum s ≠ r ∧
      ∀ (c : Config) (f : List Byte), (f.drop (f.length - 9)).take 8 = r → parseFrame c f = (.malformed, none))

/-- R129: changing one byte of a sequence, in one bit or in several, changes its checksum. -/
def Obligations.ByteMutationChangesChecksum : Prop :=
  ∀ (pre post : List Byte) (b b' : Byte), b ≠ b' → checksum (pre ++ [b] ++ post) ≠ checksum (pre ++ [b'] ++ post)

/-- R128: after CRC.INIT and any commands among which there is no CRC.INIT and no RESET, CRC_OUT is `crc32` of the bytes
that the CRC.BYTE commands fed, in their order; and from any state CRC.INIT, one CRC.BYTE a byte and CRC.HEX leave
`crc32` of the bytes in CRC_OUT and HEXVAL and their checksum in HS, and change nothing else but RESULT. Each command is
served by one step. -/
def Obligations.CrcStreamComputesCrc32 : Prop :=
  (∀ (s : State) (is : List Instr) (rest : List Access), (∀ i ∈ is, i ≠ .crcInit ∧ i ≠ .reset) →
    s.pending = commandWrites s.cfg (.crcInit :: is) ++ rest →
    ∃ t : State, core.run (is.length + 1) s = .next t ∧ t.pending = rest ∧
      t.windowRead 0x00C = crc32 (is.filterMap fedByte)) ∧
  ∀ (s : State) (bs : List Byte) (rest : List Access), s.pending = lineAccesses s.cfg (.crcOf bs) ++ rest →
    ∃ t : State, core.run (bs.length + 2) s = .next t ∧
      t.windowRead 0x00C = crc32 bs ∧ t.windowRead 0x010 = crc32 bs ∧ t.hs = checksum bs ∧
      t = { s with
            pending := rest, acc := t.acc, hexval := t.hexval, hexstrHi := t.hexstrHi, hexstrLo := t.hexstrLo,
            result := .ok }

/-- R26: no command but CRC.INIT, CRC.BYTE and RESET writes ACC, and none but CRC.BYTE and CRC.HEX reads it: another ACC
changes nothing else of what the others do, and nothing at all of what CRC.INIT and RESET do. -/
def Obligations.AccIsTheStreamsAlone : Prop :=
  (∀ (i : Instr) (s t : State) (a : Word), exec i s = .next t →
    i ≠ .crcInit → (∀ b, i ≠ .crcByte b) → i ≠ .reset →
    t.acc = s.acc ∧ (i ≠ .crcHex → exec i { s with acc := a } = .next { t with acc := a })) ∧
  (∀ (s : State) (a : Word), exec .crcInit { s with acc := a } = exec .crcInit s ∧
    exec .reset { s with acc := a } = exec .reset s)

/-! ### The frame encoder (spec/42_frame_build.md) -/

/-- R145: `build_frame` succeeds for every command id up to 99, and the layout of the frame it builds; its fourth byte is
'R' (0x52) for Read and 'W' (0x57) for Write (R82, R140). -/
def Obligations.BuiltFrameLayout : Prop :=
  (∀ (term : Byte) (cid : Nat) (dir : Direction) (p : List Byte), cid ≤ 99 → ∃ f, buildFrame term cid dir p = some f) ∧
  ∀ (term : Byte) (cid : Nat) (dir : Direction) (p f : List Byte), buildFrame term cid dir p = some f →
    cid ≤ 99 ∧ f.length = p.length + 16 ∧ f.take 3 = [0x58#8, 0x54#8, 0x2B#8] ∧
    f[3]? = some (if dir = .read then 0x52#8 else 0x57#8) ∧
    (∃ d1 d0, f[4]? = some d1 ∧ f[5]? = some d0 ∧ (0x30#8 ≤ d1 ∧ d1 ≤ 0x39#8) ∧ (0x30#8 ≤ d0 ∧ d0 ≤ 0x39#8) ∧
      (d1.toNat - 0x30) * 10 + (d0.toNat - 0x30) = cid) ∧
    (f.take (f.length - 10)).drop 6 = p ∧ f[f.length - 10]? = some 0x20#8 ∧
    (f.drop (f.length - 9)).take 8 = checksum (f.take (f.length - 10)) ∧ f[f.length - 1]? = some term

/-- R142. -/
def Obligations.TxClearEmptiesTransmitBuffer : Prop :=
  encode .txClear = 0x00000030#32 ∧
  ∀ s : State, ∃ t, exec .txClear s = .next t ∧ t = { s with tlen := 0#9, txframe := false, result := .ok } ∧
    exec .txClear t = .next t ∧ ∀ k, k < 256 → t.windowRead (0x800 + 4 * k) = 0#32

/-- R143: TX.PUSH is refused with PRECOND while a frame is held or the buffer is full, and otherwise stores its byte at
index TLEN and no other. -/
def Obligations.TxPushAppendsOneByte : Prop :=
  ∀ (b : Byte) (s : State),
    encode (.txPush b) = 0x00000031#32 ||| (b.setWidth 32 <<< 8) ∧
    (s.txframe = true ∨ s.tlen.toNat = s.cfg.bufSize → exec (.txPush b) s = .next { s with result := .precond }) ∧
    (s.txframe = false → s.tlen.toNat ≠ s.cfg.bufSize →
      ∃ t, exec (.txPush b) s = .next t ∧
        t = { s with tbuf := t.tbuf, tlen := s.tlen + 1#9, result := .ok } ∧
        ∀ k, t.tbuf.read k = if k = s.tlen.toNat then b else s.tbuf.read k)

/-- R144: FRAME.BUILD is refused with PRECOND, changing nothing else, while a frame is held, for an id of 100 or more, or
when the frame would not fit; otherwise it leaves the frame in TBUF, its length in TLEN and the CRC of its covered span
in FCRC, and every byte of TBUF beyond the frame as it was. -/
def Obligations.FrameBuildLeavesTheFrame : Prop :=
  ∀ (cid : Byte) (dir : Direction) (s : State), s.cfg.BufSizeOk →
    encode (.frameBuild cid dir) = 0x00000032#32 ||| (cid.setWidth 32 <<< 8) ||| (dir.bit.setWidth 32 <<< 16) ∧
    (s.txframe = true ∨ 99 < cid.toNat ∨ s.cfg.bufSize < s.tlen.toNat + 16 →
      exec (.frameBuild cid dir) s = .next { s with result := .precond }) ∧
    (s.txframe = false → cid.toNat ≤ 99 → s.tlen.toNat + 16 ≤ s.cfg.bufSize →
      ∃ t f, exec (.frameBuild cid dir) s = .next t ∧
        buildFrame s.cfg.term cid.toNat dir (s.tbuf.span 0 s.tlen.toNat) = some f ∧
        t.tlen.toNat = s.tlen.toNat + 16 ∧ t.tbuf.span 0 t.tlen.toNat = f ∧
        (∀ k, s.tlen.toNat + 16 ≤ k → t.tbuf.read k = s.tbuf.read k) ∧
        t = { s with
              tbuf := t.tbuf, tlen := t.tlen, fcrc := crc32 (f.take (s.tlen.toNat + 6)), txframe := true,
              result := .ok })

/-- R141, R142 to R144: from any state, TX.CLEAR, one TX.PUSH a parameter byte and FRAME.BUILD, served one access a step,
leave exactly `build_frame` in the transmit buffer; ACC, HEXVAL, HEXSTR and the receive side are untouched. -/
def Obligations.RequestProgramBuildsTheFrame : Prop :=
  ∀ (s : State) (cid : Byte) (dir : Direction) (p : List Byte) (rest : List Access),
    s.cfg.BufSizeOk → cid.toNat ≤ 99 → p.length + 16 ≤ s.cfg.bufSize →
    s.pending = programAccesses s.cfg [.command .txClear, .txPushs p, .command (.frameBuild cid dir)] ++ rest →
    ∃ (t : State) (f : List Byte), core.run (p.length + 2) s = .next t ∧
      buildFrame s.cfg.term cid.toNat dir p = some f ∧ t.outgoing = f ∧ t.fcrc = crc32 (f.take (p.length + 6)) ∧
      t = { s with
            pending := rest, tbuf := t.tbuf, tlen := BitVec.ofNat 9 (p.length + 16), fcrc := t.fcrc, txframe := true,
            result := .ok }

/-! ### The frame decoder (spec/43_frame_parse.md) -/

/-- R161, R162, R164: the decoder's three steps in their order, each stated on the bytes of the input. -/
def Obligations.ParseFrameStepsInOrder : Prop :=
  ∀ (c : Config) (f : List Byte) (matched : Prop),
    (matched ↔ 13 ≤ f.length ∧ f[f.length - 1]? = some c.term ∧
      (f.take 2 = [0x4F#8, 0x4B#8] ∨ f.take 2 = [0x45#8, 0x52#8]) ∧ f[2]? = some 0x2B#8 ∧
      f[f.length - 10]? = some 0x20#8 ∧
      ∀ i, f.length - 9 ≤ i → i ≤ f.length - 2 → ∃ x, f[i]? = some x ∧ hexdigit x = true) →
    (¬ matched → parseFrame c f = (.malformed, none)) ∧
    (matched →
      let crc := crc32 (f.take (f.length - 10))
      let body := (f.take (f.length - 10)).drop 3
      (hex8 crc ≠ (f.drop (f.length - 9)).take 8 → parseFrame c f = (.integrity, some crc)) ∧
      (hex8 crc = (f.drop (f.length - 9)).take 8 →
        (f.take 2 = [0x4F#8, 0x4B#8] → parseFrame c f = (.ok (f.length - 13), some crc)) ∧
        (f.take 2 = [0x45#8, 0x52#8] →
          (∀ x1 x0, body = [x1, x0] → hexdigit x1 = true → hexdigit x0 = true →
            BitVec.ofNat 8 (16 * hexval x1 + hexval x0) ∈ c.codes.codes →
            parseFrame c f = (.deverr (BitVec.ofNat 8 (16 * hexval x1 + hexval x0)), some crc)) ∧
          ((¬ ∃ x1 x0, body = [x1, x0] ∧ hexdigit x1 = true ∧ hexdigit x0 = true ∧
              BitVec.ofNat 8 (16 * hexval x1 + hexval x0) ∈ c.codes.codes) →
            parseFrame c f = (.malformed, some crc)))))

/-- R169: on matched input the first '+' is byte 2 and the last space is byte L-10. -/
def Obligations.MatchedFrameHasOneSplit : Prop :=
  ∀ (c : Config) (f : List Byte), c.TermOk → matchFrame c.term f = true →
    f.idxOf 0x2B#8 = 2 ∧ f[f.length - 10]? = some 0x20#8 ∧ ∀ i, f.length - 10 < i → f[i]? ≠ some 0x20#8

/-- R165. -/
def Obligations.RxClearEmptiesReceiveBuffer : Prop :=
  encode .rxClear = 0x00000020#32 ∧
  ∀ s : State, ∃ t, exec .rxClear s = .next t ∧
    t = { s with
          ilen := 0#9, rxdone := false, rxovf := false, rxlate := false, bodyLen := 0#9, deverrValid := false,
          deverrCode := 0#8, result := .ok } ∧
    exec .rxClear t = .next t ∧ ∀ k, k < 256 → t.windowRead (0x400 + 4 * k) = 0#32

/-- R166: RX.PUSH drops its byte while a terminator is held (RXLATE) or else while the buffer is full (RXOVF), and
otherwise stores it at index ILEN and no other; TERM sets RXDONE. -/
def Obligations.RxPushStoresOrDrops : Prop :=
  ∀ (b : Byte) (s : State),
    encode (.rxPush b) = 0x00000021#32 ||| (b.setWidth 32 <<< 8) ∧
    (s.rxdone = true → exec (.rxPush b) s = .next { s with rxlate := true, result := .dropped }) ∧
    (s.rxdone = false → s.ilen.toNat = s.cfg.bufSize →
      exec (.rxPush b) s = .next { s with rxovf := true, result := .dropped }) ∧
    (s.rxdone = false → s.ilen.toNat ≠ s.cfg.bufSize →
      ∃ t, exec (.rxPush b) s = .next t ∧
        t = { s with ibuf := t.ibuf, ilen := s.ilen + 1#9, rxdone := decide (b = s.cfg.term), result := .ok } ∧
        ∀ k, t.ibuf.read k = if k = s.ilen.toNat then b else s.ibuf.read k)

/-- R167. -/
def Obligations.RxAbortReportsTimeout : Prop :=
  encode .rxAbort = 0x00000022#32 ∧
  ∀ s : State, exec .rxAbort s = .next
    { s with
      ilen := 0#9, rxdone := false, rxovf := false, rxlate := false, bodyLen := 0#9, deverrValid := false,
      deverrCode := 0#8, result := .timeout }

/-- R168: FRAME.PARSE by the case of `parse_frame` on the valid bytes of IBUF. -/
def Obligations.FrameParseRecordsTheResult : Prop :=
  encode .frameParse = 0x00000023#32 ∧
  ∀ (s : State) (r : ParseResult) (o : Option Word),
    parseFrame s.cfg (s.ibuf.span 0 s.ilen.toNat) = (r, o) →
    (∀ n, r = .ok n → exec .frameParse s = .next
      { s with
        fcrc := o.getD s.fcrc, bodyLen := BitVec.ofNat 9 n, deverrValid := false, deverrCode := 0#8,
        result := .ok }) ∧
    (∀ code, r = .deverr code → exec .frameParse s = .next
      { s with
        fcrc := o.getD s.fcrc, bodyLen := 2#9, deverrValid := true, deverrCode := code, result := .deverr }) ∧
    (r = .malformed ∨ r = .integrity → exec .frameParse s = .next
      { s with
        fcrc := o.getD s.fcrc, ilen := 0#9, rxdone := false, rxovf := false, rxlate := false, bodyLen := 0#9,
        deverrValid := false, deverrCode := 0#8,
        result := if r = .malformed then .malformed else .integrity })

/-- R168, C7: after a parse that failed, no byte of the frame and no body length or code can be read. -/
def Obligations.FailedParseLeavesNothingReadable : Prop :=
  ∀ s t : State, exec .frameParse s = .next t → t.result = .malformed ∨ t.result = .integrity →
    (∀ k, k < 256 → t.windowRead (0x400 + 4 * k) = 0#32) ∧ t.windowRead 0x01C = 0#32 ∧ t.windowRead 0x024 = 0#32 ∧
    t.windowRead 0x028 = 0#32

/-- R168: a parse that gave OK or DEVERR can be repeated with the same result and no further change. -/
def Obligations.SuccessfulParseIsRepeatable : Prop :=
  ∀ s t : State, exec .frameParse s = .next t → t.result = .ok ∨ t.result = .deverr →
    exec .frameParse t = .next t

/-- R171: a response pushed after RX.CLEAR, one access a step, and then parsed: OK with its body readable for "OK",
DEVERR for "ER" with a known code, MALFORMED for any other "ER" body, and INTEGRITY when a checksum digit is changed to
another uppercase hex digit. -/
def Obligations.ResponseProgramParses : Prop :=
  ∀ (s : State) (isOk : Bool) (body sum : List Byte) (rest : List Access) (covered : List Byte),
    s.cfg.Valid → (∀ c ∈ body, c ≠ s.cfg.term) → body.length + 13 ≤ s.cfg.bufSize →
    covered = (if isOk then [0x4F#8, 0x4B#8] else [0x45#8, 0x52#8]) ++ [0x2B#8] ++ body →
    sum.length = 8 → (∀ c ∈ sum, hexdigit c = true) →
    s.pending = programAccesses s.cfg
      [.command .rxClear, .rxPushs (covered ++ [0x20#8] ++ sum ++ [s.cfg.term]), .command .frameParse] ++ rest →
    ∃ t : State, core.run (body.length + 15) s = .next t ∧ t.pending = rest ∧
      (sum ≠ checksum covered → t.result = .integrity ∧ t.ilen = 0#9) ∧
      (sum = checksum covered → isOk = true → t.result = .ok ∧ t.bodyLen.toNat = body.length ∧
        t.ibuf.span 3 body.length = body) ∧
      (sum = checksum covered → isOk = false →
        (∀ c ∈ s.cfg.codes.codes, encodeHex (c.setWidth 32) 2 = some body →
          t.result = .deverr ∧ t.deverrValid = true ∧ t.deverrCode = c) ∧
        ((∀ c ∈ s.cfg.codes.codes, encodeHex (c.setWidth 32) 2 ≠ some body) → t.result = .malformed))

/-- R172: TIMEOUT comes from RX.ABORT and from it alone, MALFORMED and INTEGRITY from FRAME.PARSE alone, and in a state
that meets the invariants a FRAME.PARSE without a held terminator gives MALFORMED. A host that follows the exchange of R223
reads TIMEOUT when the deadline passes with no terminator taken (R233). -/
def Obligations.FailuresAreToldApart : Prop :=
  (∀ (i : Instr) (s t : State), exec i s = .next t →
    (t.result = .timeout ↔ i = .rxAbort) ∧ (t.result = .malformed ∨ t.result = .integrity → i = .frameParse)) ∧
  (∀ s t : State, s.R42 → s.rxdone = false → exec .frameParse s = .next t → t.result = .malformed) ∧
  (∀ (s : State) (arrived : List Byte) (rest : List Access), s.cfg.term ∉ arrived.take s.cfg.bufSize →
    s.pending = programAccesses s.cfg (responseProgram s.cfg arrived) ++ rest →
    ∃ (t : State) (status : Word), core.run (2 * arrived.length + 4) s = .next t ∧ t.pending = rest ∧
      t.returned.head? = some status ∧ status.extractLsb' 0 4 = 5#4 ∧ t.ilen = 0#9 ∧ t.bodyLen = 0#9)

/-! ### Results, flags and registers over all commands (spec/10_state.md, spec/60_exceptions.md) -/

/-- R200: every command, in every state, ends normally with a next state. -/
def Obligations.EveryCommandEndsNormally : Prop :=
  ∀ (i : Instr) (s : State), ∃ t, exec i s = .next t ∧ t.result ≠ .none ∧ t.cfg = s.cfg ∧ t.pending = s.pending ∧
    t.returned = s.returned

/-- R201: which command raises each failure result, and what the result records. -/
def Obligations.FailureResultsAndTheirRecords : Prop :=
  ∀ (i : Instr) (s t : State), exec i s = .next t →
    (t.result = .deverr → i = .frameParse ∧ t.deverrValid = true ∧ knownCode s.cfg.codes t.deverrCode = true ∧
      t.bodyLen = 2#9 ∧ t.fcrc = crc32 (coveredSpan s.received)) ∧
    (t.result = .malformed → i = .frameParse ∧ t.ilen = 0#9 ∧
      (matchFrame s.cfg.term s.received = true → t.fcrc = crc32 (coveredSpan s.received))) ∧
    (t.result = .integrity → i = .frameParse ∧ t.ilen = 0#9 ∧ t.fcrc = crc32 (coveredSpan s.received)) ∧
    (t.result = .timeout → i = .rxAbort ∧ t.ilen = 0#9) ∧
    (t.result = .precond →
      ((∃ d, i = .hexEnc d) ∨ (∃ n, i = .hexDec n) ∨ (∃ b, i = .txPush b) ∨ ∃ cid dir, i = .frameBuild cid dir) ∧
      t = { s with result := .precond }) ∧
    t.result ≠ .badcmd ∧
    (t.result = .dropped → (∃ b, i = .rxPush b) ∧ (t.rxlate = true ∨ t.rxovf = true) ∧ t.ibuf = s.ibuf ∧
      t.ilen = s.ilen)

/-- R25: the values of RESULT; it is 0 after reset; every command writes it, whatever it held, with one of the values 1 to
8; an access that is not a write to CMD never changes it. -/
def Obligations.ResultDescribesTheLastCommand : Prop :=
  (Result.none.code = 0#4 ∧ Result.ok.code = 1#4 ∧ Result.deverr.code = 2#4 ∧ Result.malformed.code = 3#4 ∧
    Result.integrity.code = 4#4 ∧ Result.timeout.code = 5#4 ∧ Result.precond.code = 6#4 ∧ Result.badcmd.code = 7#4 ∧
    Result.dropped.code = 8#4) ∧
  (∀ (c : Config) (ib tb : Memory), (State.powerOn c ib tb).result = .none) ∧
  (∀ (i : Instr) (s : State) (r : Result), exec i { s with result := r } = exec i s) ∧
  (∀ (i : Instr) (s t : State), exec i s = .next t → 1 ≤ t.result.code.toNat ∧ t.result.code.toNat ≤ 8) ∧
  (∀ (s t : State) (a : Access) (rest : List Access), s.pending = a :: rest → (∀ w, a ≠ cmdWrite s.cfg w) →
    step s = .next t → t.result = s.result)

/-- R24: the fields of STATUS as read, and which commands set and clear each flag. -/
def Obligations.StatusFieldsAndTheirWriters : Prop :=
  (∀ s : State,
    (s.windowRead 0x004).extractLsb' 0 4 = s.result.code ∧ (s.windowRead 0x004).getLsbD 4 = s.rxdone ∧
    (s.windowRead 0x004).getLsbD 5 = s.rxovf ∧ (s.windowRead 0x004).getLsbD 6 = s.rxlate ∧
    (s.windowRead 0x004).getLsbD 7 = s.txframe ∧ (s.windowRead 0x004).extractLsb' 8 24 = 0#24) ∧
  (∀ (i : Instr) (s t : State), exec i s = .next t →
    (s.rxdone = false → t.rxdone = true → i = .rxPush s.cfg.term) ∧
    (s.rxovf = false → t.rxovf = true → ∃ b, i = .rxPush b) ∧
    (s.rxlate = false → t.rxlate = true → ∃ b, i = .rxPush b) ∧
    (s.txframe = false → t.txframe = true → ∃ cid dir, i = .frameBuild cid dir) ∧
    ((s.rxdone = true ∧ t.rxdone = false) ∨ (s.rxovf = true ∧ t.rxovf = false) ∨
        (s.rxlate = true ∧ t.rxlate = false) →
      i = .rxClear ∨ i = .rxAbort ∨ i = .reset ∨
        i = .frameParse ∧ (t.result = .malformed ∨ t.result = .integrity)) ∧
    (s.txframe = true → t.txframe = false → i = .txClear ∨ i = .reset))

/-- R30 to R34: which commands can change the length registers, DEVERR and FCRC. -/
def Obligations.LengthAndParseRegisterWriters : Prop :=
  ∀ (i : Instr) (s t : State), exec i s = .next t →
    (t.ilen ≠ s.ilen → (∃ b, i = .rxPush b) ∨ i = .rxClear ∨ i = .rxAbort ∨ i = .reset ∨
      i = .frameParse ∧ (t.result = .malformed ∨ t.result = .integrity)) ∧
    (t.tlen ≠ s.tlen → (∃ b, i = .txPush b) ∨ i = .txClear ∨ i = .reset ∨ ∃ cid dir, i = .frameBuild cid dir) ∧
    (t.bodyLen ≠ s.bodyLen ∨ t.deverrValid ≠ s.deverrValid ∨ t.deverrCode ≠ s.deverrCode →
      i = .frameParse ∨ i = .rxClear ∨ i = .rxAbort ∨ i = .reset) ∧
    (t.fcrc ≠ s.fcrc → i = .reset ∨ (∃ cid dir, i = .frameBuild cid dir) ∨
      i = .frameParse ∧ matchFrame s.cfg.term s.received = true)

/-- R28, R29, R232: which commands can change the codec's registers; FRAME.BUILD and FRAME.PARSE touch neither these nor
ACC. -/
def Obligations.CodecRegisterWriters : Prop :=
  ∀ (i : Instr) (s t : State), exec i s = .next t →
    (t.hexval ≠ s.hexval → i = .crcHex ∨ i = .reset ∨ ∃ n, i = .hexDec n) ∧
    (t.hexstrHi ≠ s.hexstrHi ∨ t.hexstrLo ≠ s.hexstrLo → i = .crcHex ∨ i = .reset ∨ ∃ d, i = .hexEnc d)

/-- R37, R38: the windows show the valid bytes and 0 elsewhere, also beyond BUF_SIZE; only RX.PUSH stores into IBUF, at
index ILEN, and only TX.PUSH and FRAME.BUILD into TBUF. -/
def Obligations.BufferWindowsAndTheirWriters : Prop :=
  (∀ (s : State) (k : Nat), k < 256 →
    (s.windowRead (0x400 + 4 * k) = if k < s.ilen.toNat then (s.ibuf.read k).setWidth 32 else 0#32) ∧
    (s.windowRead (0x800 + 4 * k) = if k < s.tlen.toNat then (s.tbuf.read k).setWidth 32 else 0#32) ∧
    (s.R42 → s.cfg.bufSize ≤ k → s.windowRead (0x400 + 4 * k) = 0#32 ∧ s.windowRead (0x800 + 4 * k) = 0#32)) ∧
  (∀ (i : Instr) (s t : State) (k : Nat), exec i s = .next t →
    (t.ibuf.read k ≠ s.ibuf.read k → k = s.ilen.toNat ∧ i = .rxPush (t.ibuf.read k)) ∧
    (t.tbuf.read k ≠ s.tbuf.read k →
      (k = s.tlen.toNat ∧ i = .txPush (t.tbuf.read k)) ∨
        (k < s.tlen.toNat + 16 ∧ ∃ cid dir, i = .frameBuild cid dir)))

/-- R35: no step changes the parameters, and CONFIG reads them at their bits and 0 elsewhere. -/
def Obligations.ConfigIsConstantAndReadable : Prop :=
  (∀ s t : State, step s = .next t → t.cfg = s.cfg) ∧
  (∀ s : State, s.cfg.BufSizeOk →
    ((s.windowRead 0x030).extractLsb' 0 9).toNat = s.cfg.bufSize ∧ (s.windowRead 0x030).extractLsb' 9 7 = 0#7 ∧
    (s.windowRead 0x030).extractLsb' 16 8 = s.cfg.term ∧ (s.windowRead 0x030).extractLsb' 24 8 = 0#8)

/-! ### Buffers as memories -/

/-- R37, R38 (log 5): storing a sequence gives its bytes at its indices and leaves every other byte, keeps the canonical
form, and canonical memories that read alike are equal. -/
def Obligations.BufferStoreLaws : Prop :=
  (∀ (m : Memory) (i j : Nat) (bs : List Byte),
    (∀ h : i ≤ j ∧ j < i + bs.length, (m.store i bs).read j = bs[j - i]'(by omega)) ∧
    (¬ (i ≤ j ∧ j < i + bs.length) → (m.store i bs).read j = m.read j)) ∧
  (∀ (m : Memory) (i : Nat) (bs : List Byte), m.wf → (m.store i bs).wf) ∧
  (∀ m n : Memory, m.wf → n.wf → (∀ k, m.read k = n.read k) → m = n)

/-! ### Invariants, observability, hazards -/

/-- The inductive invariant holds after power-on, for every admissible choice of the parameters and buffer contents. -/
def Obligations.InvariantHoldsAtPowerOn : Prop :=
  (∀ (c : Config) (ib tb : Memory), c.Valid → ib.wf → tb.wf → (∀ x ∈ ib, x.1 < c.bufSize) →
    (∀ x ∈ tb, x.1 < c.bufSize) → (State.powerOn c ib tb).Inv) ∧
  State.reset.Inv

/-- From every state that meets the invariant, a step gives a state that meets it. -/
def Obligations.InvariantKeptByEveryStep : Prop :=
  ∀ s t : State, s.Inv → step s = .next t → t.Inv

/-- R42: its points hold in every state reachable from power-on reset under any host program. -/
def Obligations.ReachableStatesMeetR42 : Prop :=
  ∀ (c : Config) (ib tb : Memory) (program : List Access) (n : Nat) (t : State), c.Valid → ib.wf → tb.wf →
    (∀ x ∈ ib, x.1 < c.bufSize) → (∀ x ∈ tb, x.1 < c.bufSize) →
    core.run n { State.powerOn c ib tb with pending := program } = .next t → t.R42

/-- R41: bytes of IBUF and TBUF beyond the valid lengths are never observable. States that differ only there read alike
at every offset, and stay so, step by step, with the same words returned to the host. -/
def Obligations.UnusedBytesAreUnobservable : Prop :=
  ∀ s t : State, s.Looks t → (∀ off, t.windowRead off = s.windowRead off) ∧ LooksOutcome (step s) (step t)

/-- R226, R227, R167 (log 10): a command free of hazards fails only on the operation's own contract. R229: the exchange of
R223 reads STATUS after every command that may fail, whatever its parameters and whatever arrives; a program that ends on
such a command does not. -/
def Obligations.HazardFreeCommandsFailOnlyByContract : Prop :=
  (∀ (c : Config) (cid : Byte) (dir : Direction) (params arrived : List Byte),
    readsResults c false (programAccesses c (exchangeProgram c cid dir params arrived)) = true) ∧
  (∀ (c : Config) (p : List Access) (i : Instr), mustReadResult i = true →
    readsResults c false (p ++ [cmdWrite c (encode i)]) = false) ∧
  ∀ (i : Instr) (s t : State), s.hazards i = [] → exec i s = .next t →
    (t.rxlate = s.rxlate ∨ i = .rxClear ∨ i = .rxAbort ∨ i = .frameParse ∨ i = .reset) ∧
    (t.result = .dropped → s.ilen.toNat = s.cfg.bufSize) ∧
    (∀ b, i = .txPush b → t.result = .precond → s.tlen.toNat = s.cfg.bufSize) ∧
    (∀ cid dir, i = .frameBuild cid dir → t.result = .precond →
      99 < cid.toNat ∨ s.cfg.bufSize < s.tlen.toNat + 16) ∧
    (i = .rxAbort → s.rxdone = false) ∧
    (i = .frameParse → s.R42 → ∃ k, k < s.ilen.toNat ∧ s.ibuf.read k = s.cfg.term)

/-- R231: the OK body and the DEVERR code stay readable across every command but RX.CLEAR, RX.ABORT, FRAME.PARSE and
RESET. -/
def Obligations.BodyStaysReadable : Prop :=
  ∀ (i : Instr) (s t : State), s.Inv → exec i s = .next t →
    i ≠ .rxClear → i ≠ .rxAbort → i ≠ .frameParse → i ≠ .reset →
    t.windowRead 0x024 = s.windowRead 0x024 ∧ t.windowRead 0x028 = s.windowRead 0x028 ∧
    ∀ j, j < s.bodyLen.toNat → t.windowRead (0x40C + 4 * j) = s.windowRead (0x40C + 4 * j)
end

