-- ==== Sys2Proof/Laws/Encoding.lean ====
section
/-! SUPPORT. The laws of the encoding (spec/30_encoding.md): the fields of a word put together from fields, a word from
its fields, the opcode map read both ways, and the decoder as a test of the fields. -/

namespace Sys2Proof

/-- The fields of a word of the form R87 assembles. -/
theorem fields_of_assembled (d : BitVec 1) (a op : Byte) :
    let w : Word := (d.setWidth 32 <<< 16) ||| (a.setWidth 32 <<< 8) ||| op.setWidth 32
    opField w = op ∧ aField w = a ∧ dField w = d ∧ rsvField w = 0#15 := by
  refine ⟨?_, ?_, ?_, ?_⟩ <;>
    · apply BitVec.eq_of_getLsbD_eq
      intro i hi
      interval_cases i <;> simp [opField, aField, dField, rsvField]

/-- A word with RSV zero is put together from its other three fields. -/
theorem assembled_of_fields (w : Word) (h : rsvField w = 0#15) :
    w = ((dField w).setWidth 32 <<< 16) ||| ((aField w).setWidth 32 <<< 8) ||| (opField w).setWidth 32 := by
  apply BitVec.eq_of_getLsbD_eq
  intro i hi
  by_cases h17 : 17 ≤ i
  · have hbit := congrArg (·.getLsbD (i - 17)) h
    simp only [rsvField, BitVec.getLsbD_extractLsb', show 17 + (i - 17) = i by omega, BitVec.getLsbD_zero] at hbit
    rw [show decide (i - 17 < 15) = true by simp; omega, Bool.true_and] at hbit
    rw [hbit]
    simp [opField, aField, dField, hi, show ¬ i < 16 by omega, show ¬ i < 8 by omega]
    omega
  · have hi17 : i < 17 := by omega
    clear h hi h17
    interval_cases i <;> simp [opField, aField, dField]

/-! ### The opcode map -/

theorem opcodeOf_code (o : Opcode) : opcodeOf o.code = some o := by cases o <;> decide

theorem code_of_opcodeOf {op : Byte} {o : Opcode} (h : opcodeOf op = some o) : o.code = op := by
  simpa using List.find?_some h

theorem mem_opcode_all (o : Opcode) : o ∈ Opcode.all := by cases o <;> decide

/-- The opcodes of R84 are distinct. -/
theorem code_injective {o q : Opcode} (h : o.code = q.code) : o = q := by
  simpa [opcodeOf_code] using congrArg opcodeOf h

/-! ### The decoder -/

/-- Everything the decoder accepts (R80, R83): the words whose fields are legal for a row, read as that row's command. -/
theorem decode_ok_iff (w : Word) (i : Instr) :
    decode w = .ok i ↔ ∃ o : Opcode, (fieldsOf w).LegalFor o ∧ i = o.build (aField w) (dField w) := by
  unfold decode
  constructor
  · intro h
    split at h
    · simp at h
    · rename_i o ho
      refine ⟨o, ?_⟩
      split at h
      · simp at h
      · split at h
        · simp at h
        · split at h
          · simp at h
          · rename_i h1 h2 h3
            have h1' : rsvField w = 0#15 := not_not.1 h1
            refine ⟨⟨(code_of_opcodeOf ho).symm, h1', fun hu => ?_, fun hu => ?_⟩, ?_⟩
            · by_contra hne; exact h2 ⟨hne, hu⟩
            · by_contra hne; exact h3 ⟨hne, hu⟩
            · exact (Except.ok.inj h).symm
  · rintro ⟨o, ⟨hop, hrsv, ha, hd⟩, rfl⟩
    have hop : opField w = o.code := hop
    have hrsv : rsvField w = 0#15 := hrsv
    rw [hop, opcodeOf_code]
    have h1 : ¬ (aField w ≠ 0#8 ∧ o.usesA = false) := fun h => h.1 (ha h.2)
    have h2 : ¬ (dField w ≠ 0#1 ∧ o.usesD = false) := fun h => h.1 (hd h.2)
    simp only [hrsv, ne_eq, not_true_eq_false, if_false, if_neg h1, if_neg h2]

/-- The decoder rejects exactly the illegal words (R85). -/
theorem decode_error_iff (w : Word) : (∃ e, decode w = .error e) ↔ ¬ (fieldsOf w).Legal := by
  constructor
  · rintro ⟨e, he⟩ ⟨o, -, ho⟩
    have := (decode_ok_iff w _).2 ⟨o, ho, rfl⟩
    rw [he] at this; simp at this
  · intro h
    cases hd : decode w with
    | error e => exact ⟨e, rfl⟩
    | ok i =>
      obtain ⟨o, ho, -⟩ := (decode_ok_iff w i).1 hd
      exact absurd ⟨o, mem_opcode_all o, ho⟩ h

/-! ### Commands and rows -/

@[simp] theorem opcode_build (o : Opcode) (a : Byte) (d : BitVec 1) : (o.build a d).opcode = o := by cases o <;> rfl

theorem bit_directionOf (d : BitVec 1) : (directionOf d).bit = d := by revert d; decide

theorem directionOf_bit (dir : Direction) : directionOf dir.bit = dir := by cases dir <;> decide

theorem operandA_build {o : Opcode} {a : Byte} (d : BitVec 1) (h : o.usesA = false → a = 0#8) :
    (o.build a d).operandA = a := by
  cases o <;> simp_all [Opcode.build, Instr.operandA, Opcode.usesA]

theorem operandD_build {o : Opcode} (a : Byte) {d : BitVec 1} (h : o.usesD = false → d = 0#1) :
    (o.build a d).operandD = d := by
  cases o <;> simp_all [Opcode.build, Instr.operandD, Opcode.usesD, bit_directionOf]

theorem build_operands (i : Instr) : i.opcode.build i.operandA i.operandD = i := by
  cases i <;> simp [Opcode.build, Instr.opcode, Instr.operandA, Instr.operandD, directionOf_bit]

theorem operandA_unused (i : Instr) (h : i.opcode.usesA = false) : i.operandA = 0#8 := by
  cases i <;> simp_all [Instr.opcode, Opcode.usesA, Instr.operandA]

theorem operandD_unused (i : Instr) (h : i.opcode.usesD = false) : i.operandD = 0#1 := by
  cases i <;> simp_all [Instr.opcode, Opcode.usesD, Instr.operandD]

end Sys2Proof
end

