-- ==== Sys2Proof/Laws/Hex.lean ====
section
/-! SUPPORT. The laws of the hex codec (spec/40_hex_codec.md): digits, the encoder as a sequence of digits, the decoder
as its inverse. -/

namespace Sys2Proof.Machine

/-! ### Digits (R100, R101) -/

theorem hexdigit_hexchar {n : Nat} (h : n < 16) : hexdigit (hexchar n) = true := by
  interval_cases n <;> decide

theorem hexval_hexchar {n : Nat} (h : n < 16) : hexval (hexchar n) = n := by
  interval_cases n <;> decide

theorem hexval_lt {c : Byte} (h : hexdigit c = true) : hexval c < 16 := by
  revert c; decide

theorem hexchar_hexval {c : Byte} (h : hexdigit c = true) : hexchar (hexval c) = c := by
  revert c; decide

/-! ### A value as digits -/

/-- The low `d` hex digits of a value, most significant first. -/
def hexDigits : Nat → Nat → List Byte
  | _, 0 => []
  | v, d + 1 => hexDigits (v / 16) d ++ [hexchar (v % 16)]

@[simp] theorem hexDigits_length (v d : Nat) : (hexDigits v d).length = d := by
  induction d generalizing v with
  | zero => rfl
  | succ d ih => simp [hexDigits, ih]

theorem hexDigits_all (v d : Nat) : (hexDigits v d).all hexdigit = true := by
  induction d generalizing v with
  | zero => rfl
  | succ d ih => simp [hexDigits, ih, hexdigit_hexchar (Nat.mod_lt v (by decide : 16 > 0))]

theorem hexDigits_getElem? (v d i : Nat) (h : i < d) :
    (hexDigits v d)[i]? = some (hexchar ((v >>> (4 * (d - 1 - i))) % 16)) := by
  induction d generalizing v with
  | zero => omega
  | succ d ih =>
    by_cases hi : i = d
    · subst hi; simp [hexDigits]
    · have hlt : i < d := by omega
      have : 4 * (d + 1 - 1 - i) = 4 + 4 * (d - 1 - i) := by omega
      rw [hexDigits, List.getElem?_append_left (by simpa using hlt), ih _ hlt, this, Nat.shiftRight_add,
        Nat.shiftRight_eq_div_pow v 4]

/-- Dropping the leading digit leaves the digits of the same value. -/
theorem hexDigits_drop_one (v d : Nat) : (hexDigits v (d + 1)).drop 1 = hexDigits v d := by
  induction d generalizing v with
  | zero => simp [hexDigits]
  | succ d ih =>
    rw [hexDigits, List.drop_append_of_le_length (by simp), ih]
    rfl

/-- The encoder's bytes, two characters a byte, are the digits (R102). -/
theorem flatMap_hexPair (v nb : Nat) : (bigEndianBytes v nb).flatMap hexPair = hexDigits v (2 * nb) := by
  induction nb generalizing v with
  | zero => rfl
  | succ nb ih =>
    have hbytes : bigEndianBytes v (nb + 1) = bigEndianBytes (v / 256) nb ++ [v % 256] := by
      simp only [bigEndianBytes, List.range_succ, List.map_append, List.map_singleton]
      congr 1
      · refine List.map_congr_left fun j hj => ?_
        have hj := List.mem_range.1 hj
        rw [show 8 * (nb + 1 - 1 - j) = 8 + 8 * (nb - 1 - j) by omega, Nat.shiftRight_add,
          Nat.shiftRight_eq_div_pow v 8]
      · simp
    have h1 : v % 256 / 16 = v / 16 % 16 := by omega
    have h2 : v % 256 % 16 = v % 16 := by omega
    have h3 : v / 16 / 16 = v / 256 := by omega
    rw [hbytes, List.flatMap_append, ih, show 2 * (nb + 1) = 2 * nb + 1 + 1 by omega, hexDigits, hexDigits, h3]
    simp [hexPair, h1, h2]

/-! ### The decoder's sum (R103) -/

theorem hexSum_append (s : List Byte) (c : Byte) : hexSum (s ++ [c]) = hexSum s * 16 + hexval c := by
  induction s with
  | nil => simp [hexSum]
  | cons d s ih => simp [hexSum, ih, pow_succ]; ring

theorem hexSum_hexDigits (v d : Nat) : hexSum (hexDigits v d) = v % 16 ^ d := by
  induction d generalizing v with
  | zero => simp [hexDigits, hexSum, Nat.mod_one]
  | succ d ih =>
    rw [hexDigits, hexSum_append, ih, hexval_hexchar (Nat.mod_lt v (by decide)), pow_succ, Nat.mul_comm (16 ^ d) 16,
      Nat.mod_mul]
    omega

theorem hexSum_lt (s : List Byte) (h : s.all hexdigit = true) : hexSum s < 16 ^ s.length := by
  induction s with
  | nil => simp [hexSum]
  | cons c s ih =>
    simp only [List.all_cons, Bool.and_eq_true] at h
    have h1 := hexval_lt h.1
    have h2 := ih h.2
    simp only [hexSum, List.length_cons, pow_succ]
    nlinarith

theorem hexDigits_hexSum (s : List Byte) (h : s.all hexdigit = true) : hexDigits (hexSum s) s.length = s := by
  induction s using List.reverseRecOn with
  | nil => rfl
  | append_singleton s c ih =>
    simp only [List.all_append, List.all_cons, List.all_nil, Bool.and_true, Bool.and_eq_true] at h
    have hc := hexval_lt h.2
    rw [hexSum_append, List.length_append, List.length_singleton, hexDigits]
    rw [show (hexSum s * 16 + hexval c) / 16 = hexSum s by omega,
      show (hexSum s * 16 + hexval c) % 16 = hexval c by omega, ih h.1, hexchar_hexval h.2]

theorem pow16_le_of_le8 {d : Nat} (h : d ≤ 8) : 16 ^ d ≤ 2 ^ 32 :=
  (Nat.pow_le_pow_right (by decide) h).trans (by decide)

/-! ### `encode_hex` and `decode_hex` as functions of the digits -/

/-- Everything `encode_hex` does (R102): it fails exactly outside its contract and otherwise gives the low digits. -/
theorem encodeHex_eq (v : Word) (d : Nat) :
    encodeHex v d =
      if d < 1 ∨ 8 < d ∨ 2 ^ (8 * ((d + 1) / 2)) ≤ v.toNat then none else some (hexDigits v.toNat d) := by
  unfold encodeHex
  by_cases hd : d < 1 ∨ d > 8
  · rw [if_pos hd, if_pos (by tauto)]
  · rw [if_neg hd]
    by_cases hv : v.toNat ≥ 2 ^ (8 * ((d + 1) / 2))
    · rw [if_pos hv, if_pos (by right; right; exact hv)]
    · rw [if_neg hv, if_neg (by tauto)]
      rw [flatMap_hexPair]
      dsimp only
      by_cases ho : d % 2 = 1
      · rw [if_pos ho, show 2 * ((d + 1) / 2) = d + 1 by omega, hexDigits_drop_one]
      · rw [if_neg ho, show 2 * ((d + 1) / 2) = d by omega]

/-- Everything `decode_hex` does (R103). -/
theorem decodeHex_eq (s : List Byte) :
    decodeHex s =
      if s.length < 1 ∨ s.length > 8 ∨ s.all hexdigit = false then none else some (BitVec.ofNat 32 (hexSum s)) := by
  unfold decodeHex
  by_cases h : s.length < 1 ∨ s.length > 8
  · rw [if_pos h, if_pos (by tauto)]
  · cases ha : s.all hexdigit
    · simp
    · have hn : ¬ (s.length < 1 ∨ s.length > 8 ∨ true = false) := by
        simp only [reduceCtorEq, or_false]; exact h
      rw [if_neg h, if_neg hn]; rfl

theorem decodeHex_toNat {s : List Byte} {v : Word} (h : decodeHex s = some v) : v.toNat = hexSum s := by
  rw [decodeHex_eq] at h
  split at h
  · simp at h
  · rename_i hn
    simp only [not_or, Bool.not_eq_false] at hn
    obtain rfl := Option.some.inj h
    exact BitVec.toNat_ofNat _ _ ▸ Nat.mod_eq_of_lt ((hexSum_lt s hn.2.2).trans_le (pow16_le_of_le8 (by omega)))

/-- Decoding the low digits gives the value modulo `16^d` (R106, R107). -/
theorem decodeHex_hexDigits (v d : Nat) (h1 : 1 ≤ d) (h8 : d ≤ 8) :
    decodeHex (hexDigits v d) = some (BitVec.ofNat 32 (v % 16 ^ d)) := by
  rw [decodeHex_eq, if_neg (by simp only [hexDigits_length, hexDigits_all]; simp; omega), hexSum_hexDigits]

/-- Encoding what a digit string decodes to gives the string (R106). -/
theorem encodeHex_of_decodeHex {s : List Byte} {v : Word} (h : decodeHex s = some v) :
    encodeHex v s.length = some s := by
  have hv := decodeHex_toNat h
  rw [decodeHex_eq] at h
  split at h
  · simp at h
  · rename_i hn
    simp only [not_or, Bool.not_eq_false] at hn
    have hlt := hexSum_lt s hn.2.2
    have : 16 ^ s.length ≤ 2 ^ (8 * ((s.length + 1) / 2)) := by
      rw [show 16 = 2 ^ 4 from rfl, ← pow_mul]; exact Nat.pow_le_pow_right (by decide) (by omega)
    rw [encodeHex_eq, if_neg (by omega), hv, hexDigits_hexSum s hn.2.2]

/-! ### `hex8` (R122) -/

theorem hex8_eq_hexDigits (v : Word) : hex8 v = hexDigits v.toNat 8 := by
  simp [hex8, nibbleChar, hexDigits, Nat.shiftRight_eq_div_pow, Nat.div_div_eq_div_mul]

@[simp] theorem hex8_length (v : Word) : (hex8 v).length = 8 := rfl

theorem hex8_all (v : Word) : (hex8 v).all hexdigit = true := by
  rw [hex8_eq_hexDigits]; exact hexDigits_all _ _

theorem decodeHex_hex8 (v : Word) : decodeHex (hex8 v) = some v := by
  rw [hex8_eq_hexDigits, decodeHex_hexDigits _ _ (by decide) (by decide),
    Nat.mod_eq_of_lt (by simpa using v.isLt)]
  simp

theorem hex8_injective {v u : Word} (h : hex8 v = hex8 u) : v = u := by
  simpa [decodeHex_hex8] using congrArg decodeHex h

/-- A string of 8 hex digits is `hex8` of what it decodes to (R124). -/
theorem hex8_of_decodeHex {s : List Byte} {v : Word} (hl : s.length = 8) (h : decodeHex s = some v) : hex8 v = s := by
  have h1 := encodeHex_of_decodeHex h
  rw [hl, encodeHex_eq] at h1
  split at h1
  · simp at h1
  · rw [hex8_eq_hexDigits]; exact Option.some.inj h1

end Sys2Proof.Machine
end

