-- ==== Sys2Proof/Laws/Crc.lean ====
section
/-! SUPPORT. The laws of the CRC function (spec/41_crc.md): a round and a step lose nothing, so a changed byte changes
the CRC and its checksum. -/

namespace Sys2Proof.Machine

@[simp] theorem crcFinal_crcFinal (w : Word) : crcFinal (crcFinal w) = w := by
  simp [crcFinal]

theorem crcFinal_injective {v u : Word} (h : crcFinal v = crcFinal u) : v = u := by
  simpa using congrArg crcFinal h

theorem crcFeed_append (acc : Word) (s t : List Byte) : crcFeed acc (s ++ t) = crcFeed (crcFeed acc s) t := by
  simp [crcFeed]

@[simp] theorem crcFeed_nil (acc : Word) : crcFeed acc [] = acc := rfl

@[simp] theorem crcFeed_cons (acc : Word) (b : Byte) (s : List Byte) :
    crcFeed acc (b :: s) = crcFeed (crcStep acc b) s := rfl

/-- Bit 31 after a round tells which branch was taken: the polynomial's top bit is set (R120). -/
theorem crcRound_msb (a : Word) : (crcRound a).getLsbD 31 = a.getLsbD 0 := by
  unfold crcRound
  split
  · rename_i h; rw [h]; simp
  · rename_i h; simp [Bool.not_eq_true] at h; simp [h]

theorem crcRound_injective {a b : Word} (h : crcRound a = crcRound b) : a = b := by
  have h0 : a.getLsbD 0 = b.getLsbD 0 := by rw [← crcRound_msb a, ← crcRound_msb b, h]
  have hs : a >>> 1 = b >>> 1 := by
    unfold crcRound at h
    rw [h0] at h
    split at h
    · simpa using congrArg (· ^^^ 0xEDB88320#32) h
    · exact h
  apply BitVec.eq_of_getLsbD_eq
  intro i hi
  cases i with
  | zero => exact h0
  | succ i => simpa [Nat.add_comm] using congrArg (·.getLsbD i) hs

theorem crcRounds_injective (n : Nat) {a b : Word} (h : Nat.repeat crcRound n a = Nat.repeat crcRound n b) : a = b := by
  induction n with
  | zero => exact h
  | succ n ih => exact ih (crcRound_injective h)

theorem crcStep_acc_injective {a b : Word} {c : Byte} (h : crcStep a c = crcStep b c) : a = b := by
  simpa using congrArg (· ^^^ c.setWidth 32) (crcRounds_injective 8 h)

theorem crcStep_byte_injective {a : Word} {b c : Byte} (h : crcStep a b = crcStep a c) : b = c := by
  have h1 : b.setWidth 32 = c.setWidth 32 := by
    simpa [BitVec.xor_comm a, BitVec.xor_assoc] using congrArg (· ^^^ a) (crcRounds_injective 8 h)
  have h2 : b.toNat = c.toNat := by
    have := congrArg BitVec.toNat h1
    rw [BitVec.toNat_setWidth, BitVec.toNat_setWidth] at this
    have := b.isLt; have := c.isLt; omega
  exact BitVec.eq_of_toNat_eq h2

theorem crcFeed_injective (s : List Byte) {a b : Word} (h : crcFeed a s = crcFeed b s) : a = b := by
  induction s generalizing a b with
  | nil => exact h
  | cons c s ih => exact crcStep_acc_injective (ih h)

/-- A checksum determines the CRC it renders (R124). -/
theorem checksum_eq_iff (s t : List Byte) : checksum s = checksum t ↔ crc32 s = crc32 t :=
  ⟨hex8_injective, congrArg hex8⟩

end Sys2Proof.Machine
end

