-- ==== Sys2Proof/Laws/Frame.lean ====
section
/-! SUPPORT. The laws of the frame functions: the layout of a built frame (spec/42_frame_build.md R145), the match step
position by position and on a frame given by its parts (spec/43_frame_parse.md R160, R171), and the cases of the
parse. -/

namespace Sys2Proof.Machine

/-! ### The request frame -/

@[simp] theorem requestSpan_length (cid : Nat) (dir : Direction) (p : List Byte) :
    (requestSpan cid dir p).length = p.length + 6 := by
  simp [requestSpan, xtPrefix, twoDigits]

/-- Everything `build_frame` does (R141). -/
theorem buildFrame_eq_some {term : Byte} {cid : Nat} {dir : Direction} {p f : List Byte} :
    buildFrame term cid dir p = some f ↔
      cid ≤ 99 ∧ f = requestSpan cid dir p ++ [space] ++ hex8 (crc32 (requestSpan cid dir p)) ++ [term] := by
  unfold buildFrame
  split
  · simp; omega
  · simp only [Option.some.injEq]
    constructor
    · rintro rfl; exact ⟨by omega, rfl⟩
    · rintro ⟨-, rfl⟩; rfl

theorem buildFrame_length {term : Byte} {cid : Nat} {dir : Direction} {p f : List Byte}
    (h : buildFrame term cid dir p = some f) : f.length = p.length + 16 := by
  obtain ⟨-, rfl⟩ := buildFrame_eq_some.1 h
  simp

/-- The covered span of a built frame. -/
theorem buildFrame_take {term : Byte} {cid : Nat} {dir : Direction} {p f : List Byte}
    (h : buildFrame term cid dir p = some f) : f.take (p.length + 6) = requestSpan cid dir p := by
  obtain ⟨-, rfl⟩ := buildFrame_eq_some.1 h
  rw [List.append_assoc, List.append_assoc, List.take_append_of_le_length (by simp), List.take_of_length_le (by simp)]

/-! ### The match step -/

theorem crcText_length {f : List Byte} (h : 13 ≤ f.length) : (crcText f).length = 8 := by
  simp [crcText]; omega

/-- The match step, position by position (R160). -/
theorem matchFrame_iff (term : Byte) (f : List Byte) :
    matchFrame term f = true ↔
      13 ≤ f.length ∧ f[f.length - 1]? = some term ∧ (f.take 2 = okToken ∨ f.take 2 = erToken) ∧
        f[2]? = some plus ∧ f[f.length - 10]? = some space ∧ ∀ c ∈ crcText f, hexdigit c = true := by
  by_cases h : 13 ≤ f.length
  · have get : ∀ (k : Nat) (b : Byte), k < f.length → (f.getD k 0#8 = b ↔ f[k]? = some b) := by
      intro k b hk; simp [List.getD_eq_getElem?_getD, List.getElem?_eq_getElem hk]
    unfold matchFrame statusOf
    simp only [Bool.and_eq_true, Bool.or_eq_true, decide_eq_true_eq, List.all_eq_true,
      get (f.length - 1) term (by omega), get 2 plus (by omega), get (f.length - 10) space (by omega)]
    tauto
  · simp [matchFrame, h]

theorem okToken_ne_erToken : okToken ≠ erToken := by decide

/-! ### A response given by its parts (R171) -/

/-- A response: status, '+', body, space, checksum field, terminator. -/
def response (status body sum : List Byte) (term : Byte) : List Byte :=
  status ++ [plus] ++ body ++ [space] ++ sum ++ [term]

theorem response_statusOf {status : List Byte} (body sum : List Byte) (term : Byte) (hst : status.length = 2) :
    statusOf (response status body sum term) = status := by
  rw [statusOf, response, ← hst]; simp

section
variable {status body sum : List Byte} {term : Byte} (hst : status.length = 2) (hsum : sum.length = 8)
include hst hsum

theorem response_length : (response status body sum term).length = body.length + 13 := by
  simp [response, hst, hsum]; omega

theorem response_coveredSpan : coveredSpan (response status body sum term) = status ++ [plus] ++ body := by
  rw [coveredSpan, response_length hst hsum, response, List.append_assoc, List.append_assoc]
  have : (status ++ [plus] ++ body).length = body.length + 13 - 10 := by simp [hst]; omega
  rw [← this, List.take_left']
  rfl

theorem response_bodyOf : bodyOf (response status body sum term) = body := by
  rw [bodyOf, response_coveredSpan hst hsum]
  have : (status ++ [plus]).length = 3 := by simp [hst]
  rw [← this, List.drop_left']
  rfl

theorem response_crcText : crcText (response status body sum term) = sum := by
  rw [crcText, response_length hst hsum, response, List.append_assoc _ sum]
  have : (status ++ [plus] ++ body ++ [space]).length = body.length + 13 - 9 := by simp [hst]; omega
  rw [← this, List.drop_left' rfl, ← hsum, List.take_left' rfl]

/-- A response with an "OK" or "ER" status and hex digits in its checksum field passes the match step. -/
theorem response_match (hok : status = okToken ∨ status = erToken) (hd : ∀ c ∈ sum, hexdigit c = true) :
    matchFrame term (response status body sum term) = true := by
  have hl : (response status body sum term).length = body.length + 13 := response_length hst hsum
  have hs : List.take 2 (response status body sum term) = status := response_statusOf body sum term hst
  rw [matchFrame_iff, hs, response_crcText hst hsum]
  refine ⟨by omega, ?_, hok, ?_, ?_, hd⟩
  · rw [hl, response, List.getElem?_append_right (by simp [hst, hsum]; omega)]
    simp [hst, hsum]
    rw [show body.length + 12 - (2 + (body.length + 1 + 9)) = 0 by omega]; rfl
  · simp [response, hst]
  · rw [hl, response, List.append_assoc, List.append_assoc, List.getElem?_append_right (by simp [hst]; omega)]
    simp [hst]
    rw [show body.length + 3 - (2 + (body.length + 1)) = 0 by omega]; rfl

end

/-! ### The parse -/

theorem parseFrame_of_not_match {c : Config} {f : List Byte} (h : matchFrame c.term f = false) :
    parseFrame c f = (.malformed, none) := by simp [parseFrame, h]

theorem parseFrame_of_match {c : Config} {f : List Byte} (h : matchFrame c.term f = true) :
    parseFrame c f = (verifyThenInterpret c.codes f, some (crc32 (coveredSpan f))) := by simp [parseFrame, h]

/-- An `ER` body gives MALFORMED or a known code, whose two digits it is. -/
theorem interpretError_cases (t : CodeTable) (body : List Byte) :
    interpretError t body = .malformed ∨
      ∃ c1 c0, body = [c1, c0] ∧ hexdigit c1 = true ∧ hexdigit c0 = true ∧
        knownCode t (BitVec.ofNat 8 (16 * hexval c1 + hexval c0)) = true ∧
        interpretError t body = .deverr (BitVec.ofNat 8 (16 * hexval c1 + hexval c0)) := by
  unfold interpretError
  split
  · rename_i c1 c0
    split
    · rename_i hd
      dsimp only
      split
      · rename_i hk
        simp only [Bool.and_eq_true] at hd
        exact .inr ⟨c1, c0, rfl, hd.1, hd.2, hk, rfl⟩
      · exact .inl rfl
    · exact .inl rfl
  · exact .inl rfl

/-- Every way a parse can end (R160 to R164): the match step failed, or it passed and the recomputed CRC was recorded. -/
theorem parseFrame_cases (c : Config) (f : List Byte) :
    (matchFrame c.term f = false ∧ parseFrame c f = (.malformed, none)) ∨
    (matchFrame c.term f = true ∧ ∃ r, parseFrame c f = (r, some (crc32 (coveredSpan f))) ∧
      (r = .integrity ∨ r = .malformed ∨ r = .ok (f.length - 13) ∨
        ∃ code, r = .deverr code ∧ knownCode c.codes code = true ∧ f.length = 15)) := by
  cases h : matchFrame c.term f with
  | false => exact .inl ⟨rfl, parseFrame_of_not_match h⟩
  | true =>
    refine .inr ⟨rfl, _, parseFrame_of_match h, ?_⟩
    have h13 := ((matchFrame_iff _ _).1 h).1
    unfold verifyThenInterpret interpret
    split
    · exact .inl rfl
    · split
      · exact .inr (.inr (.inl rfl))
      · rcases interpretError_cases c.codes (bodyOf f) with hm | ⟨c1, c0, hb, -, -, hk, hd⟩
        · exact .inr (.inl hm)
        · refine .inr (.inr (.inr ⟨_, hd, hk, ?_⟩))
          have := congrArg List.length hb
          simp [bodyOf, coveredSpan] at this
          omega

end Sys2Proof.Machine
end

