-- ==== Sys2Proof/Laws/Memory.lean ====
section
/-! SUPPORT. The laws of the byte arrays: a read after a write, the bytes a write leaves alone, the canonical form, and
the same for a stored sequence. -/

namespace Sys2Proof.Machine

/-! ### One byte -/

theorem Memory.read_drop (m : Memory) (k j : Nat) :
    (m.drop k).read j = if j = k then Memory.unlisted else m.read j := by
  induction m with
  | nil => simp [Memory.drop, Memory.read]
  | cons c m ih =>
    simp only [Memory.drop] at ih ⊢
    by_cases hc : c.1 = k
    · simp only [List.filter, hc, bne_self_eq_false, ih, Memory.read]
      by_cases hj : j = k
      · simp [hj]
      · simp [hj, Ne.symm hj]
    · have : (c.1 != k) = true := by simpa using hc
      simp only [List.filter, this, Memory.read, ih]
      by_cases hj : j = k
      · subst hj; simp [hc]
      · simp [hj]

theorem Memory.read_place (m : Memory) (x : Host.Cell) (j : Nat) (hx : m.read x.1 = Memory.unlisted)
    (hm : ∀ c ∈ m, c.1 ≠ x.1) : (m.place x).read j = if j = x.1 then x.2 else m.read j := by
  induction m with
  | nil => by_cases hj : j = x.1 <;> simp [Memory.place, Memory.read, hj, eq_comm]
  | cons c m ih =>
    have hc : c.1 ≠ x.1 := hm c (by simp)
    have hx' : Memory.read m x.1 = Memory.unlisted := by simpa [Memory.read, hc] using hx
    have ih := ih hx' fun d hd => hm d (by simp [hd])
    simp only [Memory.place]
    split
    · by_cases hj : j = x.1
      · simp [Memory.read, hj]
      · simp [Memory.read, hj, Ne.symm hj]
    · simp only [Memory.read, ih]
      by_cases hj : j = x.1
      · subst hj; simp [hc]
      · simp [hj]

theorem Memory.drop_ne (m : Memory) (k : Nat) : ∀ c ∈ m.drop k, c.1 ≠ k := by
  intro c hc
  simpa [Memory.drop] using (List.mem_filter.1 hc).2

/-- Everything a write does to the bytes read. -/
theorem Memory.read_write (m : Memory) (k j : Nat) (v : Byte) :
    (m.write k v).read j = if j = k then v else m.read j := by
  unfold Memory.write
  split
  · rename_i h; subst h; exact m.read_drop k j
  · have hd := m.read_drop k k
    rw [Memory.read_place _ _ _ (by simpa using hd) (m.drop_ne k), Memory.read_drop]
    by_cases hj : j = k <;> simp [hj]

@[simp] theorem Memory.read_write_same (m : Memory) (k : Nat) (v : Byte) : (m.write k v).read k = v := by
  simp [Memory.read_write]

theorem Memory.read_write_other (m : Memory) {k j : Nat} (v : Byte) (h : j ≠ k) :
    (m.write k v).read j = m.read j := by simp [Memory.read_write, h]

/-! ### The canonical form -/

theorem Memory.mem_place (m : Memory) (x c : Host.Cell) : c ∈ m.place x ↔ c = x ∨ c ∈ m := by
  induction m with
  | nil => simp [Memory.place]
  | cons d m ih =>
    simp only [Memory.place]
    split
    · simp
    · simp only [List.mem_cons, ih]; tauto

/-- Every cell after a write is the written one or was there before. -/
theorem Memory.mem_write {m : Memory} {k : Nat} {v : Byte} {c : Host.Cell} (h : c ∈ m.write k v) :
    c = (k, v) ∨ c ∈ m := by
  unfold Memory.write at h
  split at h
  · exact .inr (List.mem_filter.1 h).1
  · rcases (Memory.mem_place _ _ _).1 h with h | h
    · exact .inl h
    · exact .inr (List.mem_filter.1 h).1

theorem Memory.place_pairwise {m : Memory} {x : Host.Cell} (h : m.Pairwise fun a b => a.1 < b.1)
    (hm : ∀ c ∈ m, c.1 ≠ x.1) : (m.place x).Pairwise fun a b => a.1 < b.1 := by
  induction m with
  | nil => simp [Memory.place]
  | cons c m ih =>
    obtain ⟨hc, ht⟩ := List.pairwise_cons.1 h
    simp only [Memory.place]
    split
    · rename_i hlt
      refine List.pairwise_cons.2 ⟨fun d hd => ?_, h⟩
      rcases List.mem_cons.1 hd with rfl | hd
      · exact hlt
      · exact hlt.trans (hc d hd)
    · rename_i hge
      have hne := hm c (by simp)
      refine List.pairwise_cons.2 ⟨fun d hd => ?_, ih ht fun d hd => hm d (by simp [hd])⟩
      rcases (Memory.mem_place _ _ _).1 hd with rfl | hd
      · omega
      · exact hc d hd

/-- A write keeps the canonical form. -/
theorem Memory.write_wf {m : Memory} (k : Nat) (v : Byte) (h : m.wf) : (m.write k v).wf := by
  obtain ⟨hs, hv⟩ := h
  have hs' : (m.drop k).Pairwise fun a b => a.1 < b.1 := List.Pairwise.filter _ hs
  refine ⟨?_, fun c hc => ?_⟩
  · unfold Memory.write
    split
    · exact hs'
    · exact Memory.place_pairwise hs' (m.drop_ne k)
  · by_cases hz : v = Memory.unlisted
    · rw [Memory.write, if_pos hz] at hc
      exact hv c (List.mem_filter.1 hc).1
    · rcases Memory.mem_write hc with rfl | hc
      · exact hz
      · exact hv c hc

/-- Canonical memories that read alike are equal data. -/
theorem Memory.ext_of_read {m n : Memory} (hm : m.wf) (hn : n.wf) (h : ∀ k, m.read k = n.read k) : m = n := by
  have below : ∀ (m : Memory) (k : Nat), (∀ c ∈ m, k < c.1) → m.read k = Memory.unlisted := by
    intro m k hk
    induction m with
    | nil => rfl
    | cons c m ih =>
      have : c.1 ≠ k := (hk c (by simp)).ne'
      simp [Memory.read, this, ih fun d hd => hk d (by simp [hd])]
  induction m generalizing n with
  | nil =>
    cases n with
    | nil => rfl
    | cons c n => exact absurd (by simpa [Memory.read] using (h c.1).symm) (hn.2 c (by simp))
  | cons c m ih =>
    cases n with
    | nil => exact absurd (by simpa [Memory.read] using h c.1) (hm.2 c (by simp))
    | cons d n =>
      obtain ⟨hcm, hm1⟩ := List.pairwise_cons.1 hm.1
      obtain ⟨hdn, hn1⟩ := List.pairwise_cons.1 hn.1
      have hcd : c.1 = d.1 := by
        rcases Nat.lt_trichotomy c.1 d.1 with hlt | heq | hlt
        · have := h c.1
          rw [below (d :: n) c.1 (by
            intro e he; rcases List.mem_cons.1 he with rfl | he
            · exact hlt
            · exact hlt.trans (hdn e he))] at this
          exact absurd (by simpa [Memory.read] using this) (hm.2 c (by simp))
        · exact heq
        · have := h d.1
          rw [below (c :: m) d.1 (by
            intro e he; rcases List.mem_cons.1 he with rfl | he
            · exact hlt
            · exact hlt.trans (hcm e he))] at this
          exact absurd (by simpa [Memory.read] using this.symm) (hn.2 d (by simp))
      have hv : c.2 = d.2 := by simpa [Memory.read, hcd] using h c.1
      have : m = n := by
        refine ih ⟨hm1, fun e he => hm.2 e (by simp [he])⟩ ⟨hn1, fun e he => hn.2 e (by simp [he])⟩ fun k => ?_
        by_cases hk : k = c.1
        · subst hk; rw [below m _ hcm, hcd, below n _ hdn]
        · have := h k
          simpa [Memory.read, Ne.symm hk, hcd ▸ Ne.symm hk] using this
      rw [this, Prod.ext hcd hv]

/-! ### Sequences -/

@[simp] theorem Memory.span_length (m : Memory) (i n : Nat) : (m.span i n).length = n := by simp [Memory.span]

@[simp] theorem Memory.span_zero (m : Memory) (i : Nat) : m.span i 0 = [] := rfl

@[simp] theorem Memory.span_getElem (m : Memory) (i n j : Nat) (h : j < (m.span i n).length) :
    (m.span i n)[j] = m.read (i + j) := by simp [Memory.span]

theorem Memory.span_getD (m : Memory) (i n j : Nat) (h : j < n) (d : Byte) :
    (m.span i n).getD j d = m.read (i + j) := by simp [Memory.span, h]

/-- Memories that read alike on a span have the same span. -/
theorem Memory.span_congr {m m' : Memory} {i n : Nat} (h : ∀ j, j < n → m'.read (i + j) = m.read (i + j)) :
    m'.span i n = m.span i n := by
  simp only [Memory.span]
  exact List.map_congr_left fun j hj => h j (List.mem_range.1 hj)

theorem Memory.span_succ (m : Memory) (i n : Nat) : m.span i (n + 1) = m.span i n ++ [m.read (i + n)] := by
  simp [Memory.span, List.range_succ]

/-- Everything a stored sequence does to the bytes read. -/
theorem Memory.read_store (m : Memory) (i j : Nat) (bs : List Byte) :
    (m.store i bs).read j = if h : i ≤ j ∧ j < i + bs.length then bs[j - i]'(by omega) else m.read j := by
  induction bs generalizing m i with
  | nil =>
    have : ¬ (i ≤ j ∧ j < i + ([] : List Byte).length) := by simp
    rw [dif_neg this, Memory.store]
  | cons b bs ih =>
    simp only [Memory.store, ih, Memory.read_write, List.length_cons]
    by_cases h1 : i + 1 ≤ j ∧ j < i + 1 + bs.length
    · have h2 : i ≤ j ∧ j < i + (bs.length + 1) := by omega
      have h3 : j - i = (j - (i + 1)) + 1 := by omega
      rw [dif_pos h1, dif_pos h2]
      simp [h3]
    · rw [dif_neg h1]
      by_cases hj : j = i
      · subst hj; simp
      · have h2 : ¬ (i ≤ j ∧ j < i + (bs.length + 1)) := by omega
        rw [dif_neg h2, if_neg hj]

/-- Storing a sequence keeps the canonical form. -/
theorem Memory.store_wf {m : Memory} (i : Nat) (bs : List Byte) (h : m.wf) : (m.store i bs).wf := by
  induction bs generalizing m i with
  | nil => exact h
  | cons b bs ih => exact ih _ (Memory.write_wf i b h)

/-- Every cell after storing a sequence is one of its own indices or was there before. -/
theorem Memory.mem_store {m : Memory} {i : Nat} {bs : List Byte} {c : Host.Cell} (h : c ∈ m.store i bs) :
    c.1 < i + bs.length ∨ c ∈ m := by
  induction bs generalizing m i with
  | nil => exact .inr h
  | cons b bs ih =>
    rcases ih h with h | h
    · left; simp only [List.length_cons]; omega
    · rcases Memory.mem_write h with rfl | h
      · left; simp
      · exact .inr h

/-- The span a sequence was stored in holds the sequence. -/
theorem Memory.span_store (m : Memory) (i : Nat) (bs : List Byte) : (m.store i bs).span i bs.length = bs := by
  apply List.ext_getElem
  · simp
  · intro j h1 h2
    have : i ≤ i + j ∧ i + j < i + bs.length := by omega
    rw [Memory.span_getElem, Memory.read_store, dif_pos this]
    simp

end Sys2Proof.Machine
end

