-- ==== Sys2Proof/Laws/Operands.lean ====
section
/-! SUPPORT. The character string HS (spec/10_state.md R29): eight characters, read back as they were packed. -/

namespace Sys2Proof.Machine

theorem unpack_packChars (a b c d : Byte) : unpackChars (packChars a b c d) = [a, b, c, d] := by
  simp only [unpackChars, packChars, List.cons.injEq, and_true]
  refine ⟨?_, ?_, ?_, ?_⟩ <;>
    · apply BitVec.eq_of_getLsbD_eq
      intro i hi
      simp only [BitVec.getLsbD_extractLsb', BitVec.getLsbD_append]
      interval_cases i <;> simp

theorem pack_unpackChars (w : Word) :
    packChars (w.extractLsb' 24 8) (w.extractLsb' 16 8) (w.extractLsb' 8 8) (w.extractLsb' 0 8) = w := by
  apply BitVec.eq_of_getLsbD_eq
  intro i hi
  simp only [packChars, BitVec.getLsbD_extractLsb', BitVec.getLsbD_append]
  interval_cases i <;> simp

@[simp] theorem State.hs_length (s : State) : s.hs.length = 8 := rfl

@[simp] theorem State.hs_raise (s : State) (r : Result) : (s.raise r).hs = s.hs := rfl

/-- What HS holds after a write of a string: its characters, then zeros (R29, R104). -/
theorem State.hs_setHs (s : State) (cs : List Byte) (h : cs.length ≤ 8) :
    (s.setHs cs).hs = cs ++ List.replicate (8 - cs.length) 0#8 := by
  simp only [State.hs, State.setHs, unpack_packChars]
  obtain _ | ⟨a, _ | ⟨b, _ | ⟨c, _ | ⟨d, _ | ⟨e, _ | ⟨f, _ | ⟨g, _ | ⟨i, _ | ⟨j, k⟩⟩⟩⟩⟩⟩⟩⟩⟩ := cs <;>
    first
      | rfl
      | (simp at h; omega)

end Sys2Proof.Machine
end

