-- ==== Sys2Proof/Laws/State.lean ====
section
/-! SUPPORT. The field lemmas of every state update: what each update does to each field, true by definition, so that
no later proof unfolds a record update. -/

namespace Sys2Proof.Machine

variable (s : State)

/-! ### `raise` -/

@[simp] theorem State.raise_cfg (r : Result) : (s.raise r).cfg = s.cfg := rfl
@[simp] theorem State.raise_result (r : Result) : (s.raise r).result = r := rfl
@[simp] theorem State.raise_rxdone (r : Result) : (s.raise r).rxdone = s.rxdone := rfl
@[simp] theorem State.raise_rxovf (r : Result) : (s.raise r).rxovf = s.rxovf := rfl
@[simp] theorem State.raise_rxlate (r : Result) : (s.raise r).rxlate = s.rxlate := rfl
@[simp] theorem State.raise_txframe (r : Result) : (s.raise r).txframe = s.txframe := rfl
@[simp] theorem State.raise_acc (r : Result) : (s.raise r).acc = s.acc := rfl
@[simp] theorem State.raise_hexval (r : Result) : (s.raise r).hexval = s.hexval := rfl
@[simp] theorem State.raise_hexstrHi (r : Result) : (s.raise r).hexstrHi = s.hexstrHi := rfl
@[simp] theorem State.raise_hexstrLo (r : Result) : (s.raise r).hexstrLo = s.hexstrLo := rfl
@[simp] theorem State.raise_ilen (r : Result) : (s.raise r).ilen = s.ilen := rfl
@[simp] theorem State.raise_tlen (r : Result) : (s.raise r).tlen = s.tlen := rfl
@[simp] theorem State.raise_bodyLen (r : Result) : (s.raise r).bodyLen = s.bodyLen := rfl
@[simp] theorem State.raise_deverrValid (r : Result) : (s.raise r).deverrValid = s.deverrValid := rfl
@[simp] theorem State.raise_deverrCode (r : Result) : (s.raise r).deverrCode = s.deverrCode := rfl
@[simp] theorem State.raise_fcrc (r : Result) : (s.raise r).fcrc = s.fcrc := rfl
@[simp] theorem State.raise_ibuf (r : Result) : (s.raise r).ibuf = s.ibuf := rfl
@[simp] theorem State.raise_tbuf (r : Result) : (s.raise r).tbuf = s.tbuf := rfl
@[simp] theorem State.raise_pending (r : Result) : (s.raise r).pending = s.pending := rfl
@[simp] theorem State.raise_returned (r : Result) : (s.raise r).returned = s.returned := rfl

/-! ### `clearRxFlags` -/

@[simp] theorem State.clearRxFlags_cfg : (s.clearRxFlags).cfg = s.cfg := rfl
@[simp] theorem State.clearRxFlags_result : (s.clearRxFlags).result = s.result := rfl
@[simp] theorem State.clearRxFlags_rxdone : (s.clearRxFlags).rxdone = false := rfl
@[simp] theorem State.clearRxFlags_rxovf : (s.clearRxFlags).rxovf = false := rfl
@[simp] theorem State.clearRxFlags_rxlate : (s.clearRxFlags).rxlate = false := rfl
@[simp] theorem State.clearRxFlags_txframe : (s.clearRxFlags).txframe = s.txframe := rfl
@[simp] theorem State.clearRxFlags_acc : (s.clearRxFlags).acc = s.acc := rfl
@[simp] theorem State.clearRxFlags_hexval : (s.clearRxFlags).hexval = s.hexval := rfl
@[simp] theorem State.clearRxFlags_hexstrHi : (s.clearRxFlags).hexstrHi = s.hexstrHi := rfl
@[simp] theorem State.clearRxFlags_hexstrLo : (s.clearRxFlags).hexstrLo = s.hexstrLo := rfl
@[simp] theorem State.clearRxFlags_ilen : (s.clearRxFlags).ilen = s.ilen := rfl
@[simp] theorem State.clearRxFlags_tlen : (s.clearRxFlags).tlen = s.tlen := rfl
@[simp] theorem State.clearRxFlags_bodyLen : (s.clearRxFlags).bodyLen = s.bodyLen := rfl
@[simp] theorem State.clearRxFlags_deverrValid : (s.clearRxFlags).deverrValid = s.deverrValid := rfl
@[simp] theorem State.clearRxFlags_deverrCode : (s.clearRxFlags).deverrCode = s.deverrCode := rfl
@[simp] theorem State.clearRxFlags_fcrc : (s.clearRxFlags).fcrc = s.fcrc := rfl
@[simp] theorem State.clearRxFlags_ibuf : (s.clearRxFlags).ibuf = s.ibuf := rfl
@[simp] theorem State.clearRxFlags_tbuf : (s.clearRxFlags).tbuf = s.tbuf := rfl
@[simp] theorem State.clearRxFlags_pending : (s.clearRxFlags).pending = s.pending := rfl
@[simp] theorem State.clearRxFlags_returned : (s.clearRxFlags).returned = s.returned := rfl

/-! ### `clearParse` -/

@[simp] theorem State.clearParse_cfg : (s.clearParse).cfg = s.cfg := rfl
@[simp] theorem State.clearParse_result : (s.clearParse).result = s.result := rfl
@[simp] theorem State.clearParse_rxdone : (s.clearParse).rxdone = s.rxdone := rfl
@[simp] theorem State.clearParse_rxovf : (s.clearParse).rxovf = s.rxovf := rfl
@[simp] theorem State.clearParse_rxlate : (s.clearParse).rxlate = s.rxlate := rfl
@[simp] theorem State.clearParse_txframe : (s.clearParse).txframe = s.txframe := rfl
@[simp] theorem State.clearParse_acc : (s.clearParse).acc = s.acc := rfl
@[simp] theorem State.clearParse_hexval : (s.clearParse).hexval = s.hexval := rfl
@[simp] theorem State.clearParse_hexstrHi : (s.clearParse).hexstrHi = s.hexstrHi := rfl
@[simp] theorem State.clearParse_hexstrLo : (s.clearParse).hexstrLo = s.hexstrLo := rfl
@[simp] theorem State.clearParse_ilen : (s.clearParse).ilen = s.ilen := rfl
@[simp] theorem State.clearParse_tlen : (s.clearParse).tlen = s.tlen := rfl
@[simp] theorem State.clearParse_bodyLen : (s.clearParse).bodyLen = 0#9 := rfl
@[simp] theorem State.clearParse_deverrValid : (s.clearParse).deverrValid = false := rfl
@[simp] theorem State.clearParse_deverrCode : (s.clearParse).deverrCode = 0#8 := rfl
@[simp] theorem State.clearParse_fcrc : (s.clearParse).fcrc = s.fcrc := rfl
@[simp] theorem State.clearParse_ibuf : (s.clearParse).ibuf = s.ibuf := rfl
@[simp] theorem State.clearParse_tbuf : (s.clearParse).tbuf = s.tbuf := rfl
@[simp] theorem State.clearParse_pending : (s.clearParse).pending = s.pending := rfl
@[simp] theorem State.clearParse_returned : (s.clearParse).returned = s.returned := rfl

/-! ### `emptyRx` -/

@[simp] theorem State.emptyRx_cfg : (s.emptyRx).cfg = s.cfg := rfl
@[simp] theorem State.emptyRx_result : (s.emptyRx).result = s.result := rfl
@[simp] theorem State.emptyRx_rxdone : (s.emptyRx).rxdone = false := rfl
@[simp] theorem State.emptyRx_rxovf : (s.emptyRx).rxovf = false := rfl
@[simp] theorem State.emptyRx_rxlate : (s.emptyRx).rxlate = false := rfl
@[simp] theorem State.emptyRx_txframe : (s.emptyRx).txframe = s.txframe := rfl
@[simp] theorem State.emptyRx_acc : (s.emptyRx).acc = s.acc := rfl
@[simp] theorem State.emptyRx_hexval : (s.emptyRx).hexval = s.hexval := rfl
@[simp] theorem State.emptyRx_hexstrHi : (s.emptyRx).hexstrHi = s.hexstrHi := rfl
@[simp] theorem State.emptyRx_hexstrLo : (s.emptyRx).hexstrLo = s.hexstrLo := rfl
@[simp] theorem State.emptyRx_ilen : (s.emptyRx).ilen = 0#9 := rfl
@[simp] theorem State.emptyRx_tlen : (s.emptyRx).tlen = s.tlen := rfl
@[simp] theorem State.emptyRx_bodyLen : (s.emptyRx).bodyLen = 0#9 := rfl
@[simp] theorem State.emptyRx_deverrValid : (s.emptyRx).deverrValid = false := rfl
@[simp] theorem State.emptyRx_deverrCode : (s.emptyRx).deverrCode = 0#8 := rfl
@[simp] theorem State.emptyRx_fcrc : (s.emptyRx).fcrc = s.fcrc := rfl
@[simp] theorem State.emptyRx_ibuf : (s.emptyRx).ibuf = s.ibuf := rfl
@[simp] theorem State.emptyRx_tbuf : (s.emptyRx).tbuf = s.tbuf := rfl
@[simp] theorem State.emptyRx_pending : (s.emptyRx).pending = s.pending := rfl
@[simp] theorem State.emptyRx_returned : (s.emptyRx).returned = s.returned := rfl

/-! ### `appendRx` -/

@[simp] theorem State.appendRx_cfg (b : Byte) : (s.appendRx b).cfg = s.cfg := rfl
@[simp] theorem State.appendRx_result (b : Byte) : (s.appendRx b).result = s.result := rfl
@[simp] theorem State.appendRx_rxdone (b : Byte) : (s.appendRx b).rxdone = (s.rxdone || (b == s.cfg.term)) := rfl
@[simp] theorem State.appendRx_rxovf (b : Byte) : (s.appendRx b).rxovf = s.rxovf := rfl
@[simp] theorem State.appendRx_rxlate (b : Byte) : (s.appendRx b).rxlate = s.rxlate := rfl
@[simp] theorem State.appendRx_txframe (b : Byte) : (s.appendRx b).txframe = s.txframe := rfl
@[simp] theorem State.appendRx_acc (b : Byte) : (s.appendRx b).acc = s.acc := rfl
@[simp] theorem State.appendRx_hexval (b : Byte) : (s.appendRx b).hexval = s.hexval := rfl
@[simp] theorem State.appendRx_hexstrHi (b : Byte) : (s.appendRx b).hexstrHi = s.hexstrHi := rfl
@[simp] theorem State.appendRx_hexstrLo (b : Byte) : (s.appendRx b).hexstrLo = s.hexstrLo := rfl
@[simp] theorem State.appendRx_ilen (b : Byte) : (s.appendRx b).ilen = s.ilen + 1#9 := rfl
@[simp] theorem State.appendRx_tlen (b : Byte) : (s.appendRx b).tlen = s.tlen := rfl
@[simp] theorem State.appendRx_bodyLen (b : Byte) : (s.appendRx b).bodyLen = s.bodyLen := rfl
@[simp] theorem State.appendRx_deverrValid (b : Byte) : (s.appendRx b).deverrValid = s.deverrValid := rfl
@[simp] theorem State.appendRx_deverrCode (b : Byte) : (s.appendRx b).deverrCode = s.deverrCode := rfl
@[simp] theorem State.appendRx_fcrc (b : Byte) : (s.appendRx b).fcrc = s.fcrc := rfl
@[simp] theorem State.appendRx_ibuf (b : Byte) : (s.appendRx b).ibuf = s.ibuf.write s.ilen.toNat b := rfl
@[simp] theorem State.appendRx_tbuf (b : Byte) : (s.appendRx b).tbuf = s.tbuf := rfl
@[simp] theorem State.appendRx_pending (b : Byte) : (s.appendRx b).pending = s.pending := rfl
@[simp] theorem State.appendRx_returned (b : Byte) : (s.appendRx b).returned = s.returned := rfl

/-! ### `emptyTx` -/

@[simp] theorem State.emptyTx_cfg : (s.emptyTx).cfg = s.cfg := rfl
@[simp] theorem State.emptyTx_result : (s.emptyTx).result = s.result := rfl
@[simp] theorem State.emptyTx_rxdone : (s.emptyTx).rxdone = s.rxdone := rfl
@[simp] theorem State.emptyTx_rxovf : (s.emptyTx).rxovf = s.rxovf := rfl
@[simp] theorem State.emptyTx_rxlate : (s.emptyTx).rxlate = s.rxlate := rfl
@[simp] theorem State.emptyTx_txframe : (s.emptyTx).txframe = false := rfl
@[simp] theorem State.emptyTx_acc : (s.emptyTx).acc = s.acc := rfl
@[simp] theorem State.emptyTx_hexval : (s.emptyTx).hexval = s.hexval := rfl
@[simp] theorem State.emptyTx_hexstrHi : (s.emptyTx).hexstrHi = s.hexstrHi := rfl
@[simp] theorem State.emptyTx_hexstrLo : (s.emptyTx).hexstrLo = s.hexstrLo := rfl
@[simp] theorem State.emptyTx_ilen : (s.emptyTx).ilen = s.ilen := rfl
@[simp] theorem State.emptyTx_tlen : (s.emptyTx).tlen = 0#9 := rfl
@[simp] theorem State.emptyTx_bodyLen : (s.emptyTx).bodyLen = s.bodyLen := rfl
@[simp] theorem State.emptyTx_deverrValid : (s.emptyTx).deverrValid = s.deverrValid := rfl
@[simp] theorem State.emptyTx_deverrCode : (s.emptyTx).deverrCode = s.deverrCode := rfl
@[simp] theorem State.emptyTx_fcrc : (s.emptyTx).fcrc = s.fcrc := rfl
@[simp] theorem State.emptyTx_ibuf : (s.emptyTx).ibuf = s.ibuf := rfl
@[simp] theorem State.emptyTx_tbuf : (s.emptyTx).tbuf = s.tbuf := rfl
@[simp] theorem State.emptyTx_pending : (s.emptyTx).pending = s.pending := rfl
@[simp] theorem State.emptyTx_returned : (s.emptyTx).returned = s.returned := rfl

/-! ### `appendTx` -/

@[simp] theorem State.appendTx_cfg (b : Byte) : (s.appendTx b).cfg = s.cfg := rfl
@[simp] theorem State.appendTx_result (b : Byte) : (s.appendTx b).result = s.result := rfl
@[simp] theorem State.appendTx_rxdone (b : Byte) : (s.appendTx b).rxdone = s.rxdone := rfl
@[simp] theorem State.appendTx_rxovf (b : Byte) : (s.appendTx b).rxovf = s.rxovf := rfl
@[simp] theorem State.appendTx_rxlate (b : Byte) : (s.appendTx b).rxlate = s.rxlate := rfl
@[simp] theorem State.appendTx_txframe (b : Byte) : (s.appendTx b).txframe = s.txframe := rfl
@[simp] theorem State.appendTx_acc (b : Byte) : (s.appendTx b).acc = s.acc := rfl
@[simp] theorem State.appendTx_hexval (b : Byte) : (s.appendTx b).hexval = s.hexval := rfl
@[simp] theorem State.appendTx_hexstrHi (b : Byte) : (s.appendTx b).hexstrHi = s.hexstrHi := rfl
@[simp] theorem State.appendTx_hexstrLo (b : Byte) : (s.appendTx b).hexstrLo = s.hexstrLo := rfl
@[simp] theorem State.appendTx_ilen (b : Byte) : (s.appendTx b).ilen = s.ilen := rfl
@[simp] theorem State.appendTx_tlen (b : Byte) : (s.appendTx b).tlen = s.tlen + 1#9 := rfl
@[simp] theorem State.appendTx_bodyLen (b : Byte) : (s.appendTx b).bodyLen = s.bodyLen := rfl
@[simp] theorem State.appendTx_deverrValid (b : Byte) : (s.appendTx b).deverrValid = s.deverrValid := rfl
@[simp] theorem State.appendTx_deverrCode (b : Byte) : (s.appendTx b).deverrCode = s.deverrCode := rfl
@[simp] theorem State.appendTx_fcrc (b : Byte) : (s.appendTx b).fcrc = s.fcrc := rfl
@[simp] theorem State.appendTx_ibuf (b : Byte) : (s.appendTx b).ibuf = s.ibuf := rfl
@[simp] theorem State.appendTx_tbuf (b : Byte) : (s.appendTx b).tbuf = s.tbuf.write s.tlen.toNat b := rfl
@[simp] theorem State.appendTx_pending (b : Byte) : (s.appendTx b).pending = s.pending := rfl
@[simp] theorem State.appendTx_returned (b : Byte) : (s.appendTx b).returned = s.returned := rfl

/-! ### `holdFrame` -/

@[simp] theorem State.holdFrame_cfg (f : List Byte) (c : Word) : (s.holdFrame f c).cfg = s.cfg := rfl
@[simp] theorem State.holdFrame_result (f : List Byte) (c : Word) : (s.holdFrame f c).result = s.result := rfl
@[simp] theorem State.holdFrame_rxdone (f : List Byte) (c : Word) : (s.holdFrame f c).rxdone = s.rxdone := rfl
@[simp] theorem State.holdFrame_rxovf (f : List Byte) (c : Word) : (s.holdFrame f c).rxovf = s.rxovf := rfl
@[simp] theorem State.holdFrame_rxlate (f : List Byte) (c : Word) : (s.holdFrame f c).rxlate = s.rxlate := rfl
@[simp] theorem State.holdFrame_txframe (f : List Byte) (c : Word) : (s.holdFrame f c).txframe = true := rfl
@[simp] theorem State.holdFrame_acc (f : List Byte) (c : Word) : (s.holdFrame f c).acc = s.acc := rfl
@[simp] theorem State.holdFrame_hexval (f : List Byte) (c : Word) : (s.holdFrame f c).hexval = s.hexval := rfl
@[simp] theorem State.holdFrame_hexstrHi (f : List Byte) (c : Word) : (s.holdFrame f c).hexstrHi = s.hexstrHi := rfl
@[simp] theorem State.holdFrame_hexstrLo (f : List Byte) (c : Word) : (s.holdFrame f c).hexstrLo = s.hexstrLo := rfl
@[simp] theorem State.holdFrame_ilen (f : List Byte) (c : Word) : (s.holdFrame f c).ilen = s.ilen := rfl
@[simp] theorem State.holdFrame_tlen (f : List Byte) (c : Word) :
    (s.holdFrame f c).tlen = BitVec.ofNat 9 f.length := rfl
@[simp] theorem State.holdFrame_bodyLen (f : List Byte) (c : Word) : (s.holdFrame f c).bodyLen = s.bodyLen := rfl
@[simp] theorem State.holdFrame_deverrValid (f : List Byte) (c : Word) :
    (s.holdFrame f c).deverrValid = s.deverrValid := rfl
@[simp] theorem State.holdFrame_deverrCode (f : List Byte) (c : Word) :
    (s.holdFrame f c).deverrCode = s.deverrCode := rfl
@[simp] theorem State.holdFrame_fcrc (f : List Byte) (c : Word) : (s.holdFrame f c).fcrc = c := rfl
@[simp] theorem State.holdFrame_ibuf (f : List Byte) (c : Word) : (s.holdFrame f c).ibuf = s.ibuf := rfl
@[simp] theorem State.holdFrame_tbuf (f : List Byte) (c : Word) : (s.holdFrame f c).tbuf = s.tbuf.store 0 f := rfl
@[simp] theorem State.holdFrame_pending (f : List Byte) (c : Word) : (s.holdFrame f c).pending = s.pending := rfl
@[simp] theorem State.holdFrame_returned (f : List Byte) (c : Word) : (s.holdFrame f c).returned = s.returned := rfl

/-! ### `recordParse` -/

@[simp] theorem State.recordParse_cfg (n : Nat) (v : Bool) (c : Byte) : (s.recordParse n v c).cfg = s.cfg := rfl
@[simp] theorem State.recordParse_result (n : Nat) (v : Bool) (c : Byte) :
    (s.recordParse n v c).result = s.result := rfl
@[simp] theorem State.recordParse_rxdone (n : Nat) (v : Bool) (c : Byte) :
    (s.recordParse n v c).rxdone = s.rxdone := rfl
@[simp] theorem State.recordParse_rxovf (n : Nat) (v : Bool) (c : Byte) : (s.recordParse n v c).rxovf = s.rxovf := rfl
@[simp] theorem State.recordParse_rxlate (n : Nat) (v : Bool) (c : Byte) :
    (s.recordParse n v c).rxlate = s.rxlate := rfl
@[simp] theorem State.recordParse_txframe (n : Nat) (v : Bool) (c : Byte) :
    (s.recordParse n v c).txframe = s.txframe := rfl
@[simp] theorem State.recordParse_acc (n : Nat) (v : Bool) (c : Byte) : (s.recordParse n v c).acc = s.acc := rfl
@[simp] theorem State.recordParse_hexval (n : Nat) (v : Bool) (c : Byte) :
    (s.recordParse n v c).hexval = s.hexval := rfl
@[simp] theorem State.recordParse_hexstrHi (n : Nat) (v : Bool) (c : Byte) :
    (s.recordParse n v c).hexstrHi = s.hexstrHi := rfl
@[simp] theorem State.recordParse_hexstrLo (n : Nat) (v : Bool) (c : Byte) :
    (s.recordParse n v c).hexstrLo = s.hexstrLo := rfl
@[simp] theorem State.recordParse_ilen (n : Nat) (v : Bool) (c : Byte) : (s.recordParse n v c).ilen = s.ilen := rfl
@[simp] theorem State.recordParse_tlen (n : Nat) (v : Bool) (c : Byte) : (s.recordParse n v c).tlen = s.tlen := rfl
@[simp] theorem State.recordParse_bodyLen (n : Nat) (v : Bool) (c : Byte) :
    (s.recordParse n v c).bodyLen = BitVec.ofNat 9 n := rfl
@[simp] theorem State.recordParse_deverrValid (n : Nat) (v : Bool) (c : Byte) :
    (s.recordParse n v c).deverrValid = v := rfl
@[simp] theorem State.recordParse_deverrCode (n : Nat) (v : Bool) (c : Byte) :
    (s.recordParse n v c).deverrCode = c := rfl
@[simp] theorem State.recordParse_fcrc (n : Nat) (v : Bool) (c : Byte) : (s.recordParse n v c).fcrc = s.fcrc := rfl
@[simp] theorem State.recordParse_ibuf (n : Nat) (v : Bool) (c : Byte) : (s.recordParse n v c).ibuf = s.ibuf := rfl
@[simp] theorem State.recordParse_tbuf (n : Nat) (v : Bool) (c : Byte) : (s.recordParse n v c).tbuf = s.tbuf := rfl
@[simp] theorem State.recordParse_pending (n : Nat) (v : Bool) (c : Byte) :
    (s.recordParse n v c).pending = s.pending := rfl
@[simp] theorem State.recordParse_returned (n : Nat) (v : Bool) (c : Byte) :
    (s.recordParse n v c).returned = s.returned := rfl

/-! ### `setHs` -/

@[simp] theorem State.setHs_cfg (cs : List Byte) : (s.setHs cs).cfg = s.cfg := rfl
@[simp] theorem State.setHs_result (cs : List Byte) : (s.setHs cs).result = s.result := rfl
@[simp] theorem State.setHs_rxdone (cs : List Byte) : (s.setHs cs).rxdone = s.rxdone := rfl
@[simp] theorem State.setHs_rxovf (cs : List Byte) : (s.setHs cs).rxovf = s.rxovf := rfl
@[simp] theorem State.setHs_rxlate (cs : List Byte) : (s.setHs cs).rxlate = s.rxlate := rfl
@[simp] theorem State.setHs_txframe (cs : List Byte) : (s.setHs cs).txframe = s.txframe := rfl
@[simp] theorem State.setHs_acc (cs : List Byte) : (s.setHs cs).acc = s.acc := rfl
@[simp] theorem State.setHs_hexval (cs : List Byte) : (s.setHs cs).hexval = s.hexval := rfl
@[simp] theorem State.setHs_hexstrHi (cs : List Byte) :
    (s.setHs cs).hexstrHi = packChars (cs.getD 0 0#8) (cs.getD 1 0#8) (cs.getD 2 0#8) (cs.getD 3 0#8) := rfl
@[simp] theorem State.setHs_hexstrLo (cs : List Byte) :
    (s.setHs cs).hexstrLo = packChars (cs.getD 4 0#8) (cs.getD 5 0#8) (cs.getD 6 0#8) (cs.getD 7 0#8) := rfl
@[simp] theorem State.setHs_ilen (cs : List Byte) : (s.setHs cs).ilen = s.ilen := rfl
@[simp] theorem State.setHs_tlen (cs : List Byte) : (s.setHs cs).tlen = s.tlen := rfl
@[simp] theorem State.setHs_bodyLen (cs : List Byte) : (s.setHs cs).bodyLen = s.bodyLen := rfl
@[simp] theorem State.setHs_deverrValid (cs : List Byte) : (s.setHs cs).deverrValid = s.deverrValid := rfl
@[simp] theorem State.setHs_deverrCode (cs : List Byte) : (s.setHs cs).deverrCode = s.deverrCode := rfl
@[simp] theorem State.setHs_fcrc (cs : List Byte) : (s.setHs cs).fcrc = s.fcrc := rfl
@[simp] theorem State.setHs_ibuf (cs : List Byte) : (s.setHs cs).ibuf = s.ibuf := rfl
@[simp] theorem State.setHs_tbuf (cs : List Byte) : (s.setHs cs).tbuf = s.tbuf := rfl
@[simp] theorem State.setHs_pending (cs : List Byte) : (s.setHs cs).pending = s.pending := rfl
@[simp] theorem State.setHs_returned (cs : List Byte) : (s.setHs cs).returned = s.returned := rfl

/-! ### `resetRegisters` -/

@[simp] theorem State.resetRegisters_cfg : (s.resetRegisters).cfg = s.cfg := rfl
@[simp] theorem State.resetRegisters_result : (s.resetRegisters).result = s.result := rfl
@[simp] theorem State.resetRegisters_rxdone : (s.resetRegisters).rxdone = false := rfl
@[simp] theorem State.resetRegisters_rxovf : (s.resetRegisters).rxovf = false := rfl
@[simp] theorem State.resetRegisters_rxlate : (s.resetRegisters).rxlate = false := rfl
@[simp] theorem State.resetRegisters_txframe : (s.resetRegisters).txframe = false := rfl
@[simp] theorem State.resetRegisters_acc : (s.resetRegisters).acc = crcInit := rfl
@[simp] theorem State.resetRegisters_hexval : (s.resetRegisters).hexval = 0#32 := rfl
@[simp] theorem State.resetRegisters_hexstrHi : (s.resetRegisters).hexstrHi = 0#32 := rfl
@[simp] theorem State.resetRegisters_hexstrLo : (s.resetRegisters).hexstrLo = 0#32 := rfl
@[simp] theorem State.resetRegisters_ilen : (s.resetRegisters).ilen = 0#9 := rfl
@[simp] theorem State.resetRegisters_tlen : (s.resetRegisters).tlen = 0#9 := rfl
@[simp] theorem State.resetRegisters_bodyLen : (s.resetRegisters).bodyLen = 0#9 := rfl
@[simp] theorem State.resetRegisters_deverrValid : (s.resetRegisters).deverrValid = false := rfl
@[simp] theorem State.resetRegisters_deverrCode : (s.resetRegisters).deverrCode = 0#8 := rfl
@[simp] theorem State.resetRegisters_fcrc : (s.resetRegisters).fcrc = 0#32 := rfl
@[simp] theorem State.resetRegisters_ibuf : (s.resetRegisters).ibuf = s.ibuf := rfl
@[simp] theorem State.resetRegisters_tbuf : (s.resetRegisters).tbuf = s.tbuf := rfl
@[simp] theorem State.resetRegisters_pending : (s.resetRegisters).pending = s.pending := rfl
@[simp] theorem State.resetRegisters_returned : (s.resetRegisters).returned = s.returned := rfl

/-! ### `recordCrc` -/

@[simp] theorem State.recordCrc_none : s.recordCrc none = s := rfl
@[simp] theorem State.recordCrc_fcrc_some (c : Word) : (s.recordCrc (some c)).fcrc = c := rfl

/-- FCRC is the only field FRAME.PARSE's record of the CRC can change (R34). -/
theorem State.recordCrc_eq (o : Option Word) : s.recordCrc o = { s with fcrc := o.getD s.fcrc } := by
  cases o <;> rfl

@[simp] theorem State.recordCrc_cfg (o : Option Word) : (s.recordCrc o).cfg = s.cfg := by cases o <;> rfl
@[simp] theorem State.recordCrc_result (o : Option Word) : (s.recordCrc o).result = s.result := by cases o <;> rfl
@[simp] theorem State.recordCrc_rxdone (o : Option Word) : (s.recordCrc o).rxdone = s.rxdone := by cases o <;> rfl
@[simp] theorem State.recordCrc_rxovf (o : Option Word) : (s.recordCrc o).rxovf = s.rxovf := by cases o <;> rfl
@[simp] theorem State.recordCrc_rxlate (o : Option Word) : (s.recordCrc o).rxlate = s.rxlate := by cases o <;> rfl
@[simp] theorem State.recordCrc_txframe (o : Option Word) : (s.recordCrc o).txframe = s.txframe := by cases o <;> rfl
@[simp] theorem State.recordCrc_acc (o : Option Word) : (s.recordCrc o).acc = s.acc := by cases o <;> rfl
@[simp] theorem State.recordCrc_hexval (o : Option Word) : (s.recordCrc o).hexval = s.hexval := by cases o <;> rfl
@[simp] theorem State.recordCrc_hexstrHi (o : Option Word) : (s.recordCrc o).hexstrHi = s.hexstrHi := by cases o <;> rfl
@[simp] theorem State.recordCrc_hexstrLo (o : Option Word) : (s.recordCrc o).hexstrLo = s.hexstrLo := by cases o <;> rfl
@[simp] theorem State.recordCrc_ilen (o : Option Word) : (s.recordCrc o).ilen = s.ilen := by cases o <;> rfl
@[simp] theorem State.recordCrc_tlen (o : Option Word) : (s.recordCrc o).tlen = s.tlen := by cases o <;> rfl
@[simp] theorem State.recordCrc_bodyLen (o : Option Word) : (s.recordCrc o).bodyLen = s.bodyLen := by cases o <;> rfl
@[simp] theorem State.recordCrc_deverrValid (o : Option Word) : (s.recordCrc o).deverrValid = s.deverrValid := by cases o <;> rfl
@[simp] theorem State.recordCrc_deverrCode (o : Option Word) : (s.recordCrc o).deverrCode = s.deverrCode := by cases o <;> rfl
@[simp] theorem State.recordCrc_ibuf (o : Option Word) : (s.recordCrc o).ibuf = s.ibuf := by cases o <;> rfl
@[simp] theorem State.recordCrc_tbuf (o : Option Word) : (s.recordCrc o).tbuf = s.tbuf := by cases o <;> rfl
@[simp] theorem State.recordCrc_pending (o : Option Word) : (s.recordCrc o).pending = s.pending := by cases o <;> rfl
@[simp] theorem State.recordCrc_returned (o : Option Word) : (s.recordCrc o).returned = s.returned := by cases o <;> rfl

end Sys2Proof.Machine
end

