-- ==== Sys2Proof/Laws/Exec.lean ====
section
/-! SUPPORT. What a command can do, said once: `Effect i s t` lists the ways command `i` can take `s` to `t`, and
`exec_effect` says these are all. Later proofs take a next state apart by `cases` on an `Effect`. -/

namespace Sys2Proof.Machine

/-- The ways a command can end, one constructor each (spec/40_hex_codec.md to spec/44_control.md). -/
inductive Effect : Instr → State → State → Prop where
  | nop (s : State) : Effect .nop s (s.raise .ok)
  | crcInit (s : State) : Effect .crcInit s (({ s with acc := crcInit } : State).raise .ok)
  | crcByte (b : Byte) (s : State) : Effect (.crcByte b) s (({ s with acc := crcStep s.acc b } : State).raise .ok)
  | crcHex (s : State) : Effect .crcHex s
      ((({ s with hexval := crcFinal s.acc } : State).setHs (hex8 (crcFinal s.acc))).raise .ok)
  | hexEncFail (d : Byte) (s : State) (h : encodeHex s.hexval d.toNat = none) :
      Effect (.hexEnc d) s (s.raise .precond)
  | hexEncOk (d : Byte) (s : State) (r : List Byte) (h : encodeHex s.hexval d.toNat = some r) :
      Effect (.hexEnc d) s ((s.setHs r).raise .ok)
  | hexDecFail (n : Byte) (s : State)
      (h : n.toNat < 1 ∨ n.toNat > 8 ∨ decodeHex (s.hs.take n.toNat) = none) :
      Effect (.hexDec n) s (s.raise .precond)
  | hexDecOk (n : Byte) (s : State) (v : Word) (h1 : 1 ≤ n.toNat) (h8 : n.toNat ≤ 8)
      (h : decodeHex (s.hs.take n.toNat) = some v) :
      Effect (.hexDec n) s (({ s with hexval := v } : State).raise .ok)
  | rxClear (s : State) : Effect .rxClear s (s.emptyRx.raise .ok)
  | rxPushLate (b : Byte) (s : State) (h : s.rxdone = true) :
      Effect (.rxPush b) s (({ s with rxlate := true } : State).raise .dropped)
  | rxPushFull (b : Byte) (s : State) (hd : s.rxdone = false) (h : s.ilen.toNat = s.cfg.bufSize) :
      Effect (.rxPush b) s (({ s with rxovf := true } : State).raise .dropped)
  | rxPushStore (b : Byte) (s : State) (hd : s.rxdone = false) (h : s.ilen.toNat ≠ s.cfg.bufSize) :
      Effect (.rxPush b) s ((s.appendRx b).raise .ok)
  | rxAbort (s : State) : Effect .rxAbort s (s.emptyRx.raise .timeout)
  | parseOk (s : State) (n : Nat) (o : Option Word) (h : parseFrame s.cfg s.received = (.ok n, o)) :
      Effect .frameParse s (((s.recordCrc o).recordParse n false 0#8).raise .ok)
  | parseDeverr (s : State) (code : Byte) (o : Option Word) (h : parseFrame s.cfg s.received = (.deverr code, o)) :
      Effect .frameParse s (((s.recordCrc o).recordParse 2 true code).raise .deverr)
  | parseMalformed (s : State) (o : Option Word) (h : parseFrame s.cfg s.received = (.malformed, o)) :
      Effect .frameParse s ((s.recordCrc o).emptyRx.raise .malformed)
  | parseIntegrity (s : State) (o : Option Word) (h : parseFrame s.cfg s.received = (.integrity, o)) :
      Effect .frameParse s ((s.recordCrc o).emptyRx.raise .integrity)
  | txClear (s : State) : Effect .txClear s (s.emptyTx.raise .ok)
  | txPushFail (b : Byte) (s : State) (h : s.txframe = true ∨ s.tlen.toNat = s.cfg.bufSize) :
      Effect (.txPush b) s (s.raise .precond)
  | txPushStore (b : Byte) (s : State) (hf : s.txframe = false) (h : s.tlen.toNat ≠ s.cfg.bufSize) :
      Effect (.txPush b) s ((s.appendTx b).raise .ok)
  | buildFail (cid : Byte) (dir : Direction) (s : State)
      (h : s.txframe = true ∨ 99 < cid.toNat ∨ s.cfg.bufSize < s.tlen.toNat + 16) :
      Effect (.frameBuild cid dir) s (s.raise .precond)
  | buildOk (cid : Byte) (dir : Direction) (s : State) (f : List Byte) (hf : s.txframe = false)
      (hc : cid.toNat ≤ 99) (hl : s.tlen.toNat + 16 ≤ s.cfg.bufSize)
      (h : buildFrame s.cfg.term cid.toNat dir s.outgoing = some f) :
      Effect (.frameBuild cid dir) s ((s.holdFrame f (crc32 (f.take (s.tlen.toNat + 6)))).raise .ok)
  | reset (s : State) : Effect .reset s (s.resetRegisters.raise .ok)

/-- Every command has a next state, and `Effect` names it (R200). -/
theorem exec_total (i : Instr) (s : State) : ∃ t, exec i s = .next t ∧ Effect i s t := by
  cases i with
  | nop => exact ⟨_, rfl, .nop s⟩
  | crcInit => exact ⟨_, rfl, .crcInit s⟩
  | crcByte b => exact ⟨_, rfl, .crcByte b s⟩
  | crcHex => exact ⟨_, rfl, .crcHex s⟩
  | hexEnc d =>
    cases h : encodeHex s.hexval d.toNat with
    | none => exact ⟨_, by simp only [exec, execHexEnc, immediate, h]; rfl, .hexEncFail d s h⟩
    | some r => exact ⟨_, by simp only [exec, execHexEnc, immediate, h]; rfl, .hexEncOk d s r h⟩
  | hexDec n =>
    by_cases hn : n.toNat < 1 ∨ n.toNat > 8
    · exact ⟨_, by simp only [exec, execHexDec, immediate, if_pos hn]; rfl, .hexDecFail n s (by tauto)⟩
    · cases h : decodeHex (s.hs.take n.toNat) with
      | none => exact ⟨_, by simp only [exec, execHexDec, immediate, if_neg hn, h]; rfl, .hexDecFail n s (by tauto)⟩
      | some v =>
        exact ⟨_, by simp only [exec, execHexDec, immediate, if_neg hn, h]; rfl,
          .hexDecOk n s v (by omega) (by omega) h⟩
  | rxClear => exact ⟨_, rfl, .rxClear s⟩
  | rxPush b =>
    by_cases hd : s.rxdone = true
    · exact ⟨_, by simp only [exec, execRxPush, hd, if_true]; rfl, .rxPushLate b s hd⟩
    · by_cases hl : s.ilen.toNat = s.cfg.bufSize
      · exact ⟨_, by simp only [exec, execRxPush, if_neg hd, if_pos hl]; rfl,
          .rxPushFull b s (by simpa using hd) hl⟩
      · exact ⟨_, by simp only [exec, execRxPush, if_neg hd, if_neg hl]; rfl,
          .rxPushStore b s (by simpa using hd) hl⟩
  | rxAbort => exact ⟨_, rfl, .rxAbort s⟩
  | frameParse =>
    obtain ⟨r, o⟩ : ∃ r o, parseFrame s.cfg s.received = (r, o) := ⟨_, _, rfl⟩
    obtain ⟨o, h⟩ := o
    cases r with
    | ok n => exact ⟨_, by simp only [exec, execFrameParse, h]; rfl, .parseOk s n o h⟩
    | deverr code => exact ⟨_, by simp only [exec, execFrameParse, h]; rfl, .parseDeverr s code o h⟩
    | malformed => exact ⟨_, by simp only [exec, execFrameParse, h]; rfl, .parseMalformed s o h⟩
    | integrity => exact ⟨_, by simp only [exec, execFrameParse, h]; rfl, .parseIntegrity s o h⟩
  | txClear => exact ⟨_, rfl, .txClear s⟩
  | txPush b =>
    by_cases hf : s.txframe = true
    · exact ⟨_, by simp only [exec, execTxPush, hf, if_true]; rfl, .txPushFail b s (.inl hf)⟩
    · by_cases hl : s.tlen.toNat = s.cfg.bufSize
      · exact ⟨_, by simp only [exec, execTxPush, if_neg hf, if_pos hl]; rfl, .txPushFail b s (.inr hl)⟩
      · exact ⟨_, by simp only [exec, execTxPush, if_neg hf, if_neg hl]; rfl,
          .txPushStore b s (by simpa using hf) hl⟩
  | frameBuild cid dir =>
    by_cases hf : s.txframe = true
    · exact ⟨_, by simp only [exec, execFrameBuild, hf, if_true]; rfl, .buildFail cid dir s (.inl hf)⟩
    · by_cases hc : cid.toNat > 99
      · exact ⟨_, by simp only [exec, execFrameBuild, immediate, if_neg hf, if_pos hc]; rfl,
          .buildFail cid dir s (.inr (.inl hc))⟩
      · by_cases hl : s.tlen.toNat + 16 > s.cfg.bufSize
        · exact ⟨_, by simp only [exec, execFrameBuild, immediate, if_neg hf, if_neg hc, if_pos hl]; rfl,
            .buildFail cid dir s (.inr (.inr hl))⟩
        · cases h : buildFrame s.cfg.term cid.toNat dir s.outgoing with
          | none => simp [buildFrame, hc] at h
          | some f =>
            exact ⟨_, by simp only [exec, execFrameBuild, immediate, if_neg hf, if_neg hc, if_neg hl, h]; rfl,
              .buildOk cid dir s f (by simpa using hf) (by omega) (by omega) h⟩
  | reset => exact ⟨_, rfl, .reset s⟩

/-- A command's next state is one of the listed effects. -/
theorem exec_effect {i : Instr} {s t : State} (h : exec i s = .next t) : Effect i s t := by
  obtain ⟨u, hu, he⟩ := exec_total i s
  rw [h] at hu
  cases hu
  exact he

/-- An effect is what the command answers: `Effect` and `exec` say the same. -/
theorem exec_of_effect {i : Instr} {s t : State} (h : Effect i s t) : exec i s = .next t := by
  cases h with
  | nop | crcInit | crcByte | crcHex | rxClear | rxAbort | txClear | reset => rfl
  | hexEncFail d _ h => simp only [exec, execHexEnc, immediate, h]; rfl
  | hexEncOk d _ r h => simp only [exec, execHexEnc, immediate, h]; rfl
  | hexDecFail n _ h =>
    simp only [exec, execHexDec, immediate]
    split
    · rfl
    · rw [show decodeHex (s.hs.take n.toNat) = none by tauto]; rfl
  | hexDecOk n _ v h1 h8 h => rw [exec, execHexDec, immediate, h, if_neg (by omega)]; rfl
  | rxPushLate b _ h => simp only [exec, execRxPush, h, if_true]; rfl
  | rxPushFull b _ hd h => simp [exec, execRxPush, hd, h]; rfl
  | rxPushStore b _ hd h => simp [exec, execRxPush, hd, h]; rfl
  | parseOk _ n o h => simp only [exec, execFrameParse, h]; rfl
  | parseDeverr _ n o h => simp only [exec, execFrameParse, h]; rfl
  | parseMalformed _ o h => simp only [exec, execFrameParse, h]; rfl
  | parseIntegrity _ o h => simp only [exec, execFrameParse, h]; rfl
  | txPushFail b _ h =>
    simp only [exec, execTxPush]
    split
    · rfl
    · rw [if_pos (by tauto)]; rfl
  | txPushStore b _ hf h => simp [exec, execTxPush, hf, h]; rfl
  | buildFail cid dir _ h =>
    simp only [exec, execFrameBuild, immediate]
    split
    · rfl
    · split
      · rfl
      · rw [if_pos (by tauto)]; rfl
  | buildOk cid dir _ f hf hc hl h =>
    simp only [exec, execFrameBuild, immediate]
    rw [if_neg (by simp [hf]), if_neg (by omega), if_neg (by omega), h]; rfl

/-- The host's side of the bus and the parameters are no command's (R35, R39). -/
theorem Effect.keeps_host {i : Instr} {s t : State} (h : Effect i s t) :
    t.cfg = s.cfg ∧ t.pending = s.pending ∧ t.returned = s.returned := by
  cases h <;> simp

/-- What a command does is independent of the accesses still to be served, and leaves them. -/
theorem Effect.withPending {i : Instr} {s t : State} (h : Effect i s t) (p : List Access) :
    Effect i { s with pending := p } { t with pending := p } := by
  cases h with
  | nop => exact .nop _
  | crcInit => exact .crcInit _
  | crcByte b => exact .crcByte b _
  | crcHex => exact .crcHex _
  | hexEncFail d _ h => exact .hexEncFail d _ h
  | hexEncOk d _ r h => exact .hexEncOk d _ r h
  | hexDecFail n _ h => exact .hexDecFail n _ h
  | hexDecOk n _ v h1 h8 h => exact .hexDecOk n _ v h1 h8 h
  | rxClear => exact .rxClear _
  | rxPushLate b _ h => exact .rxPushLate b _ h
  | rxPushFull b _ hd h => exact .rxPushFull b _ hd h
  | rxPushStore b _ hd h => exact .rxPushStore b _ hd h
  | rxAbort => exact .rxAbort _
  | parseOk _ n o h => cases o <;> exact .parseOk { s with pending := p } n _ h
  | parseDeverr _ c o h => cases o <;> exact .parseDeverr { s with pending := p } c _ h
  | parseMalformed _ o h => cases o <;> exact .parseMalformed { s with pending := p } _ h
  | parseIntegrity _ o h => cases o <;> exact .parseIntegrity { s with pending := p } _ h
  | txClear => exact .txClear _
  | txPushFail b _ h => exact .txPushFail b _ h
  | txPushStore b _ hf h => exact .txPushStore b _ hf h
  | buildFail cid dir _ h => exact .buildFail cid dir _ h
  | buildOk cid dir _ f hf hc hl h => exact .buildOk cid dir _ f hf hc hl h
  | reset => exact .reset _

/-! ### The valid bytes of the buffers -/

@[simp] theorem State.received_length (s : State) : s.received.length = s.ilen.toNat := by simp [State.received]

@[simp] theorem State.outgoing_length (s : State) : s.outgoing.length = s.tlen.toNat := by simp [State.outgoing]

@[simp] theorem State.received_raise (s : State) (r : Result) : (s.raise r).received = s.received := rfl

@[simp] theorem State.outgoing_raise (s : State) (r : Result) : (s.raise r).outgoing = s.outgoing := rfl

theorem State.received_getElem? (s : State) {k : Nat} (h : k < s.ilen.toNat) :
    s.received[k]? = some (s.ibuf.read k) := by
  simp [State.received, Memory.span, h]

theorem State.outgoing_getElem? (s : State) {k : Nat} (h : k < s.tlen.toNat) :
    s.outgoing[k]? = some (s.tbuf.read k) := by
  simp [State.outgoing, Memory.span, h]

/-- ILEN after a stored byte, below the 9-bit wrap. -/
theorem len_succ {n : Len} (h : n.toNat < 511) : (n + 1#9).toNat = n.toNat + 1 := by
  rw [BitVec.toNat_add]; simp; omega

/-- The valid bytes after a stored byte are the old ones and the new one (R166). -/
theorem State.received_appendRx (s : State) (b : Byte) (h : s.ilen.toNat < 511) :
    (s.appendRx b).received = s.received ++ [b] := by
  simp only [State.received, State.appendRx_ibuf, State.appendRx_ilen, len_succ h, Memory.span_succ]
  rw [Memory.span_congr (m := s.ibuf)]
  · simp
  · intro j hj; exact Memory.read_write_other _ _ (by omega)

/-- The valid bytes after a stored parameter byte (R143). -/
theorem State.outgoing_appendTx (s : State) (b : Byte) (h : s.tlen.toNat < 511) :
    (s.appendTx b).outgoing = s.outgoing ++ [b] := by
  simp only [State.outgoing, State.appendTx_tbuf, State.appendTx_tlen, len_succ h, Memory.span_succ]
  rw [Memory.span_congr (m := s.tbuf)]
  · simp
  · intro j hj; exact Memory.read_write_other _ _ (by omega)

/-- The valid bytes of TBUF after a built frame are the frame (R144). -/
theorem State.outgoing_holdFrame (s : State) (f : List Byte) (c : Word) (h : f.length < 512) :
    (s.holdFrame f c).outgoing = f := by
  simp only [State.outgoing, State.holdFrame_tbuf, State.holdFrame_tlen, BitVec.toNat_ofNat, Nat.mod_eq_of_lt h]
  exact Memory.span_store _ _ _

end Sys2Proof.Machine
end

