-- ==== Sys2Proof/Laws/Bus.lean ====
section
/-! SUPPORT. The laws of the bus: the register map (spec/10_state.md R21), what each window word reads, a step on an
access the spec defines, and every way a step can have a next state. -/

namespace Sys2Proof.Machine

/-! ### The register map -/

theorem targetOf_register (r : Reg) : targetOf (regOffset r) = .register r := by cases r <;> decide

/-- An offset above the last register selects no register. -/
theorem targetOf_high {off : Nat} (h : 0x030 < off) :
    targetOf off =
      if 0x400 ≤ off ∧ off < 0x800 then .ibufWord ((off - 0x400) / 4)
      else if 0x800 ≤ off ∧ off < 0xC00 then .tbufWord ((off - 0x800) / 4)
      else .reserved := by
  have : (allRegs.find? fun r => regOffset r == off) = none := by
    refine List.find?_eq_none.2 fun r _ => ?_
    have : regOffset r ≤ 0x030 := by cases r <;> decide
    simp; omega
  rw [targetOf, this]

theorem targetOf_ibuf {k : Nat} (h : k < 256) : targetOf (0x400 + 4 * k) = .ibufWord k := by
  rw [targetOf_high (by omega), if_pos (by omega)]; congr 1; omega

theorem targetOf_tbuf {k : Nat} (h : k < 256) : targetOf (0x800 + 4 * k) = .tbufWord k := by
  rw [targetOf_high (by omega), if_neg (by omega), if_pos (by omega)]; congr 1; omega

theorem targetOf_reserved {off : Nat} (h : (0x034 ≤ off ∧ off < 0x400) ∨ 0xC00 ≤ off) :
    targetOf off = .reserved := by
  rw [targetOf_high (by omega), if_neg (by omega), if_neg (by omega)]

/-- Every aligned offset is a register's, a buffer window's or reserved (R21). -/
theorem offset_cases {off : Nat} (h4 : off % 4 = 0) :
    (∃ r, off = regOffset r) ∨ (∃ k, k < 256 ∧ off = 0x400 + 4 * k) ∨ (∃ k, k < 256 ∧ off = 0x800 + 4 * k) ∨
      (0x034 ≤ off ∧ off < 0x400) ∨ 0xC00 ≤ off := by
  by_cases h1 : off ≤ 0x030
  · left
    obtain ⟨m, rfl⟩ : ∃ m, off = 4 * m := ⟨off / 4, by omega⟩
    have : m ≤ 12 := by omega
    interval_cases m
    exacts [⟨.cmd, rfl⟩, ⟨.status, rfl⟩, ⟨.crcAcc, rfl⟩, ⟨.crcOut, rfl⟩, ⟨.hexval, rfl⟩, ⟨.hexstrHi, rfl⟩,
      ⟨.hexstrLo, rfl⟩, ⟨.ilen, rfl⟩, ⟨.tlen, rfl⟩, ⟨.bodyLen, rfl⟩, ⟨.deverr, rfl⟩, ⟨.fcrc, rfl⟩, ⟨.config, rfl⟩]
  · by_cases h2 : 0x400 ≤ off ∧ off < 0x800
    · exact .inr (.inl ⟨(off - 0x400) / 4, by omega, by omega⟩)
    · by_cases h3 : 0x800 ≤ off ∧ off < 0xC00
      · exact .inr (.inr (.inl ⟨(off - 0x800) / 4, by omega, by omega⟩))
      · right; right; right; omega

/-! ### Reads -/

theorem State.windowRead_register (s : State) (r : Reg) : s.windowRead (regOffset r) = s.readReg r := by
  rw [State.windowRead, targetOf_register]

theorem State.windowRead_ibuf (s : State) {k : Nat} (h : k < 256) :
    s.windowRead (0x400 + 4 * k) = bufferWord s.ibuf s.ilen k := by
  rw [State.windowRead, targetOf_ibuf h]

theorem State.windowRead_tbuf (s : State) {k : Nat} (h : k < 256) :
    s.windowRead (0x800 + 4 * k) = bufferWord s.tbuf s.tlen k := by
  rw [State.windowRead, targetOf_tbuf h]

theorem State.windowRead_reserved (s : State) {off : Nat} (h : (0x034 ≤ off ∧ off < 0x400) ∨ 0xC00 ≤ off) :
    s.windowRead off = 0#32 := by
  rw [State.windowRead, targetOf_reserved h]

/-! ### Steps -/

/-- An access the spec defines, at an offset of the window, is served. -/
theorem State.serve_wordAccess (s : State) {off : Nat} (op : BusOp) (ho : off < 4096) (h4 : off % 4 = 0) :
    s.serve (wordAccess s.cfg off op) =
      match op with
      | .read => .next { s with returned := s.windowRead off :: s.returned }
      | .write v => s.windowWrite off v := by
  have h1 : ¬ (s.cfg.base + off < s.cfg.base ∨ s.cfg.base + 4096 ≤ s.cfg.base + off) := by omega
  have h2 : s.cfg.base + off - s.cfg.base = off := Nat.add_sub_cancel_left _ _
  have h3 : ¬ (off % 4 ≠ 0) := not_not.2 h4
  unfold State.serve wordAccess
  dsimp only
  cases op <;> rw [if_neg h1, if_neg (by simp), h2, if_neg h3]

/-- A step on a read. -/
theorem step_read {s : State} {off : Nat} {rest : List Access} (hp : s.pending = wordAccess s.cfg off .read :: rest)
    (ho : off < 4096) (h4 : off % 4 = 0) :
    step s = .next { s with pending := rest, returned := s.windowRead off :: s.returned } := by
  rw [step, serveNext, hp]
  exact State.serve_wordAccess { s with pending := rest } .read ho h4

/-- A step on a write. -/
theorem step_write {s : State} {off : Nat} {v : Word} {rest : List Access}
    (hp : s.pending = wordAccess s.cfg off (.write v) :: rest) (ho : off < 4096) (h4 : off % 4 = 0) :
    step s = ({ s with pending := rest } : State).windowWrite off v := by
  rw [step, serveNext, hp]
  exact State.serve_wordAccess { s with pending := rest } (.write v) ho h4

/-- A step on a CMD write. -/
theorem step_cmdWrite {s : State} {w : Word} {rest : List Access} (hp : s.pending = cmdWrite s.cfg w :: rest) :
    step s = ({ s with pending := rest } : State).command w := by
  rw [step_write (off := 0) hp (by decide) rfl]
  show State.windowWrite _ (regOffset .cmd) w = _
  rw [State.windowWrite, targetOf_register]; rfl

theorem State.command_of_decode {s : State} {w : Word} {i : Instr} (h : decode w = .ok i) :
    s.command w = exec i s := by rw [State.command, h]

theorem State.command_of_illegal {s : State} {w : Word} (h : ¬ (fieldsOf w).Legal) :
    s.command w = .next (s.raise .badcmd) := by
  obtain ⟨e, he⟩ := (decode_error_iff w).2 h
  rw [State.command, he]; rfl

/-- Every way a step can have a next state (R4): the host idle, a read, a register write, an ignored write, an illegal
word, or a command. -/
inductive Served : State → State → Prop where
  | idle (s : State) (h : s.pending = []) : Served s s
  | read (s : State) (off : Nat) (rest : List Access) (h : s.pending = wordAccess s.cfg off .read :: rest)
      (ho : off < 4096) (h4 : off % 4 = 0) :
      Served s { s with pending := rest, returned := s.windowRead off :: s.returned }
  | hexval (s : State) (v : Word) (rest : List Access) (h : s.pending = wordAccess s.cfg 0x010 (.write v) :: rest) :
      Served s { s with pending := rest, hexval := v }
  | hexstrHi (s : State) (v : Word) (rest : List Access) (h : s.pending = wordAccess s.cfg 0x014 (.write v) :: rest) :
      Served s { s with pending := rest, hexstrHi := v }
  | hexstrLo (s : State) (v : Word) (rest : List Access) (h : s.pending = wordAccess s.cfg 0x018 (.write v) :: rest) :
      Served s { s with pending := rest, hexstrLo := v }
  | ignored (s : State) (off : Nat) (v : Word) (rest : List Access)
      (h : s.pending = wordAccess s.cfg off (.write v) :: rest) (h0 : off ≠ 0) :
      Served s { s with pending := rest }
  | illegal (s : State) (w : Word) (rest : List Access) (h : s.pending = cmdWrite s.cfg w :: rest)
      (hw : ¬ (fieldsOf w).Legal) :
      Served s (({ s with pending := rest } : State).raise .badcmd)
  | command (s t : State) (w : Word) (i : Instr) (rest : List Access) (h : s.pending = cmdWrite s.cfg w :: rest)
      (hw : decode w = .ok i) (he : Effect i { s with pending := rest } t) : Served s t

/-- An access the spec defines is a word access at an aligned offset. -/
theorem eq_wordAccess_of_defined {c : Config} {a : Access} (h : a.Defined c) :
    ∃ off, off < 4096 ∧ off % 4 = 0 ∧ a = wordAccess c off a.op := by
  obtain ⟨h1, h2, h3, h4⟩ := h
  refine ⟨a.addr - c.base, by omega, h4, ?_⟩
  obtain ⟨addr, width, op⟩ := a
  simp only at h1 h2 h3 h4
  subst h3
  simp [wordAccess]; omega

/-- The effect of a write to the window (R22, R193). -/
theorem windowWrite_served {s t : State} {off : Nat} {v : Word} {rest : List Access}
    (hp : s.pending = wordAccess s.cfg off (.write v) :: rest) (h4 : off % 4 = 0)
    (h : ({ s with pending := rest } : State).windowWrite off v = .next t) : Served s t := by
  rcases offset_cases h4 with ⟨r, rfl⟩ | ⟨k, hk, rfl⟩ | ⟨k, hk, rfl⟩ | hr
  · rw [State.windowWrite, targetOf_register] at h
    cases r <;> simp only [State.writeReg] at h
    case cmd =>
      by_cases hl : (fieldsOf v).Legal
      · obtain ⟨o, -, ho⟩ := hl
        have hd := (decode_ok_iff v _).2 ⟨o, ho, rfl⟩
        rw [State.command_of_decode hd] at h
        exact .command s t v _ rest hp hd (exec_effect h)
      · rw [State.command_of_illegal hl] at h
        cases h
        exact .illegal s v rest hp hl
    case hexval => cases h; exact .hexval s v rest hp
    case hexstrHi => cases h; exact .hexstrHi s v rest hp
    case hexstrLo => cases h; exact .hexstrLo s v rest hp
    all_goals
      cases h
      exact .ignored s _ v rest hp (by decide)
  · rw [State.windowWrite, targetOf_ibuf hk] at h; cases h; exact .ignored s _ v rest hp (by omega)
  · rw [State.windowWrite, targetOf_tbuf hk] at h; cases h; exact .ignored s _ v rest hp (by omega)
  · rw [State.windowWrite, targetOf_reserved hr] at h; cases h; exact .ignored s _ v rest hp (by omega)

/-- A step with an access that the spec does not define has no next state. -/
theorem step_defined {s t : State} {a : Access} {rest : List Access} (hp : s.pending = a :: rest)
    (h : step s = .next t) : a.Defined s.cfg := by
  simp only [step, serveNext, hp, State.serve, State.undefinedAccess] at h
  split at h
  · simp at h
  · split at h
    · simp at h
    · split at h
      · simp at h
      · rename_i h1 h2 h3
        exact ⟨by omega, by omega, not_not.1 h2, not_not.1 h3⟩

/-- Every next state of a step is one of the listed ones. -/
theorem step_served {s t : State} (h : step s = .next t) : Served s t := by
  cases hp : s.pending with
  | nil =>
    simp only [step, serveNext, hp] at h
    cases h
    exact .idle s hp
  | cons a rest =>
    obtain ⟨off, ho, h4, ha⟩ := eq_wordAccess_of_defined (step_defined hp h)
    rw [ha] at hp
    cases hop : a.op with
    | read =>
      rw [hop] at hp
      rw [step_read hp ho h4] at h
      cases h
      exact .read s off rest hp ho h4
    | write v =>
      rw [hop] at hp
      rw [step_write hp ho h4] at h
      exact windowWrite_served hp h4 h

/-- No step changes the parameters (R35). -/
theorem Served.keeps_cfg {s t : State} (h : Served s t) : t.cfg = s.cfg := by
  cases h with
  | command _ w i rest _ _ he => exact he.keeps_host.1
  | _ => rfl

end Sys2Proof.Machine
end

