-- ==== Sys2Proof/Laws/Run.lean ====
section
/-! SUPPORT. Running a command sequence (spec/20_memory.md R67, spec/30_encoding.md R88): served one access a step, the
CMD writes of a sequence do what its commands do one after another. -/

namespace Sys2Proof.Machine

/-- The effects of a command sequence, one after another. -/
inductive Effects : List Instr → State → State → Prop where
  | nil (s : State) : Effects [] s s
  | cons {i : Instr} {is : List Instr} {s t u : State} (h : Effect i s t) (hs : Effects is t u) :
      Effects (i :: is) s u

theorem Effects.append {is js : List Instr} {s t u : State} (h1 : Effects is s t) (h2 : Effects js t u) :
    Effects (is ++ js) s u := by
  induction h1 with
  | nil => exact h2
  | cons h _ ih => exact .cons h (ih h2)

theorem Effects.single {i : Instr} {s t : State} (h : Effect i s t) : Effects [i] s t := .cons h (.nil _)

theorem Effects.keeps_host {is : List Instr} {s t : State} (h : Effects is s t) :
    t.cfg = s.cfg ∧ t.pending = s.pending ∧ t.returned = s.returned := by
  induction h with
  | nil => exact ⟨rfl, rfl, rfl⟩
  | cons h _ ih =>
    obtain ⟨h1, h2, h3⟩ := h.keeps_host
    exact ⟨ih.1.trans h1, ih.2.1.trans h2, ih.2.2.trans h3⟩

/-- Decoding the word of a command gives the command, by its row and fields. -/
theorem decode_encode_of_fields (i : Instr) (h : opField (encode i) = i.opcode.code ∧ aField (encode i) = i.operandA ∧
    dField (encode i) = i.operandD ∧ rsvField (encode i) = 0#15) : decode (encode i) = .ok i := by
  obtain ⟨h1, h2, h3, h4⟩ := h
  refine (decode_ok_iff _ _).2 ⟨i.opcode, ⟨h1, h4, fun hu => ?_, fun hu => ?_⟩, ?_⟩
  · exact h2.trans (operandA_unused i hu)
  · exact h3.trans (operandD_unused i hu)
  · rw [h2, h3, build_operands]

/-- A step on the CMD write of a command. -/
theorem step_command {s t : State} {i : Instr} {rest : List Access}
    (hp : s.pending = cmdWrite s.cfg (encode i) :: rest) (h : Effect i { s with pending := rest } t) :
    step s = .next t := by
  rw [step_cmdWrite hp, State.command_of_decode (decode_encode_of_fields i (fields_of_assembled _ _ _)),
    exec_of_effect h]

/-- One step more of a run. -/
theorem run_succ (n : Nat) {s t : State} (h : step s = .next t) :
    Host.Core.run core (n + 1) s = Host.Core.run core n t := by
  have h' : core.step s = .next t := h
  have hrun := Host.Core.run.eq_2 core s n
  rw [h'] at hrun
  exact hrun

theorem run_zero (s : State) : Host.Core.run core 0 s = .next s := rfl

/-- A run over the CMD writes of a command sequence is the sequence's effects, and then a run over what was pending
after them. -/
theorem run_commandWrites {is : List Instr} {s t : State} (n : Nat) {rest : List Access}
    (hp : s.pending = commandWrites s.cfg is ++ rest) (h : Effects is { s with pending := rest } t) :
    Host.Core.run core (is.length + n) s = Host.Core.run core n t := by
  induction is generalizing s with
  | nil =>
    cases h
    rw [show ({ s with pending := rest } : State) = s by rw [show rest = s.pending by simpa [commandWrites] using hp.symm]]
    simp
  | cons i is ih =>
    cases h with
    | cons h hs =>
      rename_i u
      have hp' : s.pending = cmdWrite s.cfg (encode i) :: (commandWrites s.cfg is ++ rest) := hp
      have hstep := step_command hp' (h.withPending (commandWrites s.cfg is ++ rest))
      have hu := h.keeps_host
      rw [List.length_cons, Nat.add_right_comm, run_succ _ hstep]
      refine ih ?_ ?_
      · show commandWrites s.cfg is ++ rest = commandWrites u.cfg is ++ rest
        rw [show u.cfg = s.cfg from hu.1]
      · rwa [show ({ ({ u with pending := commandWrites s.cfg is ++ rest } : State) with pending := rest } : State) = u by
          rw [show rest = u.pending from hu.2.1.symm]]

/-- The effects of feeding bytes to the CRC stream (R128). -/
theorem effects_crcBytes (bs : List Byte) (s : State) :
    ∃ r, Effects (bs.map .crcByte) s { s with acc := crcFeed s.acc bs, result := r } := by
  induction bs generalizing s with
  | nil => exact ⟨s.result, .nil s⟩
  | cons b bs ih =>
    obtain ⟨r, hr⟩ := ih (({ s with acc := crcStep s.acc b } : State).raise .ok)
    exact ⟨r, .cons (.crcByte b s) hr⟩

end Sys2Proof.Machine
end

