-- ==== Sys2Proof/Laws/Exchange.lean ====
section
/-! SUPPORT. The lines of an exchange (spec/70_reset_and_hazards.md R223): what a run over one of them does, and that
each leaves no result unread (R229). -/

namespace Sys2Proof.Machine

theorem programAccesses_append (c : Config) (p q : List Line) :
    programAccesses c (p ++ q) = programAccesses c p ++ programAccesses c q := by simp [programAccesses]

theorem programAccesses_cons (c : Config) (l : Line) (p : List Line) :
    programAccesses c (l :: p) = lineAccesses c l ++ programAccesses c p := by simp [programAccesses]

@[simp] theorem programAccesses_nil (c : Config) : programAccesses c [] = [] := rfl

@[simp] theorem lineAccesses_command (c : Config) (i : Instr) : lineAccesses c (.command i) = [cmdWrite c (encode i)] := rfl

@[simp] theorem lineAccesses_rd (c : Config) (r : Reg) : lineAccesses c (.rd r) = [wordAccess c (regOffset r) .read] := rfl

@[simp] theorem programAccesses_checked (c : Config) (i : Instr) :
    programAccesses c (checked i) = [cmdWrite c (encode i), wordAccess c (regOffset .status) .read] := rfl

/-! ### Running a line -/

/-- A run over one command. -/
theorem run_command {s t : State} {i : Instr} {rest : List Access} (n : Nat)
    (hp : s.pending = cmdWrite s.cfg (encode i) :: rest) (h : Effect i { s with pending := rest } t) :
    Host.Core.run core (n + 1) s = Host.Core.run core n t := run_succ n (step_command hp h)

/-- A run over one command and the STATUS read after it. -/
theorem run_checked {s t : State} {i : Instr} {rest : List Access} (n : Nat)
    (hp : s.pending = programAccesses s.cfg (checked i) ++ rest) (h : Effect i { s with pending := rest } t) :
    Host.Core.run core (n + 2) s = Host.Core.run core n { t with returned := t.statusWord :: t.returned } := by
  have hk := h.keeps_host
  rw [run_command (n + 1) hp (h.withPending (wordAccess s.cfg (regOffset .status) .read :: rest))]
  refine run_succ n ?_
  rw [step_read (off := regOffset .status) (rest := rest) (by rw [← show t.cfg = s.cfg from hk.1]) (by decide)
    (by decide), State.windowRead_register, ← show t.pending = rest from hk.2.1]
  rfl

/-! ### Reading every result (R229) -/

theorem readsResults_command (c : Config) (owed : Bool) (i : Instr) (rest : List Access) :
    readsResults c owed (cmdWrite c (encode i) :: rest) = (!owed && readsResults c (mustReadResult i) rest) := by
  rw [readsResults, if_neg (by simp [cmdWrite, wordAccess])]
  show (if cmdWrite c (encode i) = cmdWrite c (encode i) then _ else _) = _
  rw [if_pos rfl, decode_encode_of_fields i (fields_of_assembled _ _ _)]

theorem readsResults_status (c : Config) (owed : Bool) (rest : List Access) :
    readsResults c owed (wordAccess c (regOffset .status) .read :: rest) = readsResults c false rest := by
  rw [readsResults, if_pos rfl]

/-- Reads leave no result unread. -/
theorem readsResults_read (c : Config) (off : Nat) (rest : List Access) :
    readsResults c false (wordAccess c off .read :: rest) = readsResults c false rest := by
  rw [readsResults]
  split <;> rfl

theorem readsResults_checked (c : Config) (i : Instr) (rest : List Access) :
    readsResults c false (programAccesses c (checked i) ++ rest) = readsResults c false rest := by
  rw [programAccesses_checked]
  show readsResults c false (cmdWrite c (encode i) :: wordAccess c (regOffset .status) .read :: rest) = _
  rw [readsResults_command, readsResults_status]
  rfl

end Sys2Proof.Machine
end

