-- ==== Sys2Proof/Laws/PerInstr.lean ====
section
/-! SUPPORT. The per-instruction family `Fields`: what the four fields of each command's word hold (R80, R81, R82, R83,
R87), one lemma a constructor. -/

/-- The word of a command holds its row's OP, its operands in A and D, and zero in RSV. -/
def Sys2Proof.Laws.Fields.Statement (i : Sys2Proof.Instr) : Prop :=
  Sys2Proof.opField (Sys2Proof.encode i) = i.opcode.code ∧ Sys2Proof.aField (Sys2Proof.encode i) = i.operandA ∧
    Sys2Proof.dField (Sys2Proof.encode i) = i.operandD ∧ Sys2Proof.rsvField (Sys2Proof.encode i) = 0#15

namespace Sys2Proof.Laws.Fields

theorem nop : Statement .nop := fields_of_assembled _ _ _
theorem crcInit : Statement .crcInit := fields_of_assembled _ _ _
theorem crcByte (b : Byte) : Statement (.crcByte b) := fields_of_assembled _ _ _
theorem crcHex : Statement .crcHex := fields_of_assembled _ _ _
theorem hexEnc (d : Byte) : Statement (.hexEnc d) := fields_of_assembled _ _ _
theorem hexDec (n : Byte) : Statement (.hexDec n) := fields_of_assembled _ _ _
theorem rxClear : Statement .rxClear := fields_of_assembled _ _ _
theorem rxPush (b : Byte) : Statement (.rxPush b) := fields_of_assembled _ _ _
theorem rxAbort : Statement .rxAbort := fields_of_assembled _ _ _
theorem frameParse : Statement .frameParse := fields_of_assembled _ _ _
theorem txClear : Statement .txClear := fields_of_assembled _ _ _
theorem txPush (b : Byte) : Statement (.txPush b) := fields_of_assembled _ _ _
theorem frameBuild (cid : Byte) (dir : Direction) : Statement (.frameBuild cid dir) := fields_of_assembled _ _ _
theorem reset : Statement .reset := fields_of_assembled _ _ _

end Sys2Proof.Laws.Fields
end

