-- ==== Sys2Proof/Tests/Slice0.lean ====
section
/-! SUPPORT. Tests on fixed values, their expected results taken from the tables of spec/95_test_vectors.md, the rules'
examples, or the encodings of spec/30_encoding.md written out by hand; and for each obligation that has hypotheses a
concrete state and operands that meet them. -/

namespace Sys2Proof.Tests

open Sys2Proof Sys2Proof.Machine

/- The theorems below are checked one after another: with many kernel evaluations at once Lean can run out of threads. -/
set_option Elab.async false

/-! ### Helpers -/

/-- The next state of a command, if it answers one. -/
def after (i : Instr) (s : State) : Option State :=
  match exec i s with
  | .next t => some t
  | .fault _ | .refused _ => none

/-- The next state of a step, if it answers one. -/
def stepped (s : State) : Option State :=
  match step s with
  | .next t => some t
  | .fault _ | .refused _ => none

/-- Why a step stops as a refusal, if it does. -/
def refusalOf (s : State) : Option Refusal :=
  match step s with
  | .refused r => some r
  | .next _ | .fault _ => none

/-- The STATUS word and two more registers after a command. -/
def look (i : Instr) (s : State) (r q : Reg) : Option (Word × Word × Word) :=
  (after i s).map fun t => (t.statusWord, t.readReg r, t.readReg q)

/-- The ASCII bytes of a text (R13). -/
def text (s : String) : List Byte := s.toList.map fun c => BitVec.ofNat 8 c.toNat

/-- A reset state with HEXVAL set. -/
def withHex (v : Word) : State := { State.reset with hexval := v }

/-- A reset state with HS set (R29). -/
def withHs (hi lo : Word) : State := { State.reset with hexstrHi := hi, hexstrLo := lo }

/-- A reset state with bytes received; `done` says whether they end in a terminator. -/
def received (bs : List Byte) (done : Bool) : State :=
  { State.reset with ibuf := Memory.store [] 0 bs, ilen := BitVec.ofNat 9 bs.length, rxdone := done }

/-- A reset state with parameter bytes pushed. -/
def pushed (bs : List Byte) : State :=
  { State.reset with tbuf := Memory.store [] 0 bs, tlen := BitVec.ofNat 9 bs.length }

/-- A state with the smallest buffers. -/
def small (s : State) : State := { s with cfg := { s.cfg with bufSize := 16 } }

/-- A state whose host has these accesses pending. -/
def host (s : State) (as : List Access) : State := { s with pending := as }

/-! ### WellFormed: each check refuses an ill-formed term -/

theorem test_config_default_valid : Config.default.Valid := by decide
theorem test_config_bad_term : ¬ { Config.default with term := 0x3B#8 }.Valid := by decide
theorem test_config_bufsize_low : ¬ { Config.default with bufSize := 15 }.Valid := by decide
theorem test_config_bufsize_high : ¬ { Config.default with bufSize := 257 }.Valid := by decide
theorem test_config_code_four :
    ¬ { Config.default with codes := { CodeTable.default with incorrectCrc := 0x07#8 } }.Valid := by decide
theorem test_config_codes_distinct :
    ¬ { Config.default with codes := { CodeTable.default with noError := 0x04#8 } }.Valid := by decide

theorem test_access_defined : Access.Defined Config.default ⟨0xFFC, .word, .read⟩ := by decide
theorem test_access_outside : ¬ Access.Defined Config.default ⟨0x1000, .word, .read⟩ := by decide
theorem test_access_below : ¬ Access.Defined { Config.default with base := 0x8000 } ⟨0x7FFC, .word, .read⟩ := by decide
theorem test_access_narrow : ¬ Access.Defined Config.default ⟨0x004, .byte, .read⟩ := by decide
theorem test_access_misaligned : ¬ Access.Defined Config.default ⟨0x006, .word, .read⟩ := by decide

/-- Each check of R83 and R85 on the fields of a word: unassigned OP, RSV, unused A, unused D. -/
theorem test_fields_illegal :
    ¬ CmdFields.Legal ⟨0x04#8, 0#8, 0#1, 0#15⟩ ∧ ¬ CmdFields.Legal ⟨0x00#8, 0#8, 0#1, 1#15⟩ ∧
    ¬ CmdFields.Legal ⟨0x01#8, 1#8, 0#1, 0#15⟩ ∧ ¬ CmdFields.Legal ⟨0x10#8, 2#8, 1#1, 0#15⟩ := by decide

/-- Every term of `Instr` is well-formed: the operand types admit exactly what the encoding does (R81). -/
theorem test_instr_wf : (Instr.frameBuild 255#8 .write).wf = true ∧ (Instr.hexEnc 0#8).wf = true := by decide

/-! ### Decoding: words written out from R80 and R84, OP in bits 7:0, A in 15:8, D in 16 -/

theorem test_decode_control : decode 0x00000000#32 = .ok .nop ∧ decode 0x000000FF#32 = .ok .reset := by decide
theorem test_decode_crc :
    decode 0x00000001#32 = .ok .crcInit ∧ decode 0x00003102#32 = .ok (.crcByte 0x31#8) ∧
    decode 0x00000003#32 = .ok .crcHex := by decide
theorem test_decode_hex :
    decode 0x00000810#32 = .ok (.hexEnc 8#8) ∧ decode 0x00000211#32 = .ok (.hexDec 2#8) := by decide
theorem test_decode_rx :
    decode 0x00000020#32 = .ok .rxClear ∧ decode 0x00004F21#32 = .ok (.rxPush 0x4F#8) ∧
    decode 0x00000022#32 = .ok .rxAbort ∧ decode 0x00000023#32 = .ok .frameParse := by decide
theorem test_decode_tx :
    decode 0x00000030#32 = .ok .txClear ∧ decode 0x00005431#32 = .ok (.txPush 0x54#8) ∧
    decode 0x00010732#32 = .ok (.frameBuild 7#8 .write) ∧ decode 0x00006432#32 = .ok (.frameBuild 100#8 .read) := by
  decide

/-- The illegal words of `95_test_vectors.md` section 2.5 and the ends of the unassigned ranges of R85. -/
theorem test_decode_illegal :
    decode 0x00000100#32 = .error .unusedA ∧ decode 0x00000004#32 = .error .unassignedOp ∧
    decode 0x00000101#32 = .error .unusedA ∧ decode 0x00010002#32 = .error .unusedD ∧
    decode 0x00010010#32 = .error .unusedD ∧ decode 0x00020032#32 = .error .reservedBits ∧
    decode 0x80000000#32 = .error .reservedBits ∧ decode 0x000000FE#32 = .error .unassignedOp ∧
    decode 0x000001FF#32 = .error .unusedA ∧ decode 0x00000033#32 = .error .unassignedOp := by decide

theorem test_encode_examples :
    encode (.crcByte 0x31#8) = 0x00003102#32 ∧ encode (.hexEnc 8#8) = 0x00000810#32 ∧
    encode (.frameBuild 7#8 .write) = 0x00010732#32 ∧ encode .rxClear = 0x00000020#32 := by decide

theorem test_table_word :
    decodeTableWord 32 0x00010732 = some (.frameBuild 7#8 .write) ∧ decodeTableWord 32 0x00000004 = none := by decide

/-- The host's word runs as the first instruction after reset (log 3). -/
theorem test_fetch_word :
    (stepped (State.reset.withFetchWord 32 0x00004121)).map (fun t => (t.ilen, t.windowRead 0x400, t.pending)) =
      some (1#9, 0x41#32, []) := by decide

/-! ### Pure functions: the tables of `95_test_vectors.md` -/

theorem test_crc_step :
    crcStep 0xFFFFFFFF#32 0x01#8 = 0x5AFA20E4#32 ∧ crcStep 0xFFFFFFFF#32 0x80#8 = 0xC0459352#32 ∧
    crcStep 0#32 0x01#8 = 0x77073096#32 ∧ crcStep 0#32 0x80#8 = 0xEDB88320#32 := by decide +kernel

theorem test_crc32 :
    crc32 [] = 0#32 ∧ crc32 (text "123456789") = 0xCBF43926#32 ∧ checksum (text "XT+R50") = text "006F62C9" ∧
    checksum (text "OK+A B") = text "6BD2BB94" := by decide +kernel

theorem test_encode_hex :
    encodeHex 0x2A#32 1 = some (text "A") ∧ encodeHex 0x100#32 1 = none ∧ encodeHex 0x100#32 3 = some (text "100") ∧
    encodeHex 0x1FAB#32 3 = some (text "FAB") ∧ encodeHex 0x10000#32 4 = none ∧
    encodeHex 0x12345678#32 7 = some (text "2345678") ∧ encodeHex 0#32 8 = some (text "00000000") := by decide +kernel

theorem test_decode_hex_string :
    decodeHex (text "CBF43926") = some 0xCBF43926#32 ∧ decodeHex (text "2a") = none ∧ decodeHex (text "G1") = none ∧
    decodeHex (text "0x1F") = none ∧ decodeHex [] = none ∧ decodeHex (text "000000001") = none := by decide +kernel

theorem test_build_frame :
    buildFrame 0x0D#8 7 .write (text "TRUE") = some (text "XT+W07TRUE D9CF0A97" ++ [0x0D#8]) ∧
    buildFrame 0x0A#8 0 .write [] = some (text "XT+W00 7BD35467" ++ [0x0A#8]) ∧
    buildFrame 0x0D#8 100 .read [] = none := by decide +kernel

/-- Parses of `95_test_vectors.md` section 2.4 that the match step decides. -/
theorem test_parse_match :
    parseFrame Config.default (text "OK+TRUE 168c4071" ++ [0x0D#8]) = (.malformed, none) ∧
    parseFrame Config.default (text "OK+TRUE 68C4071" ++ [0x0D#8]) = (.malformed, none) ∧
    parseFrame Config.default (text "OK+TRUE 168C4071" ++ [0x0A#8]) = (.malformed, none) ∧
    parseFrame Config.default (text "OK-TRUE 99CCB5D1" ++ [0x0D#8]) = (.malformed, none) ∧
    parseFrame Config.default (text "OK 00000000" ++ [0x0D#8]) = (.malformed, none) := by decide +kernel

/-- Parses that Verify and Interpret decide. -/
theorem test_parse_interpret :
    parseFrame Config.default (text "OK+A B 6BD2BB94" ++ [0x0D#8]) = (.ok 3, some 0x6BD2BB94#32) ∧
    parseFrame Config.default (text "ER+00 FAB24853" ++ [0x0D#8]) = (.deverr 0x00#8, some 0xFAB24853#32) ∧
    parseFrame Config.default (text "ER+07 64D6DDF0" ++ [0x0D#8]) = (.malformed, some 0x64D6DDF0#32) ∧
    parseFrame Config.default (text "ER+0a E6DE2931" ++ [0x0D#8]) = (.malformed, some 0xE6DE2931#32) ∧
    parseFrame Config.default (text "ER+ZZ 00000000" ++ [0x0D#8]) = (.integrity, some 0xC8C74338#32) ∧
    parseFrame Config.default (text "OK+TRUE  168C4071" ++ [0x0D#8]) = (.integrity, some 0xCE7802AF#32) := by
  decide +kernel

/-! ### Commands: one step on a small state, at most two tests a command -/

theorem test_nop : after .nop { withHex 5#32 with result := .integrity } = some { withHex 5#32 with result := .ok } := by
  decide

theorem test_crc_init :
    look .crcInit { State.reset with acc := 0x12345678#32 } .crcAcc .crcOut =
      some (1#32, 0xFFFFFFFF#32, 0#32) := by decide

theorem test_crc_byte :
    look (.crcByte 0x31#8) State.reset .crcAcc .crcOut = some (1#32, 0x7C231048#32, 0x83DCEFB7#32) := by decide +kernel

theorem test_crc_hex :
    look .crcHex { State.reset with acc := 0xFF909D36#32 } .hexstrHi .hexstrLo =
      some (1#32, 0x30303646#32, 0x36324339#32) := by decide +kernel
theorem test_crc_hex_value :
    look .crcHex { State.reset with acc := 0xFF909D36#32 } .hexval .crcAcc =
      some (1#32, 0x006F62C9#32, 0xFF909D36#32) := by decide +kernel

theorem test_hex_enc :
    look (.hexEnc 5#8) { withHex 0x12345#32 with hexstrLo := 0xFFFFFFFF#32 } .hexstrHi .hexstrLo =
      some (1#32, 0x31323334#32, 0x35000000#32) := by decide +kernel
theorem test_hex_enc_precond :
    after (.hexEnc 9#8) (withHex 5#32) = some { withHex 5#32 with result := .precond } := by decide +kernel

theorem test_hex_dec :
    look (.hexDec 8#8) (withHs 0x43424634#32 0x33393236#32) .hexval .hexstrHi =
      some (1#32, 0xCBF43926#32, 0x43424634#32) := by decide +kernel
theorem test_hex_dec_precond :
    after (.hexDec 2#8) (withHs 0x32610000#32 0#32) = some { withHs 0x32610000#32 0#32 with result := .precond } := by
  decide +kernel

theorem test_rx_clear :
    look .rxClear { received [0x0D#8] true with bodyLen := 2#9, deverrValid := true, fcrc := 7#32 } .ilen .fcrc =
      some (1#32, 0#32, 7#32) := by decide

theorem test_rx_push_term :
    look (.rxPush 0x0D#8) (small (received (List.replicate 15 0x41#8) false)) .ilen .bodyLen =
      some (0x11#32, 16#32, 0#32) := by decide +kernel
theorem test_rx_push_full :
    look (.rxPush 0x0D#8) (small (received (List.replicate 16 0x41#8) false)) .ilen .bodyLen =
      some (0x28#32, 16#32, 0#32) := by decide +kernel

theorem test_rx_abort :
    look .rxAbort (received (text "OK+TR") false) .ilen .deverr = some (5#32, 0#32, 0#32) := by decide +kernel

theorem test_frame_parse_deverr :
    look .frameParse (received (text "ER+04 FDDF8C4A" ++ [0x0D#8]) true) .deverr .fcrc =
      some (0x12#32, 0x104#32, 0xFDDF8C4A#32) := by decide +kernel
theorem test_frame_parse_integrity :
    look .frameParse (received (text "OK+TRUE 168C4070" ++ [0x0D#8]) true) .ilen .fcrc =
      some (4#32, 0#32, 0x168C4071#32) := by decide +kernel

theorem test_tx_clear :
    look .txClear { pushed [0x41#8] with txframe := true } .tlen .fcrc = some (1#32, 0#32, 0#32) := by decide

theorem test_tx_push :
    (after (.txPush 0x55#8) (pushed (text "TR"))).map (fun t => (t.tlen, t.windowRead 0x808, t.windowRead 0x80C)) =
      some (3#9, 0x55#32, 0#32) := by decide +kernel
theorem test_tx_push_framed :
    look (.txPush 0x41#8) { pushed [0x41#8] with txframe := true } .tlen .fcrc = some (0x86#32, 1#32, 0#32) := by decide

theorem test_frame_build :
    (after (.frameBuild 12#8 .read) (pushed (text "2A"))).map (fun t => (t.statusWord, t.fcrc, t.outgoing)) =
      some (0x81#32, 0x981018AD#32, text "XT+R122A 981018AD" ++ [0x0D#8]) := by decide +kernel
theorem test_frame_build_no_room :
    look (.frameBuild 0#8 .write) (small (pushed [0x41#8])) .tlen .fcrc = some (6#32, 1#32, 0#32) := by decide +kernel

theorem test_reset :
    look .reset { received [0x0D#8] true with acc := 1#32, txframe := true } .crcOut .ilen =
      some (1#32, 0#32, 0#32) := by decide

/-! ### The bus: `95_test_vectors.md` section 2.5 -/

theorem test_reads :
    State.reset.windowRead 0x030 = 0x000D0100#32 ∧ State.reset.windowRead 0x404 = 0#32 ∧
    { State.reset with cfg := { Config.default with term := 0x0A#8, bufSize := 16 } }.windowRead 0x030 =
      0x000A0010#32 := by decide

theorem test_write_hexval :
    stepped (host State.reset [wordAccess Config.default 0x010 (.write 0x12345678#32)]) =
      some (withHex 0x12345678#32) := by decide
theorem test_write_ignored :
    stepped (host State.reset [wordAccess Config.default 0x100 (.write 0xFFFFFFFF#32)]) = some State.reset := by decide

theorem test_illegal_word :
    stepped (host State.reset [cmdWrite Config.default 0x00010002#32]) =
      some { State.reset with result := .badcmd } := by decide

theorem test_refused :
    refusalOf (host State.reset [⟨0x004, .half, .read⟩]) = some .narrowAccess ∧
    refusalOf (host State.reset [⟨0x002, .word, .read⟩]) = some .misalignedAccess := by decide

/-! ### Assembly text: the examples of R87, R88 -/

theorem test_assemble_commands :
    parseLine "CRC.BYTE 0x31" = some (.command (.crcByte 0x31#8)) ∧
    parseLine "HEX.ENC 8" = some (.command (.hexEnc 8#8)) ∧
    parseLine "FRAME.BUILD 7, W" = some (.command (.frameBuild 7#8 .write)) ∧
    parseLine "RX.CLEAR    ; empties" = some (.command .rxClear) ∧
    parseLine "RX.PUSH ';'" = some (.command (.rxPush 0x3B#8)) := by decide +kernel

theorem test_assemble_accesses :
    parseLine "WR HEXVAL, 0x0000002A" = some (.wr .hexval 0x2A#32) ∧ parseLine "RD IBUF[3]" = some (.rdIbuf 3) ∧
    parseLine "CRC.BYTE 256" = none ∧ parseLine "HEX.INC 1" = none := by decide +kernel

theorem test_assemble_strings :
    parseLine "RX.PUSHS \"OK\\r\"" = some (.rxPushs [0x4F#8, 0x4B#8, 0x0D#8]) ∧
    (parseLine "CRC.OF \"\"").map lineCommands = some [.crcInit, .crcHex] := by decide +kernel

/-! ### The exchange (R223) and its reads (R229) -/

/-- Program P8 (W4): two bytes and no terminator before the deadline, so RX.ABORT and no FRAME.PARSE. -/
theorem test_exchange_abort :
    responseProgram Config.default (text "OK") =
      [.command .rxClear, .command (.rxPush 0x4F#8), .rd .status, .command (.rxPush 0x4B#8), .rd .status,
       .command .rxAbort, .rd .status, .command .rxClear] := by decide +kernel

/-- Program P5 (W2), with a byte that arrives after the terminator and is not pushed. -/
theorem test_exchange_parse :
    (responseProgram Config.default (text "ER+04 FDDF8C4A" ++ [0x0D#8, 0x41#8])).drop 29 =
      [.command (.rxPush 0x0D#8), .rd .status, .command .frameParse, .rd .status, .rd .deverr, .command .rxClear] := by
  decide +kernel

/-- Program P2 (W1) and its 16-byte frame; an id of 100 has no frame to send, and no response. -/
theorem test_exchange_request :
    (requestProgram Config.default 0#8 .write []).take 5 =
      [.command .txClear, .command (.frameBuild 0#8 .write), .rd .status, .rd .tlen, .rdTbuf 0] ∧
    (requestProgram Config.default 0#8 .write []).length = 20 ∧
    exchangeProgram Config.default 100#8 .read [] (text "OK") =
      [.command .txClear, .command (.frameBuild 100#8 .read), .rd .status] := by decide +kernel

/-- R229: a result read before the next command, after it, and not at all. -/
theorem test_reads_results :
    readsResults Config.default false
      (programAccesses Config.default [.command .frameParse, .rd .fcrc, .rd .status, .command .nop]) = true ∧
    readsResults Config.default false
      (programAccesses Config.default [.command .frameParse, .command .nop, .rd .status]) = false ∧
    readsResults Config.default false (programAccesses Config.default [.command .frameParse]) = false := by
  decide +kernel

/-! ### Witnesses: states and operands that meet the hypotheses of each obligation that has any -/

/-- A command's next state, given by evaluation. -/
theorem next_of_after (i : Instr) (s : State) (P : State → Prop) [DecidablePred P]
    (h : (after i s).any (fun t => decide (P t)) = true) : ∃ t, exec i s = .next t ∧ P t := by
  unfold after at h
  split at h
  · rename_i t ht; exact ⟨t, ht, by simpa using h⟩
  · simp at h
  · simp at h

/-- A step's next state, given by evaluation. -/
theorem next_of_stepped (s : State) (P : State → Prop) [DecidablePred P]
    (h : (stepped s).any (fun t => decide (P t)) = true) : ∃ t, step s = .next t ∧ P t := by
  unfold stepped at h
  split at h
  · rename_i t ht; exact ⟨t, ht, by simpa using h⟩
  · simp at h
  · simp at h

/-- The one-byte response body "C", received and parsed (`95_test_vectors.md` section 2.4). -/
def held : State :=
  { received (text "OK+C 07591815" ++ [0x0D#8]) true with bodyLen := 1#9, fcrc := 0x07591815#32, result := .ok }

/-- Two bytes of a response received, no terminator yet. -/
def partly : State := received (text "OK") false

theorem test_held_inv : held.Inv := by
  refine ⟨by decide, ⟨by decide, by decide, by decide +kernel, ?_, by decide, fun h => absurd h (by decide),
    by decide, by decide⟩, by decide, by decide, by decide, by decide, by decide⟩
  intro k hk
  have all_below : ∀ k, k < 13 → held.ibuf.read k ≠ held.cfg.term := by decide +kernel
  have hk : k < 13 := by have : held.ilen.toNat = 14 := by decide
                         omega
  exact all_below k hk

theorem test_partly_inv : partly.Inv := by
  refine ⟨by decide, ⟨by decide, by decide, by decide +kernel, ?_, by decide, fun h => absurd h (by decide),
    by decide, by decide⟩, by decide, by decide, by decide, by decide, by decide⟩
  intro k hk
  have : partly.ilen.toNat = 2 := by decide
  obtain rfl : k = 0 := by omega
  decide +kernel

theorem test_witness_DecodedWordIsTheEncoding : decode 0x00016332#32 = .ok (.frameBuild 99#8 .write) := by decide

theorem test_witness_DecodeFollowsMatchAndMask :
    (∃ r ∈ opTable, r.Selects 0x0001FF32#32 ∧ r.opcode = .frameBuild) ∧
    (∃ r ∈ opTable, r.Selects 0x000000FF#32 ∧ r.opcode = .reset) ∧ decode 0x0000FF21#32 = .ok (.rxPush 0xFF#8) := by
  decide

theorem test_witness_IllegalWordReportsBadcmdOnly :
    (fieldsOf 0x0001FF32#32).Legal ∧
    (host State.reset [cmdWrite Config.default 0x00020032#32]).pending = [cmdWrite Config.default 0x00020032#32] ∧
    ¬ (fieldsOf 0x00020032#32).Legal ∧ ¬ (fieldsOf 0x80000000#32).Legal ∧ ¬ (fieldsOf 0x00010031#32).Legal := by decide

theorem test_witness_StepRunsDecodedInstruction :
    (host State.reset [cmdWrite Config.default 0x00004121#32]).pending = cmdWrite Config.default 0x00004121#32 :: [] ∧
    decode 0x00004121#32 = .ok (.rxPush 0x41#8) := by decide

theorem test_witness_IdleStepKeepsState : (withHex 5#32).pending = [] := by decide

/-- The first and last word of the window, the bytes before and after it, a narrow and a misaligned access. -/
theorem test_witness_OnlyUndefinedAccessesStop :
    let c : Config := { Config.default with base := 0x8000 }
    Access.Defined c ⟨0x8000, .word, .read⟩ ∧ Access.Defined c ⟨0x8FFC, .word, .read⟩ ∧
    ¬ (c.base ≤ 0x7FFC ∧ 0x7FFC < c.base + 4096) ∧ ¬ (c.base ≤ 0x9000 ∧ 0x9000 < c.base + 4096) ∧
    (c.base ≤ 0x8FFF ∧ 0x8FFF < c.base + 4096 ∧ ¬ Access.Defined c ⟨0x8FFF, .byte, .read⟩) ∧
    (c.base ≤ 0x8002 ∧ 0x8002 < c.base + 4096 ∧ ¬ Access.Defined c ⟨0x8002, .word, .read⟩) := by decide

/-- Every offset the statement names, and the first and last of every range. -/
theorem test_witness_ReadReturnsTheMappedWord :
    (∀ off ∈ [0x000, 0x004, 0x008, 0x00C, 0x010, 0x014, 0x018, 0x01C, 0x020, 0x024, 0x028, 0x02C, 0x030, 0x034, 0x3FC,
        0x400 + 4 * 0, 0x400 + 4 * 255, 0x800 + 4 * 0, 0x800 + 4 * 255, 0xC00, 0xFFC],
      off < 4096 ∧ off % 4 = 0 ∧
        (host partly [wordAccess Config.default off .read]).pending = [wordAccess Config.default off .read]) ∧
    partly.cfg.BufSizeOk ∧ partly.windowRead (0x400 + 4 * 1) = 0x4B#32 ∧ partly.windowRead (0x400 + 4 * 255) = 0#32 ∧
    (pushed [0x41#8]).windowRead (0x800 + 4 * 0) = 0x41#32 ∧ (pushed [0x41#8]).windowRead (0x800 + 4 * 255) = 0#32 := by
  decide +kernel

theorem test_witness_PlainWriteStoresOrIsIgnored :
    ∀ off ∈ [0x004, 0x010, 0x014, 0x018, 0x400, 0xFFC], off < 4096 ∧ off % 4 = 0 ∧ off ≠ 0x000 ∧
      (host State.reset [wordAccess Config.default off (.write 7#32)]).pending =
        [wordAccess Config.default off (.write 7#32)] := by decide

theorem test_witness_RepeatedReadReturnsTheSame :
    (host State.reset [wordAccess Config.default 0x400 .read, wordAccess Config.default 0x400 .read]).pending =
      [wordAccess Config.default 0x400 .read, wordAccess Config.default 0x400 .read] ∧ 0x400 < 4096 ∧ 0x400 % 4 = 0 := by
  decide

theorem test_witness_ReadAfterCommandSeesItsEffect :
    ∃ t, step (host State.reset [cmdWrite Config.default 0x00004121#32, wordAccess Config.default 0x01C .read]) =
      .next t ∧ (0x01C < 4096 ∧ 0x01C % 4 = 0 ∧ t.ilen = 1#9) :=
  next_of_stepped _ _ (by decide)

theorem test_witness_ResetReadsAsPowerOn :
    (∀ off ∈ [0x000, 0x010, 0x034, 0xFFC], off % 4 = 0 ∧ off < 4096 ∧ off ≠ 0x004 ∧ off ≠ 0x008 ∧ off ≠ 0x00C ∧
      off ≠ 0x030) ∧ Config.default.BufSizeOk ∧
    ∃ t, exec .reset held = .next t ∧ t.ilen = 0#9 :=
  ⟨by decide, by decide, next_of_after _ _ _ (by decide)⟩

theorem test_witness_DigitsAndTheirValues :
    (hexchar 0, hexchar 9, hexchar 10, hexchar 15) = (0x30#8, 0x39#8, 0x41#8, 0x46#8) ∧
    (hexdigit 0x2F#8, hexdigit 0x3A#8, hexdigit 0x40#8, hexdigit 0x47#8, hexdigit 0x61#8) =
      (false, false, false, false, false) ∧ (hexval 0x39#8, hexval 0x41#8, hexval 0x46#8) = (9, 10, 15) := by decide

theorem test_witness_EncodeHexGivesTheLowDigits :
    encodeHex 0xFFFFFFFF#32 8 = some (text "FFFFFFFF") ∧ encodeHex 0xFF#32 1 = some (text "F") := by decide +kernel

theorem test_witness_DecodeHexIsThePositionalSum :
    decodeHex (text "FFFFFFFF") = some 0xFFFFFFFF#32 ∧ decodeHex (text "0") = some 0#32 := by decide +kernel

/-- Both ends of the digit count, with the largest value of that many digits; and at the command level a STATUS read
between the two commands, which leaves the codec's registers. -/
theorem test_witness_HexCodecRoundTrips :
    let p : List Line := [.command (.hexEnc 8#8), .rd .status, .command (.hexDec 8#8)]
    let s := host (withHex 0xFFFFFFFF#32) (programAccesses Config.default p)
    (0xF#32).toNat < 16 ^ 1 ∧ (0xFFFFFFFF#32).toNat < 16 ^ 8 ∧ (∀ c ∈ text "0", hexdigit c = true) ∧
    (∀ c ∈ text "89ABCDEF", hexdigit c = true) ∧ s.hexval.toNat < 16 ^ (8#8).toNat ∧
    ((stepped s).bind fun t => (stepped t).map fun u =>
      decide (u.hexval = t.hexval ∧ u.hexstrHi = t.hexstrHi ∧ u.hexstrLo = t.hexstrLo ∧
        u.pending = [cmdWrite u.cfg (encode (.hexDec 8#8))])) = some true := by
  decide +kernel

theorem test_witness_OddDigitCountDropsALeadingDigit :
    (16 ^ 1 ≤ (0x10#32).toNat ∧ (0xFF#32).toNat < 2 ^ (8 * ((1 + 1) / 2))) ∧
    (16 ^ 7 ≤ (0xFFFFFFFF#32).toNat ∧ (0xFFFFFFFF#32).toNat < 2 ^ (8 * ((7 + 1) / 2))) := by decide

theorem test_witness_HexEncWritesTheDigits :
    (0#8).toNat = 0 ∧ 8 < (9#8).toNat ∧ 2 ^ (8 * (((1#8).toNat + 1) / 2)) ≤ (withHex 0x100#32).hexval.toNat ∧
    (withHex 0xFF#32).hexval.toNat < 2 ^ (8 * (((1#8).toNat + 1) / 2)) ∧
    (withHex 0xFFFFFFFF#32).hexval.toNat < 2 ^ (8 * (((8#8).toNat + 1) / 2)) := by decide

theorem test_witness_HexDecReadsTheDigits :
    (∃ c ∈ (withHs 0x32610000#32 0#32).hs.take (2#8).toNat, hexdigit c = false) ∧
    (∀ c ∈ (withHs 0x32610000#32 0#32).hs.take (1#8).toNat, hexdigit c = true) ∧
    (∀ c ∈ (withHs 0x43424634#32 0x33393236#32).hs.take (8#8).toNat, hexdigit c = true) := by decide +kernel

theorem test_witness_ChecksumEqualsItsDecodedCrc :
    (text "CBF43926").length = 8 ∧ (∀ c ∈ text "CBF43926", hexdigit c = true) ∧
    (∃ c ∈ text "cbf43926", hexdigit c = false) ∧
    ((text "OK+ 3bb67c61" ++ [0x0D#8]).drop 4).take 8 = text "3bb67c61" := by decide +kernel

theorem test_witness_ByteMutationChangesChecksum : (0x34#8 : Byte) ≠ 0x35#8 := by decide

theorem test_witness_CrcStreamComputesCrc32 :
    (∀ i ∈ [Instr.crcByte 1#8, .frameParse, .nop], i ≠ .crcInit ∧ i ≠ .reset) ∧
    (host State.reset (lineAccesses Config.default (.crcOf (text "1")))).pending =
      lineAccesses Config.default (.crcOf (text "1")) ++ [] ∧
    lineAccesses Config.default (.crcOf (text "1")) =
      [cmdWrite Config.default 0x00000001#32, cmdWrite Config.default 0x00003102#32,
       cmdWrite Config.default 0x00000003#32] := by decide +kernel

theorem test_witness_AccIsTheStreamsAlone :
    (∃ t, exec .crcHex State.reset = .next t ∧ t.hexval = 0#32) ∧ ∃ t, exec .frameParse held = .next t ∧ t.bodyLen = 1#9 :=
  ⟨next_of_after _ _ _ (by decide +kernel), next_of_after _ _ _ (by decide +kernel)⟩

theorem test_witness_BuiltFrameLayout :
    (buildFrame 0x0D#8 0 .read []).isSome = true ∧ (buildFrame 0x0A#8 99 .write (text "+ ")).isSome = true := by
  decide +kernel

theorem test_witness_TxPushAppendsOneByte :
    { pushed [] with txframe := true }.txframe = true ∧
    (small (pushed (List.replicate 16 0x41#8))).tlen.toNat = (small (pushed [])).cfg.bufSize ∧
    (pushed []).txframe = false ∧ (small (pushed (List.replicate 15 0x41#8))).tlen.toNat ≠ (small (pushed [])).cfg.bufSize := by
  decide +kernel

/-- The largest command id and the fullest buffer that still take a frame, and the first of each that do not. -/
theorem test_witness_FrameBuildLeavesTheFrame :
    (small State.reset).cfg.BufSizeOk ∧ Config.default.BufSizeOk ∧ 99 < (100#8).toNat ∧
    (small (pushed [0x41#8])).cfg.bufSize < (small (pushed [0x41#8])).tlen.toNat + 16 ∧
    (pushed [0x41#8]).txframe = false ∧ (99#8).toNat ≤ 99 ∧
    (small State.reset).tlen.toNat + 16 ≤ (small State.reset).cfg.bufSize := by decide +kernel

theorem test_witness_RequestProgramBuildsTheFrame :
    let p : List Line := [.command .txClear, .txPushs (text "A"), .command (.frameBuild 99#8 .read)]
    Config.default.BufSizeOk ∧ (99#8).toNat ≤ 99 ∧ (text "A").length + 16 ≤ Config.default.bufSize ∧
    (host State.reset (programAccesses Config.default p)).pending = programAccesses Config.default p ++ [] := by
  decide +kernel

/-- The hypothesis only names the match condition; here it holds of the shortest frame. -/
theorem test_witness_ParseFrameStepsInOrder :
    matchFrame Config.default.term (text "OK+ 3BB67C61" ++ [0x0D#8]) = true ∧
    matchFrame Config.default.term (text "ER+04 FDDF8C4A" ++ [0x0D#8]) = true ∧
    hex8 (crc32 (text "ER+04")) = text "FDDF8C4A" ∧ hex8 (crc32 (text "ER+ZZ")) ≠ text "00000000" ∧
    BitVec.ofNat 8 (16 * hexval 0x30#8 + hexval 0x34#8) ∈ Config.default.codes.codes := by decide +kernel

theorem test_witness_MatchedFrameHasOneSplit :
    Config.default.TermOk ∧ matchFrame Config.default.term (text "OK+A B 6BD2BB94" ++ [0x0D#8]) = true := by
  decide +kernel

theorem test_witness_RxPushStoresOrDrops :
    held.rxdone = true ∧ partly.rxdone = false ∧ partly.ilen.toNat ≠ partly.cfg.bufSize ∧
    (small (received (List.replicate 16 0x41#8) false)).rxdone = false ∧
    (small (received (List.replicate 16 0x41#8) false)).ilen.toNat = (small State.reset).cfg.bufSize ∧
    (small (received (List.replicate 15 0x41#8) false)).ilen.toNat ≠ (small State.reset).cfg.bufSize := by decide +kernel

theorem test_witness_FrameParseRecordsTheResult :
    parseFrame held.cfg (held.ibuf.span 0 held.ilen.toNat) = (.ok 1, some 0x07591815#32) ∧
    parseFrame partly.cfg (partly.ibuf.span 0 partly.ilen.toNat) = (.malformed, none) ∧
    (parseFrame Config.default (text "ER+04 FDDF8C4A" ++ [0x0D#8])).1 = .deverr 0x04#8 ∧
    (parseFrame Config.default (text "OK+TRUE 168C4070" ++ [0x0D#8])).1 = .integrity := by decide +kernel

theorem test_witness_FailedParseLeavesNothingReadable :
    (∃ t, exec .frameParse partly = .next t ∧ t.result = .malformed) ∧
    ∃ t, exec .frameParse (received (text "OK+ 3BB67C60" ++ [0x0D#8]) true) = .next t ∧ t.result = .integrity :=
  ⟨next_of_after _ _ _ (by decide +kernel), next_of_after _ _ _ (by decide +kernel)⟩

theorem test_witness_SuccessfulParseIsRepeatable :
    (∃ t, exec .frameParse held = .next t ∧ t.result = .ok) ∧
    ∃ t, exec .frameParse (received (text "ER+04 FDDF8C4A" ++ [0x0D#8]) true) = .next t ∧ t.result = .deverr :=
  ⟨next_of_after _ _ _ (by decide +kernel), next_of_after _ _ _ (by decide +kernel)⟩

/-- The error response with code 4, in the smallest buffer, with its right checksum and with a wrong one; and an "OK"
response whose body has the greatest length. -/
theorem test_witness_ResponseProgramParses :
    let covered : List Byte := [0x45#8, 0x52#8] ++ [0x2B#8] ++ text "04"
    let p : List Line :=
      [.command .rxClear, .rxPushs (covered ++ [0x20#8] ++ text "FDDF8C4A" ++ [0x0D#8]), .command .frameParse]
    (small State.reset).cfg.Valid ∧ (∀ c ∈ text "04", c ≠ (small State.reset).cfg.term) ∧
    (text "04").length + 13 ≤ (small State.reset).cfg.bufSize ∧ (text "FDDF8C4A").length = 8 ∧
    (∀ c ∈ text "FDDF8C4A", hexdigit c = true) ∧ text "FDDF8C4A" = checksum covered ∧
    text "FDDF8C4B" ≠ checksum covered ∧ encodeHex ((0x04#8 : Byte).setWidth 32) 2 = some (text "04") ∧
    (host (small State.reset) (programAccesses (small State.reset).cfg p)).pending =
      programAccesses (small State.reset).cfg p ++ [] ∧
    (text "ABC").length + 13 ≤ (small State.reset).cfg.bufSize ∧ text "3BB67C61" = checksum (text "OK+") := by
  decide +kernel

theorem test_witness_FailuresAreToldApart :
    Config.default.term ∉ (text "OK+TR").take Config.default.bufSize ∧
    { Config.default with bufSize := 16 }.term ∉
      (text "OK+A B 6BD2BB94A" ++ [0x0D#8]).take { Config.default with bufSize := 16 }.bufSize ∧ partly.R42 ∧ partly.rxdone = false ∧ (∃ t, exec .frameParse partly = .next t ∧ t.result = .malformed) ∧
    ∃ t, exec .rxAbort partly = .next t ∧ t.result = .timeout :=
  ⟨by decide, by decide, test_partly_inv.r42, by decide, next_of_after _ _ _ (by decide +kernel),
   next_of_after _ _ _ (by decide)⟩

theorem test_witness_FailureResultsAndTheirRecords :
    (∃ t, exec .frameParse (received (text "ER+06 13D1ED66" ++ [0x0D#8]) true) = .next t ∧ t.result = .deverr) ∧
    (∃ t, exec .frameParse (received (text "ER+07 64D6DDF0" ++ [0x0D#8]) true) = .next t ∧ t.result = .malformed) ∧
    (∃ t, exec .frameParse (received (text "ER+ZZ 00000000" ++ [0x0D#8]) true) = .next t ∧ t.result = .integrity) ∧
    (∃ t, exec .rxAbort held = .next t ∧ t.result = .timeout) ∧
    (∃ t, exec (.frameBuild 100#8 .read) State.reset = .next t ∧ t.result = .precond) ∧
    ∃ t, exec (.rxPush 0x41#8) held = .next t ∧ t.result = .dropped :=
  ⟨next_of_after _ _ _ (by decide +kernel), next_of_after _ _ _ (by decide +kernel),
   next_of_after _ _ _ (by decide +kernel), next_of_after _ _ _ (by decide), next_of_after _ _ _ (by decide),
   next_of_after _ _ _ (by decide)⟩

theorem test_witness_ResultDescribesTheLastCommand :
    ∃ t, step (host held [wordAccess Config.default 0x010 (.write 0#32)]) = .next t ∧
      ((host held [wordAccess Config.default 0x010 (.write 0#32)]).pending =
        wordAccess Config.default 0x010 (.write 0#32) :: [] ∧ t.result = .ok) :=
  next_of_stepped _ _ (by decide +kernel)

theorem test_witness_other_access_is_no_command (w : Word) :
    wordAccess Config.default 0x010 (.write 0#32) ≠ cmdWrite Config.default w := by
  intro h
  have := congrArg Access.addr h
  simp [wordAccess, cmdWrite, Config.default] at this

theorem test_witness_StatusFieldsAndTheirWriters :
    (∃ t, exec (.rxPush 0x0D#8) partly = .next t ∧ (partly.rxdone = false ∧ t.rxdone = true)) ∧
    (∃ t, exec (.rxPush 0x41#8) (small (received (List.replicate 16 0x41#8) false)) = .next t ∧ t.rxovf = true) ∧
    (∃ t, exec (.rxPush 0x41#8) held = .next t ∧ (held.rxlate = false ∧ t.rxlate = true)) ∧
    (∃ t, exec (.frameBuild 0#8 .read) State.reset = .next t ∧ t.txframe = true) ∧
    (∃ t, exec .rxClear held = .next t ∧ (held.rxdone = true ∧ t.rxdone = false)) ∧
    ∃ t, exec .txClear { State.reset with txframe := true } = .next t ∧ t.txframe = false :=
  ⟨next_of_after _ _ _ (by decide), next_of_after _ _ _ (by decide +kernel), next_of_after _ _ _ (by decide),
   next_of_after _ _ _ (by decide +kernel), next_of_after _ _ _ (by decide), next_of_after _ _ _ (by decide)⟩

theorem test_witness_LengthAndParseRegisterWriters :
    (∃ t, exec (.rxPush 0x41#8) partly = .next t ∧ t.ilen ≠ partly.ilen) ∧
    (∃ t, exec (.txPush 0x41#8) State.reset = .next t ∧ t.tlen ≠ State.reset.tlen) ∧
    (∃ t, exec .rxClear held = .next t ∧ t.bodyLen ≠ held.bodyLen) ∧
    ∃ t, exec .frameParse { held with fcrc := 0#32 } = .next t ∧ t.fcrc ≠ 0#32 :=
  ⟨next_of_after _ _ _ (by decide), next_of_after _ _ _ (by decide), next_of_after _ _ _ (by decide),
   next_of_after _ _ _ (by decide +kernel)⟩

theorem test_witness_CodecRegisterWriters :
    (∃ t, exec (.hexDec 1#8) (withHs 0x46000000#32 0#32) = .next t ∧ t.hexval ≠ 0#32) ∧
    ∃ t, exec (.hexEnc 1#8) (withHex 0xF#32) = .next t ∧ t.hexstrHi ≠ 0#32 :=
  ⟨next_of_after _ _ _ (by decide +kernel), next_of_after _ _ _ (by decide +kernel)⟩

theorem test_witness_BufferWindowsAndTheirWriters :
    (partly.R42 ∧ partly.cfg.bufSize ≤ 256) ∧ ((small State.reset).cfg.bufSize ≤ 16 ∧ 16 < 256) ∧
    (∃ t, exec (.rxPush 0x41#8) partly = .next t ∧ t.ibuf.read 2 ≠ partly.ibuf.read 2) ∧
    (∃ t, exec (.txPush 0x41#8) State.reset = .next t ∧ t.tbuf.read 0 ≠ State.reset.tbuf.read 0) ∧
    ∃ t, exec (.frameBuild 0#8 .read) State.reset = .next t ∧ t.tbuf.read 15 ≠ State.reset.tbuf.read 15 :=
  ⟨⟨test_partly_inv.r42, by decide⟩, by decide, next_of_after _ _ _ (by decide +kernel),
   next_of_after _ _ _ (by decide +kernel), next_of_after _ _ _ (by decide +kernel)⟩

theorem test_witness_ConfigIsConstantAndReadable :
    (∃ t, step (host State.reset [cmdWrite Config.default 0x000000FF#32]) = .next t ∧ t.result = .ok) ∧
    (small State.reset).cfg.BufSizeOk ∧ Config.default.BufSizeOk :=
  ⟨next_of_stepped _ _ (by decide), by decide, by decide⟩

/-- Canonical memories, the first and the last stored index and the one after it. -/
theorem test_witness_BufferStoreLaws :
    (Memory.store [] 3 [1#8, 0#8, 2#8]).wf ∧ (3 ≤ 3 ∧ 3 < 3 + 3) ∧ (3 ≤ 5 ∧ 5 < 3 + 3) ∧ ¬ (3 ≤ 6 ∧ 6 < 3 + 3) ∧
    Memory.store [] 3 [1#8, 0#8, 2#8] = [(3, 1#8), (5, 2#8)] := by decide

theorem test_witness_InvariantHoldsAtPowerOn :
    let c : Config := { Config.default with term := 0x0A#8, bufSize := 16 }
    let ib : Memory := [(0, 0x0A#8), (15, 1#8)]
    c.Valid ∧ ib.wf ∧ ∀ x ∈ ib, x.1 < c.bufSize := by decide

theorem test_witness_InvariantKeptByEveryStep :
    held.Inv ∧ partly.Inv ∧
    ∃ t, step (host held [cmdWrite Config.default 0x00000023#32]) = .next t ∧ t.bodyLen = 1#9 :=
  ⟨test_held_inv, test_partly_inv, next_of_stepped _ _ (by decide +kernel)⟩

theorem test_witness_ReachableStatesMeetR42 :
    Config.default.Valid ∧ Memory.wf [] ∧
    ∃ t, core.run 1 { State.powerOn Config.default [] [] with pending := [cmdWrite Config.default 0x00000D21#32] } =
      .next t :=
  ⟨by decide, by decide, _, rfl⟩

theorem test_witness_UnusedBytesAreUnobservable : partly.Looks { partly with ibuf := partly.ibuf.write 7 0x55#8 } := by
  refine ⟨rfl, fun k hk => ?_, fun _ _ => rfl⟩
  have : partly.ilen.toNat = 2 := by decide
  exact Memory.read_write_other partly.ibuf 0x55#8 (by omega)

theorem test_witness_HazardFreeCommandsFailOnlyByContract :
    mustReadResult .frameParse = true ∧
    ((small (received (List.replicate 16 0x41#8) false)).hazards (.rxPush 0x41#8) = [] ∧
      ∃ t, exec (.rxPush 0x41#8) (small (received (List.replicate 16 0x41#8) false)) = .next t ∧ t.result = .dropped) ∧
    ((small (pushed (List.replicate 16 0x41#8))).hazards (.txPush 0x41#8) = [] ∧
      ∃ t, exec (.txPush 0x41#8) (small (pushed (List.replicate 16 0x41#8))) = .next t ∧ t.result = .precond) ∧
    (State.reset.hazards (.frameBuild 100#8 .read) = [] ∧
      ∃ t, exec (.frameBuild 100#8 .read) State.reset = .next t ∧ t.result = .precond) ∧
    (partly.hazards .rxAbort = [] ∧ ∃ t, exec .rxAbort partly = .next t ∧ t.result = .timeout) ∧
    (held.hazards .frameParse = [] ∧ held.R42 ∧ ∃ t, exec .frameParse held = .next t ∧ t.result = .ok) :=
  ⟨rfl, ⟨by decide, next_of_after _ _ _ (by decide +kernel)⟩, ⟨by decide, next_of_after _ _ _ (by decide +kernel)⟩,
   ⟨by decide, next_of_after _ _ _ (by decide)⟩, ⟨by decide, next_of_after _ _ _ (by decide)⟩,
   ⟨by decide, test_held_inv.r42, next_of_after _ _ _ (by decide +kernel)⟩⟩

theorem test_witness_BodyStaysReadable :
    held.Inv ∧ 0 < held.bodyLen.toNat ∧ ∃ t, exec (.rxPush 0x41#8) held = .next t ∧ t.result = .dropped :=
  ⟨test_held_inv, by decide, next_of_after _ _ _ (by decide)⟩

end Sys2Proof.Tests
end

section
/-! SUPPORT. The receive side and the transmit side of the state, what a command can do to each, and the inductive
invariant (spec/10_state.md R42) kept by every command, step and run. -/

namespace Sys2Proof.Machine

/-! ### The two sides of the state -/

/-- The receive side of a state: what the RX commands and FRAME.PARSE work on. -/
structure RxSide where
  rxdone : Bool
  rxovf : Bool
  rxlate : Bool
  ilen : Len
  ibuf : Memory
  bodyLen : Len
  deverrValid : Bool
  deverrCode : Byte

/-- The transmit side of a state: what the TX commands and FRAME.BUILD work on. -/
structure TxSide where
  txframe : Bool
  tlen : Len
  tbuf : Memory

/-- The receive side of `s`. -/
def State.rxSide (s : State) : RxSide :=
  { rxdone := s.rxdone, rxovf := s.rxovf, rxlate := s.rxlate, ilen := s.ilen, ibuf := s.ibuf, bodyLen := s.bodyLen,
    deverrValid := s.deverrValid, deverrCode := s.deverrCode }

/-- The transmit side of `s`. -/
def State.txSide (s : State) : TxSide := { txframe := s.txframe, tlen := s.tlen, tbuf := s.tbuf }

/-- The commands that empty IBUF (R165, R167, R168, R191): of FRAME.PARSE, the failing ones. -/
def EmptiesRx (i : Instr) (r : Result) : Prop :=
  i = .rxClear ∨ i = .rxAbort ∨ i = .reset ∨ i = .frameParse ∧ (r = .malformed ∨ r = .integrity)

/-- The ways a command can take the receive side of `s` to that of `t`. -/
inductive RxEffect (s t : State) : Instr → Prop where
  | kept {i : Instr} (h : t.rxSide = s.rxSide) : RxEffect s t i
  | emptied {i : Instr} (hi : EmptiesRx i t.result) (h : t.rxSide = s.emptyRx.rxSide) : RxEffect s t i
  | late (b : Byte) (h : t.rxSide = ({ s with rxlate := true } : State).rxSide) : RxEffect s t (.rxPush b)
  | full (b : Byte) (h : t.rxSide = ({ s with rxovf := true } : State).rxSide) : RxEffect s t (.rxPush b)
  | stored (b : Byte) (hd : s.rxdone = false) (hl : s.ilen.toNat ≠ s.cfg.bufSize)
      (h : t.rxSide = (s.appendRx b).rxSide) : RxEffect s t (.rxPush b)
  | body (n : Nat) (o : Option Word) (hp : parseFrame s.cfg s.received = (.ok n, o))
      (h : t.rxSide = (s.recordParse n false 0#8).rxSide) : RxEffect s t .frameParse
  | error (code : Byte) (o : Option Word) (hp : parseFrame s.cfg s.received = (.deverr code, o))
      (h : t.rxSide = (s.recordParse 2 true code).rxSide) : RxEffect s t .frameParse

/-- The ways a command can take the transmit side of `s` to that of `t`. -/
inductive TxEffect (s t : State) : Instr → Prop where
  | kept {i : Instr} (h : t.txSide = s.txSide) : TxEffect s t i
  | emptied {i : Instr} (hi : i = .txClear ∨ i = .reset) (h : t.txSide = s.emptyTx.txSide) : TxEffect s t i
  | stored (b : Byte) (hf : s.txframe = false) (hl : s.tlen.toNat ≠ s.cfg.bufSize)
      (h : t.txSide = (s.appendTx b).txSide) : TxEffect s t (.txPush b)
  | framed (cid : Byte) (dir : Direction) (f : List Byte) (hl : s.tlen.toNat + 16 ≤ s.cfg.bufSize)
      (hb : buildFrame s.cfg.term cid.toNat dir s.outgoing = some f)
      (h : t.txSide = (s.holdFrame f 0#32).txSide) : TxEffect s t (.frameBuild cid dir)

/-- What a command does to the receive side. -/
theorem Effect.rx {i : Instr} {s t : State} (h : Effect i s t) : RxEffect s t i := by
  cases h with
  | rxClear => exact .emptied (.inl rfl) rfl
  | rxAbort => exact .emptied (.inr (.inl rfl)) rfl
  | reset => exact .emptied (.inr (.inr (.inl rfl))) rfl
  | parseMalformed _ o => exact .emptied (.inr (.inr (.inr ⟨rfl, .inl rfl⟩))) (by cases o <;> rfl)
  | parseIntegrity _ o => exact .emptied (.inr (.inr (.inr ⟨rfl, .inr rfl⟩))) (by cases o <;> rfl)
  | rxPushLate b => exact .late b rfl
  | rxPushFull b => exact .full b rfl
  | rxPushStore b _ hd hl => exact .stored b hd hl rfl
  | parseOk _ n o hp => exact .body n o hp (by cases o <;> rfl)
  | parseDeverr _ code o hp => exact .error code o hp (by cases o <;> rfl)
  | _ => exact .kept rfl

/-- What a command does to the transmit side. -/
theorem Effect.tx {i : Instr} {s t : State} (h : Effect i s t) : TxEffect s t i := by
  cases h with
  | txClear => exact .emptied (.inl rfl) rfl
  | reset => exact .emptied (.inr rfl) rfl
  | txPushStore b _ hf hl => exact .stored b hf hl rfl
  | buildOk cid dir _ f _ _ hl hb => exact .framed cid dir f hl hb rfl
  | parseOk _ _ o | parseDeverr _ _ o | parseMalformed _ o | parseIntegrity _ o => exact .kept (by cases o <;> rfl)
  | _ => exact .kept rfl

/-! ### The invariant, side by side -/

/-- The invariant's part about the receive side. -/
structure RxSide.Ok (c : Config) (r : RxSide) : Prop where
  ilen_le      : r.ilen.toNat ≤ c.bufSize
  rxdone_iff   : r.rxdone = true ↔ 1 ≤ r.ilen.toNat ∧ r.ibuf.read (r.ilen.toNat - 1) = c.term
  one_term     : ∀ k, k + 1 < r.ilen.toNat → r.ibuf.read k ≠ c.term
  deverr_known : r.deverrValid = true → knownCode c.codes r.deverrCode = true ∧ r.bodyLen = 2#9
  body_len     : 0 < r.bodyLen.toNat → r.ilen.toNat = r.bodyLen.toNat + 13
  body_done    : 0 < r.bodyLen.toNat → r.rxdone = true
  ibuf_wf      : r.ibuf.wf
  ibuf_within  : ∀ x ∈ r.ibuf, x.1 < c.bufSize

/-- The invariant's part about the transmit side. -/
structure TxSide.Ok (c : Config) (x : TxSide) : Prop where
  tlen_le      : x.tlen.toNat ≤ c.bufSize
  txframe_len  : x.txframe = true → 16 ≤ x.tlen.toNat
  txframe_form : x.txframe = true →
    ∃ (cid : Nat) (dir : Direction) (p : List Byte), buildFrame c.term cid dir p = some (x.tbuf.span 0 x.tlen.toNat)
  tbuf_wf      : x.tbuf.wf
  tbuf_within  : ∀ y ∈ x.tbuf, y.1 < c.bufSize

/-- The invariant is one of the parameters, one of the receive side and one of the transmit side. -/
theorem State.inv_iff {s : State} : s.Inv ↔ s.cfg.Valid ∧ s.rxSide.Ok s.cfg ∧ s.txSide.Ok s.cfg := by
  constructor
  · rintro ⟨hv, ⟨h1, h2, h3, h4, h5, h6, h7, h8⟩, h9, h10, h11, h12, h13⟩
    exact ⟨hv, ⟨h1, h3, h4, h7, h8, h9, h10, h12⟩, ⟨h2, h5, h6, h11, h13⟩⟩
  · rintro ⟨hv, ⟨h1, h3, h4, h7, h8, h9, h10, h12⟩, ⟨h2, h5, h6, h11, h13⟩⟩
    exact ⟨hv, ⟨h1, h2, h3, h4, h5, h6, h7, h8⟩, h9, h10, h11, h12, h13⟩

/-- The invariant sees only the parameters and the two sides. -/
theorem State.Inv.of_sides {s t : State} (hs : s.Inv) (hc : t.cfg = s.cfg) (hr : t.rxSide = s.rxSide)
    (hx : t.txSide = s.txSide) : t.Inv := by
  rw [State.inv_iff, hc, hr, hx]; exact State.inv_iff.1 hs

/-- An emptied receive side meets the invariant's part, whatever bytes IBUF holds. -/
theorem RxSide.Ok.of_empty {c : Config} {r : RxSide} (hi : r.ilen = 0#9) (hd : r.rxdone = false)
    (hb : r.bodyLen = 0#9) (hv : r.deverrValid = false) (hwf : r.ibuf.wf) (hw : ∀ x ∈ r.ibuf, x.1 < c.bufSize) :
    r.Ok c where
  ilen_le      := by simp [hi]
  rxdone_iff   := by simp [hi, hd]
  one_term     := by simp [hi]
  deverr_known := by simp [hv]
  body_len     := by simp [hb]
  body_done    := by simp [hb]
  ibuf_wf      := hwf
  ibuf_within  := hw

/-- An emptied transmit side meets the invariant's part, whatever bytes TBUF holds. -/
theorem TxSide.Ok.of_empty {c : Config} {x : TxSide} (hl : x.tlen = 0#9) (hf : x.txframe = false) (hwf : x.tbuf.wf)
    (hw : ∀ y ∈ x.tbuf, y.1 < c.bufSize) : x.Ok c where
  tlen_le      := by simp [hl]
  txframe_len  := by simp [hf]
  txframe_form := by simp [hf]
  tbuf_wf      := hwf
  tbuf_within  := hw

/-- A byte pushed below the capacity keeps the invariant's part: it is the terminator exactly when RXDONE becomes 1
(R166). -/
theorem RxSide.Ok.stored {s : State} (hs : s.rxSide.Ok s.cfg) (hv : s.cfg.Valid) (hd : s.rxdone = false)
    (hl : s.ilen.toNat ≠ s.cfg.bufSize) (b : Byte) : (s.appendRx b).rxSide.Ok s.cfg := by
  obtain ⟨hle, hdone, hterm, hknown, -, hbody, hwf, hwithin⟩ := hs
  obtain ⟨-, ⟨-, h256⟩, -⟩ := hv
  have hlt : s.ilen.toNat < s.cfg.bufSize := lt_of_le_of_ne hle hl
  have hsucc : (s.ilen + 1#9).toNat = s.ilen.toNat + 1 := len_succ (by omega)
  have hbody0 : ¬ 0 < s.bodyLen.toNat := fun h => absurd ((hbody h).symm.trans hd) (by decide)
  constructor
  case ilen_le => show (s.ilen + 1#9).toNat ≤ _; omega
  case rxdone_iff =>
    show (s.rxdone || (b == s.cfg.term)) = true ↔
      1 ≤ (s.ilen + 1#9).toNat ∧ (s.ibuf.write s.ilen.toNat b).read ((s.ilen + 1#9).toNat - 1) = s.cfg.term
    simp [hd, hsucc]
  case one_term =>
    intro k hk
    show (s.ibuf.write s.ilen.toNat b).read k ≠ s.cfg.term
    have hk : k < s.ilen.toNat := by
      have : k + 1 < (s.ilen + 1#9).toNat := hk
      omega
    rw [Memory.read_write_other _ _ (by omega)]
    by_cases hlast : k + 1 < s.ilen.toNat
    · exact hterm k hlast
    · obtain rfl : k = s.ilen.toNat - 1 := by omega
      intro hread
      have : s.rxdone = true := hdone.2 ⟨by show 1 ≤ s.ilen.toNat; omega, hread⟩
      simp [hd] at this
  case deverr_known =>
    intro hvalid
    have h2 : s.bodyLen = 2#9 := (hknown hvalid).2
    exact absurd (by simp [h2]) hbody0
  case body_len => exact fun h => absurd h hbody0
  case body_done => exact fun h => absurd h hbody0
  case ibuf_wf => exact Memory.write_wf _ _ hwf
  case ibuf_within =>
    intro x hx
    rcases Memory.mem_write hx with rfl | hx
    · exact hlt
    · exact hwithin x hx

/-- A matched frame ends in the terminator, so RXDONE is 1. -/
theorem RxSide.Ok.rxdone_of_match {s : State} (hs : s.rxSide.Ok s.cfg)
    (hm : matchFrame s.cfg.term s.received = true) : s.rxdone = true := by
  obtain ⟨h13, hlast, -⟩ := (matchFrame_iff _ _).1 hm
  rw [State.received_length] at h13 hlast
  rw [State.received_getElem? _ (by omega), Option.some.injEq] at hlast
  exact hs.rxdone_iff.2 ⟨by show 1 ≤ s.ilen.toNat; omega, hlast⟩

/-- Recording a parse of a matched frame keeps the invariant's part where the recorded length is the frame's body and
the recorded error a known code. -/
theorem RxSide.Ok.recorded {s : State} (hs : s.rxSide.Ok s.cfg) (hm : matchFrame s.cfg.term s.received = true)
    {n : Nat} (hn : s.ilen.toNat = n + 13) {valid : Bool} {code : Byte}
    (hknown : valid = true → knownCode s.cfg.codes code = true ∧ n = 2) :
    (s.recordParse n valid code).rxSide.Ok s.cfg := by
  have hlen : (BitVec.ofNat 9 n).toNat = n := by have := s.ilen.isLt; simp; omega
  exact {
    ilen_le      := hs.ilen_le
    rxdone_iff   := hs.rxdone_iff
    one_term     := hs.one_term
    deverr_known := fun h => ⟨(hknown h).1, congrArg (BitVec.ofNat 9) (hknown h).2⟩
    body_len     := fun _ => hn.trans (congrArg (· + 13) hlen.symm)
    body_done    := fun _ => hs.rxdone_of_match hm
    ibuf_wf      := hs.ibuf_wf
    ibuf_within  := hs.ibuf_within }

/-- A parameter byte pushed below the capacity keeps the invariant's part (R143). -/
theorem TxSide.Ok.stored {s : State} (hs : s.txSide.Ok s.cfg) (hv : s.cfg.Valid) (hf : s.txframe = false)
    (hl : s.tlen.toNat ≠ s.cfg.bufSize) (b : Byte) : (s.appendTx b).txSide.Ok s.cfg := by
  obtain ⟨hle, -, -, hwf, hwithin⟩ := hs
  obtain ⟨-, ⟨-, h256⟩, -⟩ := hv
  have hlt : s.tlen.toNat < s.cfg.bufSize := lt_of_le_of_ne hle hl
  have hsucc : (s.tlen + 1#9).toNat = s.tlen.toNat + 1 := len_succ (by omega)
  have hf' : (s.appendTx b).txSide.txframe ≠ true := by simp [State.txSide, hf]
  constructor
  case tlen_le => show (s.tlen + 1#9).toNat ≤ _; omega
  case txframe_len => exact fun h => absurd h hf'
  case txframe_form => exact fun h => absurd h hf'
  case tbuf_wf => exact Memory.write_wf _ _ hwf
  case tbuf_within =>
    intro x hx
    rcases Memory.mem_write hx with rfl | hx
    · exact hlt
    · exact hwithin x hx

/-- A built frame that fits keeps the invariant's part (R144). -/
theorem TxSide.Ok.framed {s : State} (hs : s.txSide.Ok s.cfg) (hv : s.cfg.Valid) {cid : Nat} {dir : Direction}
    {f : List Byte} (hl : s.tlen.toNat + 16 ≤ s.cfg.bufSize)
    (hb : buildFrame s.cfg.term cid dir s.outgoing = some f) (c : Word) : (s.holdFrame f c).txSide.Ok s.cfg := by
  obtain ⟨-, ⟨-, h256⟩, -⟩ := hv
  have hlen : f.length = s.tlen.toNat + 16 := by rw [buildFrame_length hb, State.outgoing_length]
  have htlen : (s.holdFrame f c).tlen.toNat = f.length := by simp; omega
  constructor
  case tlen_le => exact htlen.trans_le (by omega)
  case txframe_len => exact fun _ => le_of_le_of_eq (by omega) htlen.symm
  case txframe_form =>
    refine fun _ => ⟨cid, dir, s.outgoing, ?_⟩
    show _ = some (s.holdFrame f c).outgoing
    rw [State.outgoing_holdFrame _ _ _ (by omega), hb]
  case tbuf_wf => exact Memory.store_wf _ _ hs.tbuf_wf
  case tbuf_within =>
    intro x hx
    rcases Memory.mem_store hx with hx | hx
    · omega
    · exact hs.tbuf_within x hx

/-- A parse that found a body passed the match step, and its length is the frame's less the 13 other bytes. -/
theorem parseFrame_ok {c : Config} {f : List Byte} {n : Nat} {o : Option Word}
    (h : parseFrame c f = (.ok n, o)) : matchFrame c.term f = true ∧ f.length = n + 13 := by
  rcases parseFrame_cases c f with ⟨-, he⟩ | ⟨hm, r, he, hr⟩
  · simp [he] at h
  · have h13 := ((matchFrame_iff _ _).1 hm).1
    obtain ⟨rfl, -⟩ := Prod.mk.inj (he.symm.trans h)
    rcases hr with hr | hr | hr | ⟨_, hr, -⟩ <;> cases hr
    exact ⟨hm, by omega⟩

/-- A parse that found a device error passed the match step on a frame of 15 bytes with a known code. -/
theorem parseFrame_deverr {c : Config} {f : List Byte} {code : Byte} {o : Option Word}
    (h : parseFrame c f = (.deverr code, o)) :
    matchFrame c.term f = true ∧ f.length = 15 ∧ knownCode c.codes code = true := by
  rcases parseFrame_cases c f with ⟨-, he⟩ | ⟨hm, r, he, hr⟩
  · simp [he] at h
  · obtain ⟨rfl, -⟩ := Prod.mk.inj (he.symm.trans h)
    rcases hr with hr | hr | hr | ⟨_, hr, hk, hl⟩ <;> cases hr
    exact ⟨hm, hl, hk⟩

/-- No command breaks the invariant's part about the receive side. -/
theorem RxEffect.keeps_ok {i : Instr} {s t : State} (h : RxEffect s t i) (hv : s.cfg.Valid)
    (hs : s.rxSide.Ok s.cfg) : t.rxSide.Ok s.cfg := by
  cases h with
  | kept h => rw [h]; exact hs
  | emptied _ h => rw [h]; exact .of_empty rfl rfl rfl rfl hs.ibuf_wf hs.ibuf_within
  | late b h | full b h =>
    rw [h]
    exact ⟨hs.ilen_le, hs.rxdone_iff, hs.one_term, hs.deverr_known, hs.body_len, hs.body_done, hs.ibuf_wf,
      hs.ibuf_within⟩
  | stored b hd hl h => rw [h]; exact hs.stored hv hd hl b
  | body n o hp h =>
    obtain ⟨hm, hlen⟩ := parseFrame_ok hp
    rw [h]; exact hs.recorded hm (by simpa using hlen) (by simp)
  | error code o hp h =>
    obtain ⟨hm, hlen, hknown⟩ := parseFrame_deverr hp
    rw [h]; exact hs.recorded hm (by simpa using hlen) fun _ => ⟨hknown, rfl⟩

/-- No command breaks the invariant's part about the transmit side. -/
theorem TxEffect.keeps_ok {i : Instr} {s t : State} (h : TxEffect s t i) (hv : s.cfg.Valid)
    (hs : s.txSide.Ok s.cfg) : t.txSide.Ok s.cfg := by
  cases h with
  | kept h => rw [h]; exact hs
  | emptied _ h => rw [h]; exact .of_empty rfl rfl hs.tbuf_wf hs.tbuf_within
  | stored b hf hl h => rw [h]; exact hs.stored hv hf hl b
  | framed cid dir f hl hb h => rw [h]; exact hs.framed hv hl hb _

/-- Every command keeps the invariant. -/
theorem Effect.keeps_inv {i : Instr} {s t : State} (h : Effect i s t) (hs : s.Inv) : t.Inv := by
  obtain ⟨hv, hr, hx⟩ := State.inv_iff.1 hs
  rw [State.inv_iff, h.keeps_host.1]
  exact ⟨hv, h.rx.keeps_ok hv hr, h.tx.keeps_ok hv hx⟩

/-- Every step keeps the invariant: an access that runs no command leaves both sides. -/
theorem Served.keeps_inv {s t : State} (h : Served s t) (hs : s.Inv) : t.Inv := by
  cases h with
  | command _ w i rest _ _ he => exact he.keeps_inv (hs.of_sides rfl rfl rfl)
  | _ => exact hs.of_sides rfl rfl rfl

/-- Settles O56: a step runs a command or leaves both sides of the state, and every command keeps the invariant's part
about each side. -/
theorem invariantKeptByEveryStep : Obligations.InvariantKeptByEveryStep :=
  fun _ _ hs h => (step_served h).keeps_inv hs

/-- The invariant holds after power-on reset, whatever the host's program (R43). -/
theorem State.powerOn_inv {c : Config} {ib tb : Memory} (hc : c.Valid) (hib : ib.wf) (htb : tb.wf)
    (hiw : ∀ x ∈ ib, x.1 < c.bufSize) (htw : ∀ x ∈ tb, x.1 < c.bufSize) (program : List Access) :
    ({ State.powerOn c ib tb with pending := program } : State).Inv :=
  State.inv_iff.2 ⟨hc, .of_empty rfl rfl rfl rfl hib hiw, .of_empty rfl rfl htb htw⟩

/-- A run that has a next state took its first step and ran on from there. -/
theorem run_succ_next {M : Host.Core} {n : Nat} {s t : M.State} (h : M.run (n + 1) s = .next t) :
    ∃ u, M.step s = .next u ∧ M.run n u = .next t := by
  rw [Host.Core.run.eq_2] at h
  split at h
  · rename_i u hu; exact ⟨u, hu, h⟩
  · cases h
  · cases h

/-- Every run keeps the invariant. -/
theorem run_keeps_inv (n : Nat) {s t : State} (hs : s.Inv) (h : core.run n s = .next t) : t.Inv := by
  induction n generalizing s with
  | zero => cases h; exact hs
  | succ n ih =>
    obtain ⟨u, hu, hrun⟩ := run_succ_next (M := core) h
    exact ih ((step_served hu).keeps_inv hs) hrun

/-- Settles O55, for power-on with any parameters and for `State.reset`, which is one of these. -/
theorem invariantHoldsAtPowerOn : Obligations.InvariantHoldsAtPowerOn :=
  ⟨fun _ _ _ hc hib htb hiw htw => State.powerOn_inv hc hib htb hiw htw [],
   State.powerOn_inv (c := Config.default) (by decide) (by decide) (by decide) (by decide) (by decide) []⟩

/-- Settles O57: the invariant holds at power-on, every run keeps it, and it contains R42. -/
theorem reachableStatesMeetR42 : Obligations.ReachableStatesMeetR42 :=
  fun _ _ _ program n _ hc hib htb hiw htw h => (run_keeps_inv n (State.powerOn_inv hc hib htb hiw htw program) h).r42

end Sys2Proof.Machine
end

section
/-! SUPPORT. What the host reads (spec/10_state.md R21, R24, R35, R43), and the statements about single steps, reset,
the parameters and the buffers as memories. -/

namespace Sys2Proof.Machine

/-! ### Reads -/

theorem regOffset_of_targetOf {off : Nat} {r : Reg} (h : targetOf off = .register r) : regOffset r = off := by
  unfold targetOf at h
  split at h
  · rename_i q hq
    cases h
    simpa using List.find?_some hq
  · split at h
    · cases h
    · split at h <;> cases h

/-- Two states read alike at an offset where its register and the valid bytes of the buffers read alike. -/
theorem State.windowRead_congr {s t : State} {off : Nat}
    (hreg : ∀ r, regOffset r = off → t.readReg r = s.readReg r)
    (hib : ∀ k, bufferWord t.ibuf t.ilen k = bufferWord s.ibuf s.ilen k)
    (htb : ∀ k, bufferWord t.tbuf t.tlen k = bufferWord s.tbuf s.tlen k) : t.windowRead off = s.windowRead off := by
  unfold State.windowRead
  cases h : targetOf off with
  | register r => exact hreg r (regOffset_of_targetOf h)
  | ibufWord k => exact hib k
  | tbufWord k => exact htb k
  | reserved => rfl

theorem State.windowRead_status (s : State) : s.windowRead 0x004 = s.statusWord := s.windowRead_register .status

theorem State.windowRead_config (s : State) : s.windowRead 0x030 = configWord s.cfg := s.windowRead_register .config

theorem bufferWord_empty (m : Memory) (k : Nat) : bufferWord m 0#9 k = 0#32 := by simp [bufferWord]

theorem bufferWord_congr {m m' : Memory} {n : Len} (h : ∀ k, k < n.toNat → m'.read k = m.read k) (k : Nat) :
    bufferWord m' n k = bufferWord m n k := by
  unfold bufferWord
  split
  · rw [h k ‹_›]
  · rfl

/-- CONFIG as a number (R35). -/
theorem configWord_toNat {c : Config} (h : c.BufSizeOk) : (configWord c).toNat = c.bufSize + 65536 * c.term.toNat := by
  have hn : (BitVec.ofNat 9 c.bufSize).toNat = c.bufSize := by simp; omega
  have ht := c.term.isLt
  simp only [configWord, BitVec.toNat_setWidth, BitVec.toNat_append, hn]
  rw [← Nat.shiftLeft_add_eq_or_of_lt (by omega), ← Nat.shiftLeft_add_eq_or_of_lt (by decide)]
  simp only [Nat.shiftLeft_eq, BitVec.toNat_ofNat]
  omega

/-- The fields of CONFIG (R35). -/
theorem configWord_fields {c : Config} (h : c.BufSizeOk) :
    ((configWord c).extractLsb' 0 9).toNat = c.bufSize ∧ (configWord c).extractLsb' 9 7 = 0#7 ∧
      (configWord c).extractLsb' 16 8 = c.term ∧ (configWord c).extractLsb' 24 8 = 0#8 := by
  have hw := configWord_toNat h
  have ht := c.term.isLt
  obtain ⟨-, h256⟩ := h
  refine ⟨?_, BitVec.eq_of_toNat_eq ?_, BitVec.eq_of_toNat_eq ?_, BitVec.eq_of_toNat_eq ?_⟩ <;>
    simp only [BitVec.extractLsb'_toNat, hw, Nat.shiftRight_eq_div_pow, BitVec.toNat_ofNat] <;> omega

/-- STATUS bit by bit (R24). -/
theorem State.statusWord_getLsbD (s : State) (i : Nat) :
    s.statusWord.getLsbD i =
      if i < 4 then s.result.code.getLsbD i else if i = 4 then s.rxdone else if i = 5 then s.rxovf
      else if i = 6 then s.rxlate else if i = 7 then s.txframe else false := by
  by_cases hi : i < 8
  · simp only [State.statusWord, flagBit, BitVec.getLsbD_setWidth, BitVec.getLsbD_append]
    interval_cases i <;> simp
  · simp only [State.statusWord, BitVec.getLsbD_setWidth]
    rw [BitVec.getLsbD_of_ge _ i (by omega), Bool.and_false, if_neg (by omega), if_neg (by omega), if_neg (by omega),
      if_neg (by omega), if_neg (by omega)]

/-- The fields of STATUS (R24). -/
theorem State.statusWord_fields (s : State) :
    s.statusWord.extractLsb' 0 4 = s.result.code ∧ s.statusWord.getLsbD 4 = s.rxdone ∧
      s.statusWord.getLsbD 5 = s.rxovf ∧ s.statusWord.getLsbD 6 = s.rxlate ∧ s.statusWord.getLsbD 7 = s.txframe ∧
      s.statusWord.extractLsb' 8 24 = 0#24 := by
  refine ⟨BitVec.eq_of_getLsbD_eq fun i hi => ?_, s.statusWord_getLsbD 4, s.statusWord_getLsbD 5,
    s.statusWord_getLsbD 6, s.statusWord_getLsbD 7, BitVec.eq_of_getLsbD_eq fun i hi => ?_⟩
  · simp [s.statusWord_getLsbD, hi]
  · rw [BitVec.getLsbD_extractLsb', s.statusWord_getLsbD, if_neg (by omega), if_neg (by omega), if_neg (by omega),
      if_neg (by omega), if_neg (by omega)]
    simp

/-! ### Steps, reset, parameters, buffers -/

/-- Settles O6: a step on a CMD write runs the word's command, and the word decodes to `i`. -/
theorem stepRunsDecodedInstruction : Obligations.StepRunsDecodedInstruction :=
  fun _ _ _ _ hp hw => (step_cmdWrite hp).trans (State.command_of_decode hw)

/-- Settles O7: with nothing pending there is no access to serve. -/
theorem idleStepKeepsState : Obligations.IdleStepKeepsState := by
  intro s hp
  rw [step, serveNext, hp]

/-- Power-on leaves every register 0 but the accumulator, whose complement reads 0, and CONFIG (R43). -/
theorem powerOn_readReg (c : Config) (ib tb : Memory) (r : Reg) (ha : r ≠ .crcAcc) (hc : r ≠ .config) :
    (State.powerOn c ib tb).readReg r = 0#32 := by
  cases r with
  | crcAcc => exact absurd rfl ha
  | config => exact absurd rfl hc
  | status => show (flagBit false ++ flagBit false ++ flagBit false ++ flagBit false ++ 0#4).setWidth 32 = 0#32; decide
  | crcOut => show crcFinal 0xFFFFFFFF#32 = 0#32; decide
  | deverr => show (flagBit false ++ 0#8).setWidth 32 = 0#32; decide
  | _ => rfl

/-- The RESET command leaves every register but STATUS at its power-on value (R191). -/
theorem resetRegisters_readReg (s : State) (ib tb : Memory) (r : Reg) (hr : r ≠ .status) :
    (s.resetRegisters.raise .ok).readReg r = (State.powerOn s.cfg ib tb).readReg r := by
  cases r with
  | status => exact absurd rfl hr
  | _ => rfl

/-- After power-on every aligned offset but CRC_ACC and CONFIG reads 0 (R43). -/
theorem powerOn_windowRead_zero (c : Config) (ib tb : Memory) {off : Nat} (h4 : off % 4 = 0) (ha : off ≠ 0x008)
    (hc : off ≠ 0x030) : (State.powerOn c ib tb).windowRead off = 0#32 := by
  rcases offset_cases h4 with ⟨r, rfl⟩ | ⟨k, hk, rfl⟩ | ⟨k, hk, rfl⟩ | hr
  · rw [State.windowRead_register]
    exact powerOn_readReg c ib tb r (fun h => ha (congrArg regOffset h)) (fun h => hc (congrArg regOffset h))
  · rw [State.windowRead_ibuf _ hk]; exact bufferWord_empty _ _
  · rw [State.windowRead_tbuf _ hk]; exact bufferWord_empty _ _
  · exact State.windowRead_reserved _ hr

/-- Settles O15: the registers at power-on one by one, and RESET compared with power-on register by register; no buffer
byte is valid in either state. -/
theorem resetReadsAsPowerOn : Obligations.ResetReadsAsPowerOn := by
  refine ⟨fun c ib tb => ⟨?_, ?_, ?_, fun hc => ?_, ?_⟩, fun s t ib tb h => ?_⟩
  · exact powerOn_windowRead_zero c ib tb (by decide) (by decide) (by decide)
  · exact State.windowRead_register _ .crcAcc
  · exact powerOn_windowRead_zero c ib tb (by decide) (by decide) (by decide)
  · rw [State.windowRead_config]; exact configWord_toNat hc
  · exact fun off h4 _ _ ha _ hc => powerOn_windowRead_zero c ib tb h4 ha hc
  · cases h
    refine ⟨fun off hoff => State.windowRead_congr (fun r hr => ?_) (fun k => ?_) fun k => ?_, ?_⟩
    · exact resetRegisters_readReg s ib tb r fun h => hoff (hr.symm.trans (congrArg regOffset h))
    · exact (bufferWord_empty _ k).trans (bufferWord_empty _ k).symm
    · exact (bufferWord_empty _ k).trans (bufferWord_empty _ k).symm
    · rw [State.windowRead_status]
      show (flagBit false ++ flagBit false ++ flagBit false ++ flagBit false ++ 1#4).setWidth 32 = 1#32
      decide

/-- Settles O53: every way a step can have a next state keeps the parameters, and CONFIG is read as a number. -/
theorem configIsConstantAndReadable : Obligations.ConfigIsConstantAndReadable := by
  refine ⟨fun s t h => (step_served h).keeps_cfg, fun s hs => ?_⟩
  rw [State.windowRead_config]
  exact configWord_fields hs

/-- Settles O54, by the laws of the byte arrays. -/
theorem bufferStoreLaws : Obligations.BufferStoreLaws := by
  refine ⟨fun m i j bs => ⟨fun h => ?_, fun h => ?_⟩, fun m i bs h => Memory.store_wf i bs h,
    fun m n hm hn h => Memory.ext_of_read hm hn h⟩
  · rw [Memory.read_store, dif_pos h]
  · rw [Memory.read_store, dif_neg h]

end Sys2Proof.Machine
end

section
/-! SUPPORT. Two states that differ only in unused buffer bytes (spec/10_state.md R41) read alike, and every update,
command and step keeps them so. -/

namespace Sys2Proof.Machine

/-- The length after a stored byte, the 9-bit wrap included. -/
theorem len_succ_le (n : Len) : (n + 1#9).toNat ≤ n.toNat + 1 := Nat.mod_le _ _

section
variable {s t : State} (h : s.Looks t)
include h

/-- What does not depend on the buffers' bytes is alike. -/
theorem State.Looks.field {α : Type} (f : State → α)
    (hf : ∀ (u : State) (ib tb : Memory), f { u with ibuf := ib, tbuf := tb } = f u) : f t = f s :=
  (hf t s.ibuf s.tbuf).symm.trans (congrArg f h.fields)

theorem State.Looks.cfg : t.cfg = s.cfg := h.field State.cfg fun _ _ _ => rfl
theorem State.Looks.rxdone : t.rxdone = s.rxdone := h.field State.rxdone fun _ _ _ => rfl
theorem State.Looks.txframe : t.txframe = s.txframe := h.field State.txframe fun _ _ _ => rfl
theorem State.Looks.hexval : t.hexval = s.hexval := h.field State.hexval fun _ _ _ => rfl
theorem State.Looks.hs : t.hs = s.hs := h.field State.hs fun _ _ _ => rfl
theorem State.Looks.ilen : t.ilen = s.ilen := h.field State.ilen fun _ _ _ => rfl
theorem State.Looks.tlen : t.tlen = s.tlen := h.field State.tlen fun _ _ _ => rfl
theorem State.Looks.pending : t.pending = s.pending := h.field State.pending fun _ _ _ => rfl

theorem State.Looks.readReg (r : Reg) : t.readReg r = s.readReg r :=
  h.field (State.readReg · r) fun _ _ _ => by cases r <;> rfl

/-- The valid bytes are alike. -/
theorem State.Looks.received : t.received = s.received := by
  rw [State.received, h.ilen]
  exact Memory.span_congr fun j hj => h.ibuf _ (by omega)

theorem State.Looks.outgoing : t.outgoing = s.outgoing := by
  rw [State.outgoing, h.tlen]
  exact Memory.span_congr fun j hj => h.tbuf _ (by omega)

/-- No read tells the two states apart. -/
theorem State.Looks.windowRead (off : Nat) : t.windowRead off = s.windowRead off := by
  refine State.windowRead_congr (fun r _ => h.readReg r) ?_ ?_
  · rw [h.ilen]; exact bufferWord_congr h.ibuf
  · rw [h.tlen]; exact bufferWord_congr h.tbuf

/-- An update that neither reads nor writes the buffers, and makes no more of their bytes valid, keeps two states alike.
Most updates meet the conditions by definition. -/
theorem State.Looks.update (g : State → State)
    (hg : ∀ (u : State) (ib tb : Memory),
      g { u with ibuf := ib, tbuf := tb } = { g u with ibuf := ib, tbuf := tb } := by intros; rfl)
    (hi : (g s).ilen.toNat ≤ s.ilen.toNat := by exact le_rfl)
    (ht : (g s).tlen.toNat ≤ s.tlen.toNat := by exact le_rfl) : (g s).Looks (g t) := by
  have keeps : ∀ u : State, (g u).ibuf = u.ibuf ∧ (g u).tbuf = u.tbuf := by
    intro u
    have hib := congrArg State.ibuf (hg u u.ibuf u.tbuf)
    have htb := congrArg State.tbuf (hg u u.ibuf u.tbuf)
    exact ⟨hib, htb⟩
  obtain ⟨his, hts⟩ := keeps s
  obtain ⟨hit, htt⟩ := keeps t
  constructor
  · rw [his, hts, ← hg, h.fields]
  · intro k hk; rw [his, hit]; exact h.ibuf k (by omega)
  · intro k hk; rw [hts, htt]; exact h.tbuf k (by omega)

theorem State.Looks.appendRx (b : Byte) : (s.appendRx b).Looks (t.appendRx b) := by
  constructor
  · rw [State.appendRx_ibuf, State.appendRx_tbuf]
    exact congrArg (fun u : State => { u.appendRx b with ibuf := s.ibuf.write s.ilen.toNat b, tbuf := s.tbuf }) h.fields
  · intro k hk
    have hk : k < s.ilen.toNat + 1 := hk.trans_le (len_succ_le _)
    rw [State.appendRx_ibuf, State.appendRx_ibuf, Memory.read_write, Memory.read_write, h.ilen]
    split
    · rfl
    · exact h.ibuf k (by omega)
  · exact h.tbuf

theorem State.Looks.appendTx (b : Byte) : (s.appendTx b).Looks (t.appendTx b) := by
  constructor
  · rw [State.appendTx_ibuf, State.appendTx_tbuf]
    exact congrArg (fun u : State => { u.appendTx b with ibuf := s.ibuf, tbuf := s.tbuf.write s.tlen.toNat b }) h.fields
  · exact h.ibuf
  · intro k hk
    have hk : k < s.tlen.toNat + 1 := hk.trans_le (len_succ_le _)
    rw [State.appendTx_tbuf, State.appendTx_tbuf, Memory.read_write, Memory.read_write, h.tlen]
    split
    · rfl
    · exact h.tbuf k (by omega)

/-- A held frame makes valid only bytes that it stores. -/
theorem State.Looks.holdFrame (f : List Byte) (c : Word) : (s.holdFrame f c).Looks (t.holdFrame f c) := by
  constructor
  · exact congrArg (fun u : State => { u.holdFrame f c with ibuf := s.ibuf, tbuf := s.tbuf.store 0 f }) h.fields
  · exact h.ibuf
  · intro k hk
    have hk : 0 ≤ k ∧ k < 0 + f.length := by
      rw [State.holdFrame_tlen, BitVec.toNat_ofNat] at hk
      have := Nat.mod_le f.length (2 ^ 9)
      omega
    rw [State.holdFrame_tbuf, State.holdFrame_tbuf, Memory.read_store, Memory.read_store, dif_pos hk, dif_pos hk]

theorem State.Looks.raise (r : Result) : (s.raise r).Looks (t.raise r) :=
  h.update (State.raise · r)

theorem State.Looks.emptyRx : s.emptyRx.Looks t.emptyRx :=
  h.update State.emptyRx (hi := Nat.zero_le _)

theorem State.Looks.recordCrc (o : Option Word) : (s.recordCrc o).Looks (t.recordCrc o) :=
  h.update (State.recordCrc · o) (fun _ _ _ => by cases o <;> rfl) (by simp) (by simp)

theorem State.Looks.recordParse (n : Nat) (v : Bool) (c : Byte) : (s.recordParse n v c).Looks (t.recordParse n v c) :=
  h.update (State.recordParse · n v c)

theorem State.Looks.setHs (cs : List Byte) : (s.setHs cs).Looks (t.setHs cs) :=
  h.update (State.setHs · cs)

end

/-- A command cannot tell two such states apart, and takes them to two such states. -/
theorem Effect.looks {i : Instr} {s t u : State} (he : Effect i s u) (h : s.Looks t) :
    ∃ v, Effect i t v ∧ u.Looks v := by
  cases he with
  | nop => exact ⟨_, .nop t, h.raise _⟩
  | crcInit => exact ⟨_, .crcInit t, (h.update ({ · with acc := Machine.crcInit })).raise _⟩
  | crcByte b => exact ⟨_, .crcByte b t, (h.update (fun u => { u with acc := crcStep u.acc b })).raise _⟩
  | crcHex =>
    exact ⟨_, .crcHex t,
      (h.update fun u => ({ u with hexval := crcFinal u.acc } : State).setHs (hex8 (crcFinal u.acc))).raise _⟩
  | hexEncFail d _ hd => exact ⟨_, .hexEncFail d t (h.hexval ▸ hd), h.raise _⟩
  | hexEncOk d _ r hd => exact ⟨_, .hexEncOk d t r (h.hexval ▸ hd), (h.setHs r).raise _⟩
  | hexDecFail n _ hd => exact ⟨_, .hexDecFail n t (h.hs ▸ hd), h.raise _⟩
  | hexDecOk n _ v h1 h8 hd =>
    exact ⟨_, .hexDecOk n t v h1 h8 (h.hs ▸ hd), (h.update ({ · with hexval := v })).raise _⟩
  | rxClear => exact ⟨_, .rxClear t, h.emptyRx.raise _⟩
  | rxPushLate b _ hd =>
    exact ⟨_, .rxPushLate b t (h.rxdone ▸ hd), (h.update ({ · with rxlate := true })).raise _⟩
  | rxPushFull b _ hd hl =>
    exact ⟨_, .rxPushFull b t (h.rxdone ▸ hd) (h.ilen ▸ h.cfg ▸ hl),
      (h.update ({ · with rxovf := true })).raise _⟩
  | rxPushStore b _ hd hl =>
    exact ⟨_, .rxPushStore b t (h.rxdone ▸ hd) (h.ilen ▸ h.cfg ▸ hl), (h.appendRx b).raise _⟩
  | rxAbort => exact ⟨_, .rxAbort t, h.emptyRx.raise _⟩
  | parseOk _ n o hp =>
    exact ⟨_, .parseOk t n o (h.received ▸ h.cfg ▸ hp), ((h.recordCrc o).recordParse _ _ _).raise _⟩
  | parseDeverr _ c o hp =>
    exact ⟨_, .parseDeverr t c o (h.received ▸ h.cfg ▸ hp), ((h.recordCrc o).recordParse _ _ _).raise _⟩
  | parseMalformed _ o hp =>
    exact ⟨_, .parseMalformed t o (h.received ▸ h.cfg ▸ hp), (h.recordCrc o).emptyRx.raise _⟩
  | parseIntegrity _ o hp =>
    exact ⟨_, .parseIntegrity t o (h.received ▸ h.cfg ▸ hp), (h.recordCrc o).emptyRx.raise _⟩
  | txClear => exact ⟨_, .txClear t, (h.update State.emptyTx (ht := Nat.zero_le _)).raise _⟩
  | txPushFail b _ hf => exact ⟨_, .txPushFail b t (h.txframe ▸ h.tlen ▸ h.cfg ▸ hf), h.raise _⟩
  | txPushStore b _ hf hl =>
    exact ⟨_, .txPushStore b t (h.txframe ▸ hf) (h.tlen ▸ h.cfg ▸ hl), (h.appendTx b).raise _⟩
  | buildFail cid dir _ hf =>
    exact ⟨_, .buildFail cid dir t (h.txframe ▸ h.tlen ▸ h.cfg ▸ hf), h.raise _⟩
  | buildOk cid dir _ f hf hc hl hb =>
    refine ⟨_, .buildOk cid dir t f (h.txframe ▸ hf) hc (h.tlen ▸ h.cfg ▸ hl) (h.outgoing ▸ h.cfg ▸ hb), ?_⟩
    rw [h.tlen]
    exact (h.holdFrame f _).raise _
  | reset => exact ⟨_, .reset t, (h.update State.resetRegisters (hi := Nat.zero_le _) (ht := Nat.zero_le _)).raise _⟩

/-- A write to CMD, legal or not. -/
theorem State.Looks.command {s t : State} (h : s.Looks t) (w : Word) : LooksOutcome (s.command w) (t.command w) := by
  unfold State.command
  cases decode w with
  | error e => exact h.raise .badcmd
  | ok i =>
    obtain ⟨u, hu, he⟩ := exec_total i s
    obtain ⟨v, hv, hlooks⟩ := he.looks h
    simp only [hu, exec_of_effect hv]
    exact hlooks

theorem State.Looks.windowWrite {s t : State} (h : s.Looks t) (off : Nat) (v : Word) :
    LooksOutcome (s.windowWrite off v) (t.windowWrite off v) := by
  unfold State.windowWrite
  cases targetOf off with
  | ibufWord | tbufWord | reserved => exact h
  | register r =>
    cases r with
    | cmd => exact h.command v
    | hexval => exact h.update ({ · with hexval := v })
    | hexstrHi => exact h.update ({ · with hexstrHi := v })
    | hexstrLo => exact h.update ({ · with hexstrLo := v })
    | _ => exact h

theorem State.Looks.serve {s t : State} (h : s.Looks t) (a : Access) : LooksOutcome (s.serve a) (t.serve a) := by
  unfold State.serve State.undefinedAccess
  rw [h.cfg]
  split
  · rfl
  · split
    · rfl
    · split
      · rfl
      · cases a.op with
        | write v => exact h.windowWrite _ v
        | read =>
          dsimp only
          -- The conditions' rewriting has put `s.cfg` into both next states.
          rw [h.windowRead]
          exact h.update fun u =>
            { u with cfg := s.cfg, returned := s.windowRead (a.addr - s.cfg.base) :: u.returned }

/-- A step, whatever the host's next access. -/
theorem State.Looks.step {s t : State} (h : s.Looks t) : LooksOutcome (step s) (step t) := by
  unfold Machine.step serveNext
  rw [h.pending]
  cases s.pending with
  | nil => exact h
  | cons a rest =>
    exact (h.update ({ · with pending := rest })).serve a

/-- Settles O58: reads see only fields and valid bytes, and a step takes such states to such states. -/
theorem unusedBytesAreUnobservable : Obligations.UnusedBytesAreUnobservable :=
  fun _ _ h => ⟨h.windowRead, h.step⟩

end Sys2Proof.Machine
end

section
/-! SUPPORT. Which command writes which register, flag and buffer byte (spec/10_state.md R24 to R38), and what a command
does not read. -/

namespace Sys2Proof.Machine

/-! ### RESULT (R25) -/

/-- What a command does does not depend on the RESULT before it: it writes RESULT, and reads it nowhere (R25). -/
theorem exec_ignores_result (i : Instr) (s : State) (r : Result) : exec i { s with result := r } = exec i s := by
  cases i with
  | frameParse =>
    show State.concludeParse (State.recordCrc { s with result := r } _) _ = State.concludeParse (s.recordCrc _) _
    rw [State.recordCrc_eq, State.recordCrc_eq]
    rfl
  | _ => rfl

theorem Result.code_range {r : Result} (h : r ≠ .none) : 1 ≤ r.code.toNat ∧ r.code.toNat ≤ 8 := by
  revert h; cases r <;> decide

/-- Every command writes RESULT, and none writes NONE (R25). -/
theorem Effect.result_ne_none {i : Instr} {s t : State} (h : Effect i s t) : t.result ≠ .none := by
  cases h <;> simp

/-- A step on an access that is no CMD write leaves RESULT (R25). -/
theorem Served.keeps_result {s t : State} {a : Access} {rest : List Access} (h : Served s t)
    (hp : s.pending = a :: rest) (ha : ∀ w, a ≠ cmdWrite s.cfg w) : t.result = s.result := by
  have noCmd : ∀ w rest', s.pending ≠ cmdWrite s.cfg w :: rest' := fun w rest' h' =>
    ha w (List.cons.inj (hp.symm.trans h')).1
  cases h with
  | illegal w rest' hw => exact absurd hw (noCmd w rest')
  | command _ w i rest' hw => exact absurd hw (noCmd w rest')
  | _ => rfl

/-- Settles O48: RESULT is written by every command, read by none, and left by every other access. -/
theorem resultDescribesTheLastCommand : Obligations.ResultDescribesTheLastCommand :=
  ⟨by decide, fun _ _ _ => rfl, exec_ignores_result, fun _ _ _ h => Result.code_range (exec_effect h).result_ne_none,
   fun _ _ _ _ hp ha h => (step_served h).keeps_result hp ha⟩

/-! ### ACC and the codec's registers (R26, R28, R29) -/

/-- A command that neither writes nor reads ACC does the same whatever ACC holds, and leaves it (R26). -/
theorem Effect.withAcc {i : Instr} {s t : State} (h : Effect i s t) (h1 : i ≠ .crcInit) (h2 : ∀ b, i ≠ .crcByte b)
    (h3 : i ≠ .reset) (h4 : i ≠ .crcHex) (a : Word) : Effect i { s with acc := a } { t with acc := a } := by
  cases h with
  | crcInit => exact absurd rfl h1
  | crcByte b => exact absurd rfl (h2 b)
  | reset => exact absurd rfl h3
  | crcHex => exact absurd rfl h4
  | nop => exact .nop _
  | hexEncFail d _ h => exact .hexEncFail d _ h
  | hexEncOk d _ r h => exact .hexEncOk d _ r h
  | hexDecFail n _ h => exact .hexDecFail n _ h
  | hexDecOk n _ v hn1 hn8 h => exact .hexDecOk n _ v hn1 hn8 h
  | rxClear => exact .rxClear _
  | rxPushLate b _ h => exact .rxPushLate b _ h
  | rxPushFull b _ hd h => exact .rxPushFull b _ hd h
  | rxPushStore b _ hd h => exact .rxPushStore b _ hd h
  | rxAbort => exact .rxAbort _
  | parseOk _ n o h => cases o <;> exact .parseOk { s with acc := a } n _ h
  | parseDeverr _ c o h => cases o <;> exact .parseDeverr { s with acc := a } c _ h
  | parseMalformed _ o h => cases o <;> exact .parseMalformed { s with acc := a } _ h
  | parseIntegrity _ o h => cases o <;> exact .parseIntegrity { s with acc := a } _ h
  | txClear => exact .txClear _
  | txPushFail b _ h => exact .txPushFail b _ h
  | txPushStore b _ hf h => exact .txPushStore b _ hf h
  | buildFail cid dir _ h => exact .buildFail cid dir _ h
  | buildOk cid dir _ f hf hc hl h => exact .buildOk cid dir _ f hf hc hl h

/-- Only CRC.INIT, CRC.BYTE and RESET write ACC (R26). -/
theorem Effect.keeps_acc {i : Instr} {s t : State} (h : Effect i s t) (h1 : i ≠ .crcInit)
    (h2 : ∀ b, i ≠ .crcByte b) (h3 : i ≠ .reset) : t.acc = s.acc := by
  cases h with
  | crcInit => exact absurd rfl h1
  | crcByte b => exact absurd rfl (h2 b)
  | reset => exact absurd rfl h3
  | parseOk _ _ o | parseDeverr _ _ o | parseMalformed _ o | parseIntegrity _ o => exact State.recordCrc_acc s o
  | _ => rfl

/-- Settles O30: what the commands do with another ACC, and that they leave it. -/
theorem accIsTheStreamsAlone : Obligations.AccIsTheStreamsAlone := by
  refine ⟨fun i s t a h h1 h2 h3 => ⟨(exec_effect h).keeps_acc h1 h2 h3, fun h4 => ?_⟩, fun s a => ⟨rfl, rfl⟩⟩
  exact exec_of_effect ((exec_effect h).withAcc h1 h2 h3 h4 a)

/-- Only CRC.HEX, HEX.DEC and RESET write HEXVAL (R28). -/
theorem Effect.hexval_writers {i : Instr} {s t : State} (h : Effect i s t) :
    t.hexval = s.hexval ∨ i = .crcHex ∨ i = .reset ∨ ∃ n, i = .hexDec n := by
  cases h with
  | crcHex => exact .inr (.inl rfl)
  | reset => exact .inr (.inr (.inl rfl))
  | hexDecOk n => exact .inr (.inr (.inr ⟨n, rfl⟩))
  | parseOk _ _ o | parseDeverr _ _ o | parseMalformed _ o | parseIntegrity _ o =>
    exact .inl (State.recordCrc_hexval s o)
  | _ => exact .inl rfl

/-- Only CRC.HEX, HEX.ENC and RESET write HEXSTR (R29). -/
theorem Effect.hexstr_writers {i : Instr} {s t : State} (h : Effect i s t) :
    (t.hexstrHi = s.hexstrHi ∧ t.hexstrLo = s.hexstrLo) ∨ i = .crcHex ∨ i = .reset ∨ ∃ d, i = .hexEnc d := by
  cases h with
  | crcHex => exact .inr (.inl rfl)
  | reset => exact .inr (.inr (.inl rfl))
  | hexEncOk d => exact .inr (.inr (.inr ⟨d, rfl⟩))
  | parseOk _ _ o | parseDeverr _ _ o | parseMalformed _ o | parseIntegrity _ o =>
    exact .inl ⟨State.recordCrc_hexstrHi s o, State.recordCrc_hexstrLo s o⟩
  | _ => exact .inl ⟨rfl, rfl⟩

/-- Settles O51: the writers of HEXVAL and of HEXSTR. -/
theorem codecRegisterWriters : Obligations.CodecRegisterWriters := by
  intro i s t h
  refine ⟨(exec_effect h).hexval_writers.resolve_left, fun hne => (exec_effect h).hexstr_writers.resolve_left ?_⟩
  rintro ⟨hhi, hlo⟩
  exact hne.elim (absurd hhi) (absurd hlo)

/-! ### Flags, lengths, parse results and buffers (R24, R30 to R38) -/

/-- Only RESET, FRAME.BUILD and a FRAME.PARSE of matched input write FCRC (R34). -/
theorem Effect.fcrc_writers {i : Instr} {s t : State} (h : Effect i s t) :
    t.fcrc = s.fcrc ∨ i = .reset ∨ (∃ cid dir, i = .frameBuild cid dir) ∨
      i = .frameParse ∧ matchFrame s.cfg.term s.received = true := by
  have recorded : ∀ {r : ParseResult} {o : Option Word}, parseFrame s.cfg s.received = (r, o) →
      (s.recordCrc o).fcrc = s.fcrc ∨ matchFrame s.cfg.term s.received = true := by
    intro r o hp
    cases hm : matchFrame s.cfg.term s.received with
    | true => exact .inr rfl
    | false =>
      obtain ⟨-, rfl⟩ := Prod.mk.inj ((parseFrame_of_not_match hm).symm.trans hp)
      exact .inl rfl
  cases h with
  | reset => exact .inr (.inl rfl)
  | buildOk cid dir => exact .inr (.inr (.inl ⟨cid, dir, rfl⟩))
  | parseOk _ _ _ hp | parseDeverr _ _ _ hp | parseMalformed _ _ hp | parseIntegrity _ _ hp =>
    exact (recorded hp).imp id fun hm => .inr (.inr ⟨rfl, hm⟩)
  | _ => exact .inl rfl

/-- A flag that goes from `a` to `b` is kept, cleared where `clears` holds, or set where `sets` holds. -/
def FlagWritten (clears sets : Prop) (a b : Bool) : Prop := b = a ∨ (clears ∧ b = false) ∨ (sets ∧ b = true)

theorem FlagWritten.sets {p q : Prop} {a b : Bool} (h : FlagWritten p q a b) (ha : a = false) (hb : b = true) : q := by
  subst ha hb
  rcases h with h | ⟨-, h⟩ | ⟨hq, -⟩
  exacts [absurd h (by decide), absurd h (by decide), hq]

theorem FlagWritten.clears {p q : Prop} {a b : Bool} (h : FlagWritten p q a b) (ha : a = true) (hb : b = false) :
    p := by
  subst ha hb
  rcases h with h | ⟨hp, -⟩ | ⟨-, h⟩
  exacts [absurd h (by decide), hp, absurd h (by decide)]

section
variable {s t : State} {i : Instr}

/-- The commands that change ILEN (R30). -/
theorem RxEffect.ilen_writers (h : RxEffect s t i) :
    t.ilen = s.ilen ∨ (∃ b, i = .rxPush b) ∨ EmptiesRx i t.result := by
  cases h with
  | emptied hi => exact .inr (.inr hi)
  | stored b => exact .inr (.inl ⟨b, rfl⟩)
  | kept h | late _ h | full _ h | body _ _ _ h | error _ _ _ h => exact .inl (congrArg RxSide.ilen h)

/-- The commands that change what the last parse recorded (R32, R33). -/
theorem RxEffect.parse_writers (h : RxEffect s t i) :
    (t.bodyLen = s.bodyLen ∧ t.deverrValid = s.deverrValid ∧ t.deverrCode = s.deverrCode) ∨ i = .frameParse ∨
      i = .rxClear ∨ i = .rxAbort ∨ i = .reset := by
  cases h with
  | emptied hi =>
    rcases hi with hi | hi | hi | ⟨hi, -⟩ <;> simp [hi]
  | body | error => exact .inr (.inl rfl)
  | kept h | late _ h | full _ h | stored _ _ _ h =>
    exact .inl ⟨congrArg RxSide.bodyLen h, congrArg RxSide.deverrValid h, congrArg RxSide.deverrCode h⟩

/-- The commands that change TLEN (R31). -/
theorem TxEffect.tlen_writers (h : TxEffect s t i) :
    t.tlen = s.tlen ∨ (∃ b, i = .txPush b) ∨ i = .txClear ∨ i = .reset ∨ ∃ cid dir, i = .frameBuild cid dir := by
  cases h with
  | kept h => exact .inl (congrArg TxSide.tlen h)
  | emptied hi => exact .inr (.inr (hi.imp id .inl))
  | stored b => exact .inr (.inl ⟨b, rfl⟩)
  | framed cid dir => exact .inr (.inr (.inr (.inr ⟨cid, dir, rfl⟩)))

/-- How a command takes RXDONE to its next value (R24). -/
theorem RxEffect.rxdone_written (h : RxEffect s t i) :
    FlagWritten (EmptiesRx i t.result) (i = .rxPush s.cfg.term) s.rxdone t.rxdone := by
  cases h with
  | kept h | late _ h | full _ h | body _ _ _ h | error _ _ _ h => exact .inl (congrArg RxSide.rxdone h)
  | emptied hi h => exact .inr (.inl ⟨hi, congrArg RxSide.rxdone h⟩)
  | stored b hd _ h =>
    have hdone : t.rxdone = (s.rxdone || (b == s.cfg.term)) := congrArg RxSide.rxdone h
    by_cases hb : b = s.cfg.term
    · exact .inr (.inr ⟨congrArg Instr.rxPush hb, by simp [hdone, hb]⟩)
    · exact .inl (by simp [hdone, hb])

theorem RxEffect.rxovf_written (h : RxEffect s t i) :
    FlagWritten (EmptiesRx i t.result) (∃ b, i = .rxPush b) s.rxovf t.rxovf := by
  cases h with
  | kept h | late _ h | stored _ _ _ h | body _ _ _ h | error _ _ _ h => exact .inl (congrArg RxSide.rxovf h)
  | emptied hi h => exact .inr (.inl ⟨hi, congrArg RxSide.rxovf h⟩)
  | full b h => exact .inr (.inr ⟨⟨b, rfl⟩, congrArg RxSide.rxovf h⟩)

theorem RxEffect.rxlate_written (h : RxEffect s t i) :
    FlagWritten (EmptiesRx i t.result) (∃ b, i = .rxPush b) s.rxlate t.rxlate := by
  cases h with
  | kept h | full _ h | stored _ _ _ h | body _ _ _ h | error _ _ _ h => exact .inl (congrArg RxSide.rxlate h)
  | emptied hi h => exact .inr (.inl ⟨hi, congrArg RxSide.rxlate h⟩)
  | late b h => exact .inr (.inr ⟨⟨b, rfl⟩, congrArg RxSide.rxlate h⟩)

theorem TxEffect.txframe_written (h : TxEffect s t i) :
    FlagWritten (i = .txClear ∨ i = .reset) (∃ cid dir, i = .frameBuild cid dir) s.txframe t.txframe := by
  cases h with
  | kept h | stored _ _ _ h => exact .inl (congrArg TxSide.txframe h)
  | emptied hi h => exact .inr (.inl ⟨hi, congrArg TxSide.txframe h⟩)
  | framed cid dir _ _ _ h => exact .inr (.inr ⟨⟨cid, dir, rfl⟩, congrArg TxSide.txframe h⟩)

/-- Only RX.PUSH stores into IBUF, at index ILEN (R37). -/
theorem RxEffect.ibuf_writers (h : RxEffect s t i) (k : Nat) :
    t.ibuf.read k = s.ibuf.read k ∨ k = s.ilen.toNat ∧ i = .rxPush (t.ibuf.read k) := by
  cases h with
  | kept h | emptied _ h | late _ h | full _ h | body _ _ _ h | error _ _ _ h =>
    exact .inl (congrArg (fun r : RxSide => r.ibuf.read k) h)
  | stored b _ _ h =>
    have hread : t.ibuf.read k = (s.ibuf.write s.ilen.toNat b).read k := congrArg (fun r : RxSide => r.ibuf.read k) h
    rw [hread]
    by_cases hk : k = s.ilen.toNat
    · subst hk; exact .inr ⟨rfl, by rw [Memory.read_write_same]⟩
    · exact .inl (Memory.read_write_other _ _ hk)

/-- Only TX.PUSH, at index TLEN, and FRAME.BUILD, in the bytes of its frame, store into TBUF (R38). -/
theorem TxEffect.tbuf_writers (h : TxEffect s t i) (k : Nat) :
    t.tbuf.read k = s.tbuf.read k ∨ (k = s.tlen.toNat ∧ i = .txPush (t.tbuf.read k)) ∨
      k < s.tlen.toNat + 16 ∧ ∃ cid dir, i = .frameBuild cid dir := by
  cases h with
  | kept h | emptied _ h => exact .inl (congrArg (fun x : TxSide => x.tbuf.read k) h)
  | stored b _ _ h =>
    have hread : t.tbuf.read k = (s.tbuf.write s.tlen.toNat b).read k := congrArg (fun x : TxSide => x.tbuf.read k) h
    rw [hread]
    by_cases hk : k = s.tlen.toNat
    · subst hk; exact .inr (.inl ⟨rfl, by rw [Memory.read_write_same]⟩)
    · exact .inl (Memory.read_write_other _ _ hk)
  | framed cid dir f _ hb h =>
    have hread : t.tbuf.read k = (s.tbuf.store 0 f).read k := congrArg (fun x : TxSide => x.tbuf.read k) h
    have hlen : f.length = s.tlen.toNat + 16 := by rw [buildFrame_length hb, State.outgoing_length]
    by_cases hk : k < s.tlen.toNat + 16
    · exact .inr (.inr ⟨hk, cid, dir, rfl⟩)
    · exact .inl (by rw [hread, Memory.read_store, dif_neg (by omega)])

end

/-- Settles O49: STATUS bit by bit, and how a command writes each flag. -/
theorem statusFieldsAndTheirWriters : Obligations.StatusFieldsAndTheirWriters := by
  refine ⟨fun s => s.windowRead_status ▸ s.statusWord_fields, fun i s t h => ?_⟩
  have hrx := (exec_effect h).rx
  have htx := (exec_effect h).tx
  refine ⟨hrx.rxdone_written.sets, hrx.rxovf_written.sets, hrx.rxlate_written.sets, htx.txframe_written.sets, ?_,
    htx.txframe_written.clears⟩
  rintro (⟨hs, ht⟩ | ⟨hs, ht⟩ | ⟨hs, ht⟩)
  · exact hrx.rxdone_written.clears hs ht
  · exact hrx.rxovf_written.clears hs ht
  · exact hrx.rxlate_written.clears hs ht

/-- Settles O50: the writers of each register. -/
theorem lengthAndParseRegisterWriters : Obligations.LengthAndParseRegisterWriters := by
  intro i s t h
  have he := exec_effect h
  refine ⟨he.rx.ilen_writers.resolve_left, he.tx.tlen_writers.resolve_left,
    fun hne => he.rx.parse_writers.resolve_left ?_, he.fcrc_writers.resolve_left⟩
  rintro ⟨hb, hv, hc⟩
  rcases hne with hne | hne | hne
  exacts [hne hb, hne hv, hne hc]

/-- Settles O52: the windows show the valid bytes, and the writers of each byte of the buffers. -/
theorem bufferWindowsAndTheirWriters : Obligations.BufferWindowsAndTheirWriters := by
  refine ⟨fun s k hk => ⟨s.windowRead_ibuf hk, s.windowRead_tbuf hk, fun hs hcap => ⟨?_, ?_⟩⟩, fun i s t k h =>
    ⟨((exec_effect h).rx.ibuf_writers k).resolve_left, ((exec_effect h).tx.tbuf_writers k).resolve_left⟩⟩
  · rw [s.windowRead_ibuf hk, bufferWord, if_neg (by have := hs.ilen_le; omega)]
  · rw [s.windowRead_tbuf hk, bufferWord, if_neg (by have := hs.tlen_le; omega)]

end Sys2Proof.Machine
end

section
/-! SUPPORT. How the bus serves an access (spec/20_memory.md R60, R63, R64, R65, R67): each defined one has a next state,
which keeps the host's side; every other one stops. -/

namespace Sys2Proof.Machine

/-- A step serves the host's next access, which is then off the queue. -/
theorem step_of_pending {s : State} {a : Access} {rest : List Access} (hp : s.pending = a :: rest) :
    step s = ({ s with pending := rest } : State).serve a := by
  rw [step, serveNext, hp]

/-- A CMD write has a next state, whatever the word, and leaves the parameters and the host's side (R23, R192). -/
theorem State.command_keeps_host (s : State) (w : Word) :
    ∃ t, s.command w = .next t ∧ t.cfg = s.cfg ∧ t.pending = s.pending ∧ t.returned = s.returned := by
  rw [State.command]
  cases decode w with
  | ok i =>
    obtain ⟨t, ht, he⟩ := exec_total i s
    exact ⟨t, ht, he.keeps_host⟩
  | error _ => exact ⟨s.raise .badcmd, rfl, rfl, rfl, rfl⟩

/-- A write to any offset of the window has a next state, and leaves the parameters and the host's side (R193). -/
theorem State.windowWrite_keeps_host (s : State) (off : Nat) (v : Word) :
    ∃ t, s.windowWrite off v = .next t ∧ t.cfg = s.cfg ∧ t.pending = s.pending ∧ t.returned = s.returned := by
  rw [State.windowWrite]
  cases targetOf off with
  | register r =>
    cases r with
    | cmd => exact s.command_keeps_host v
    | _ => exact ⟨_, rfl, rfl, rfl, rfl⟩
  | _ => exact ⟨s, rfl, rfl, rfl, rfl⟩

/-- An access the spec defines has a next state, and leaves the host's queue as it was. -/
theorem State.serve_defined (s : State) {a : Access} (h : a.Defined s.cfg) :
    ∃ t, s.serve a = .next t ∧ t.pending = s.pending := by
  obtain ⟨off, ho, h4, ha⟩ := eq_wordAccess_of_defined h
  rw [ha, State.serve_wordAccess s a.op ho h4]
  cases a.op with
  | read => exact ⟨_, rfl, rfl⟩
  | write v =>
    obtain ⟨t, ht, -, hpend, -⟩ := s.windowWrite_keeps_host off v
    exact ⟨t, ht, hpend⟩

/-- An access outside the window faults (R60; log 7). -/
theorem State.serve_outside (s : State) {a : Access} (h : ¬ (s.cfg.base ≤ a.addr ∧ a.addr < s.cfg.base + 4096)) :
    s.serve a = .fault .outsideWindow := by
  rw [State.serve, if_pos (by omega)]

/-- An access inside the window that the spec does not define is refused: it is narrow, or it is misaligned (R63, R65;
log 6). -/
theorem State.serve_undefined (s : State) {a : Access} (hin : s.cfg.base ≤ a.addr ∧ a.addr < s.cfg.base + 4096)
    (h : ¬ a.Defined s.cfg) : ∃ r, s.serve a = .refused r := by
  rw [State.serve, if_neg (by omega)]
  by_cases hw : a.width = .word
  · have h4 : (a.addr - s.cfg.base) % 4 ≠ 0 := fun h4 => h ⟨hin.1, hin.2, hw, h4⟩
    rw [if_neg (not_not.2 hw), if_pos h4]
    exact ⟨_, rfl⟩
  · rw [if_pos hw]
    exact ⟨_, rfl⟩

/-- Settles O8: a step serves the access, in each of the three cases. -/
theorem onlyUndefinedAccessesStop : Obligations.OnlyUndefinedAccessesStop := by
  intro s a rest hp
  rw [step_of_pending hp]
  exact ⟨State.serve_defined { s with pending := rest }, State.serve_outside { s with pending := rest },
    State.serve_undefined { s with pending := rest }⟩

/-- No word of the window depends on the host's side. -/
theorem State.windowRead_withHost (s : State) (p : List Access) (r : List Word) (off : Nat) :
    ({ s with pending := p, returned := r } : State).windowRead off = s.windowRead off := rfl

/-- Settles O11: the first read changes the host's side alone, and the second reads the same word. -/
theorem repeatedReadReturnsTheSame : Obligations.RepeatedReadReturnsTheSame := by
  intro s off rest ho h4 hp
  have again := step_read (rest := rest)
    (s := { s with pending := wordAccess s.cfg off .read :: rest, returned := s.windowRead off :: s.returned })
    rfl ho h4
  rw [State.windowRead_withHost] at again
  exact ⟨s.windowRead off, (run_succ 1 (step_read hp ho h4)).trans (run_succ 0 again)⟩

/-- Settles O12: the CMD write leaves the read next in the queue and the window where it was, and the read returns the
word of the state it finds. -/
theorem readAfterCommandSeesItsEffect : Obligations.ReadAfterCommandSeesItsEffect := by
  intro s t w off rest ho h4 hp h
  obtain ⟨u, hu, hcfg, hpend, hret⟩ :=
    State.command_keeps_host { s with pending := wordAccess s.cfg off .read :: rest } w
  obtain rfl : t = u := Host.Outcome.next.inj (h.symm.trans ((step_cmdWrite hp).trans hu))
  have hp' : t.pending = wordAccess t.cfg off .read :: rest := by rw [hpend, hcfg]
  rw [run_succ 1 h, run_succ 0 (step_read hp' ho h4), run_zero, hret]

end Sys2Proof.Machine
end

section
/-! SUPPORT. The encoding (spec/30_encoding.md): decoder and encoder are inverse, the opcode map's match and mask columns
say what the fields of a legal word are, and what an illegal word does. -/

namespace Sys2Proof

/-! ### Decoder and encoder (R80, R87) -/

/-- Settles O1: the fields of a command's word are its row's OP and its operands, and the decoder reads them back. -/
theorem decodeOfEncodeIsTheInstruction : Obligations.DecodeOfEncodeIsTheInstruction :=
  fun i => Machine.decode_encode_of_fields i (fields_of_assembled _ _ _)

/-- The command that a row makes of a legal word's fields has that word (R83, R87). -/
theorem encode_build_of_legal {w : Word} {o : Opcode} (h : (fieldsOf w).LegalFor o) :
    encode (o.build (aField w) (dField w)) = w := by
  obtain ⟨hop, hrsv, ha, hd⟩ := h
  have hA : (o.build (aField w) (dField w)).operandA = aField w := operandA_build _ ha
  have hD : (o.build (aField w) (dField w)).operandD = dField w := operandD_build _ hd
  rw [encode, hA, hD, opcode_build, ← hop]
  exact (assembled_of_fields w hrsv).symm

/-- Settles O2: a word that decodes is legal for the row of its command. -/
theorem decodedWordIsTheEncoding : Obligations.DecodedWordIsTheEncoding := by
  intro w i h
  obtain ⟨o, ho, rfl⟩ := (decode_ok_iff w i).1 h
  exact (encode_build_of_legal ho).symm

/-- The decoder reads a row's command exactly from the words that are legal for the row. -/
theorem decode_eq_build_iff (w : Word) (o : Opcode) :
    decode w = .ok (o.build (aField w) (dField w)) ↔ (fieldsOf w).LegalFor o := by
  rw [decode_ok_iff]
  constructor
  · rintro ⟨q, hq, heq⟩
    obtain rfl : o = q := by simpa using congrArg Instr.opcode heq
    exact hq
  · exact fun ho => ⟨o, ho, rfl⟩

/-! ### The match and mask columns (R84) -/

/-- A word is its four fields, RSV first (R80). -/
theorem word_eq_append_fields (w : Word) : w = rsvField w ++ dField w ++ aField w ++ opField w := by
  simp only [rsvField, dField, aField, opField]
  rw [BitVec.extractLsb'_append_extractLsb'_eq_extractLsb' (by rfl),
    BitVec.extractLsb'_append_extractLsb'_eq_extractLsb' (by rfl),
    BitVec.extractLsb'_append_extractLsb'_eq_extractLsb' (by rfl)]
  exact BitVec.extractLsb'_eq_self.symm

/-- Two words are equal when their fields are. -/
theorem word_eq_iff_fields (w v : Word) :
    w = v ↔ opField w = opField v ∧ rsvField w = rsvField v ∧ aField w = aField v ∧ dField w = dField v := by
  constructor
  · rintro rfl
    exact ⟨rfl, rfl, rfl, rfl⟩
  · rintro ⟨hop, hrsv, ha, hd⟩
    rw [word_eq_append_fields w, hop, hrsv, ha, hd, ← word_eq_append_fields v]

theorem opField_and (w m : Word) : opField (w &&& m) = opField w &&& opField m := BitVec.extractLsb'_and
theorem aField_and (w m : Word) : aField (w &&& m) = aField w &&& aField m := BitVec.extractLsb'_and
theorem dField_and (w m : Word) : dField (w &&& m) = dField w &&& dField m := BitVec.extractLsb'_and
theorem rsvField_and (w m : Word) : rsvField (w &&& m) = rsvField w &&& rsvField m := BitVec.extractLsb'_and

/-- The mask over an operand field: it selects the field of a row whose column is "0", and no bit of an operand (R84). -/
def unusedMask (n : Nat) (used : Bool) : BitVec n := if used then 0#n else BitVec.allOnes n

theorem and_unusedMask_eq_zero_iff {n : Nat} (x : BitVec n) (used : Bool) :
    x &&& unusedMask n used = 0#n ↔ (used = false → x = 0#n) := by
  cases used <;> simp [unusedMask]

/-- A row's match column holds the OP of the row and zeros. -/
theorem fields_of_matchVal : ∀ r ∈ opTable, opField r.matchVal = r.opcode.code ∧ rsvField r.matchVal = 0#15 ∧
    aField r.matchVal = 0#8 ∧ dField r.matchVal = 0#1 := by decide

/-- A row's mask column covers OP, RSV and the operand fields that the row does not use. -/
theorem fields_of_mask : ∀ r ∈ opTable, opField r.mask = BitVec.allOnes 8 ∧ rsvField r.mask = BitVec.allOnes 15 ∧
    aField r.mask = unusedMask 8 r.opcode.usesA ∧ dField r.mask = unusedMask 1 r.opcode.usesD := by decide

/-- A word selects a row exactly when its fields are legal for the row (R83, R84). -/
theorem selects_iff_legalFor {r : OpRow} (hr : r ∈ opTable) (w : Word) :
    r.Selects w ↔ (fieldsOf w).LegalFor r.opcode := by
  obtain ⟨hop, hrsv, ha, hd⟩ := fields_of_matchVal r hr
  obtain ⟨mop, mrsv, ma, md⟩ := fields_of_mask r hr
  simp only [OpRow.Selects, word_eq_iff_fields, opField_and, rsvField_and, aField_and, dField_and, hop, hrsv, ha, hd,
    mop, mrsv, ma, md, BitVec.and_allOnes, and_unusedMask_eq_zero_iff]
  rfl

/-- No two rows have one opcode. -/
theorem row_eq_of_opcode_eq : ∀ r ∈ opTable, ∀ q ∈ opTable, r.opcode = q.opcode → r = q := by decide

theorem exists_row (o : Opcode) : ∃ r ∈ opTable, r.opcode = o := by cases o <;> decide

/-- Settles O3: the rows select the legal words, the OP of a word fixes its row, and every opcode has a row. -/
theorem decodeFollowsMatchAndMask : Obligations.DecodeFollowsMatchAndMask := by
  refine ⟨fun r hr w => ?_, fun r hr q hq w hrw hqw => ?_, fun w i h => ?_⟩
  · rw [selects_iff_legalFor hr, decode_eq_build_iff]
  · obtain ⟨hop, -⟩ := (selects_iff_legalFor hr w).1 hrw
    obtain ⟨hop', -⟩ := (selects_iff_legalFor hq w).1 hqw
    exact row_eq_of_opcode_eq r hr q hq (code_injective (hop.symm.trans hop'))
  · obtain ⟨o, ho, -⟩ := (decode_ok_iff w i).1 h
    obtain ⟨r, hr, rfl⟩ := exists_row o
    exact ⟨r, hr, (selects_iff_legalFor hr w).2 ho⟩

/-! ### Words that are no command, and words of the spec (R83, R85, R87, R192) -/

/-- Settles O4: a legal word decodes to its row's command, and any other CMD write raises BADCMD. -/
theorem illegalWordReportsBadcmdOnly : Obligations.IllegalWordReportsBadcmdOnly := by
  refine ⟨fun w ⟨o, _, ho⟩ => ⟨_, (decode_eq_build_iff w o).2 ho⟩, fun s rest w hp hw => ?_⟩
  rw [Machine.step_cmdWrite hp, Machine.State.command_of_illegal hw]
  rfl

/-- Settles O5: the decoder runs on each of the seven words. -/
theorem specWordsDecode : Obligations.SpecWordsDecode := by
  unfold Obligations.SpecWordsDecode
  decide

end Sys2Proof
end

section
/-! SUPPORT. The hex codec (spec/40_hex_codec.md): when its functions fail and what they give, the round trips, the
dropped digit of an odd digit count, and the commands HEX.ENC and HEX.DEC. -/

namespace Sys2Proof.Machine

/-! ### Digits and their values (R100, R101) -/

theorem hexchar_toNat_of_le_9 {n : Nat} (h : n ≤ 9) : (hexchar n).toNat = 0x30 + n := by
  rw [hexchar, if_pos h, BitVec.toNat_ofNat, Nat.mod_eq_of_lt (by omega)]

theorem hexchar_toNat_of_ge_10 {n : Nat} (h10 : 10 ≤ n) (h15 : n ≤ 15) : (hexchar n).toNat = 0x37 + n := by
  rw [hexchar, if_neg (by omega), BitVec.toNat_ofNat, Nat.mod_eq_of_lt (by omega)]

theorem hexdigit_iff (c : Byte) :
    hexdigit c = true ↔ (0x30 ≤ c.toNat ∧ c.toNat ≤ 0x39) ∨ (0x41 ≤ c.toNat ∧ c.toNat ≤ 0x46) := by
  simp [hexdigit, BitVec.le_def]

theorem hexval_of_le_0x39 {c : Byte} (h : c.toNat ≤ 0x39) : hexval c = c.toNat - 0x30 :=
  if_pos (BitVec.le_def.2 h)

theorem hexval_of_gt_0x39 {c : Byte} (h : 0x39 < c.toNat) : hexval c = c.toNat - 0x37 :=
  if_neg fun hle => Nat.not_le.2 h (BitVec.le_def.1 hle)

/-- Settles O16: the two ranges of digit characters, each with its offset. -/
theorem digitsAndTheirValues : Obligations.DigitsAndTheirValues :=
  ⟨fun _ => hexchar_toNat_of_le_9, fun _ => hexchar_toNat_of_ge_10,
    fun _ h => ⟨hexdigit_hexchar (Nat.lt_succ_of_le h), hexval_hexchar (Nat.lt_succ_of_le h)⟩, hexdigit_iff,
    fun _ _ h => hexval_of_le_0x39 h, fun _ h _ => hexval_of_gt_0x39 (by omega)⟩

/-! ### When the functions fail, and what they give (R102, R103) -/

theorem encodeHex_eq_none_iff (v : Word) (d : Nat) :
    encodeHex v d = none ↔ d < 1 ∨ 8 < d ∨ 2 ^ (8 * ((d + 1) / 2)) ≤ v.toNat := by
  rw [encodeHex_eq, ite_eq_left_iff]
  simp only [reduceCtorEq, imp_false, not_not]

theorem encodeHex_eq_some {v : Word} {d : Nat} (h1 : 1 ≤ d) (h8 : d ≤ 8) (hv : v.toNat < 2 ^ (8 * ((d + 1) / 2))) :
    encodeHex v d = some (hexDigits v.toNat d) := by
  rw [encodeHex_eq, if_neg (by omega)]

/-- What `encode_hex` gives are the low digits. -/
theorem eq_hexDigits_of_encodeHex {v : Word} {d : Nat} {r : List Byte} (h : encodeHex v d = some r) :
    r = hexDigits v.toNat d := by
  rw [encodeHex_eq] at h
  split at h
  · cases h
  · exact (Option.some.inj h).symm

/-- Settles O17: the failing inputs of `encodeHex`, and the digits of any value one by one. -/
theorem encodeHexGivesTheLowDigits : Obligations.EncodeHexGivesTheLowDigits := by
  refine fun v d => ⟨encodeHex_eq_none_iff v d, fun r h => ?_⟩
  obtain rfl := eq_hexDigits_of_encodeHex h
  exact ⟨hexDigits_length _ _, hexDigits_getElem? _ _⟩

theorem decodeHex_eq_none_iff (s : List Byte) :
    decodeHex s = none ↔ s.length < 1 ∨ 8 < s.length ∨ ∃ c ∈ s, hexdigit c = false := by
  rw [decodeHex_eq, ite_eq_left_iff]
  simp only [reduceCtorEq, imp_false, not_not, List.all_eq_false, Bool.not_eq_true, gt_iff_lt]

/-- A string of 1 to 8 digits decodes. -/
theorem exists_decodeHex {s : List Byte} (h1 : 1 ≤ s.length) (h8 : s.length ≤ 8) (hs : ∀ c ∈ s, hexdigit c = true) :
    ∃ v, decodeHex s = some v := by
  refine Option.ne_none_iff_exists'.1 fun hnone => ?_
  rcases (decodeHex_eq_none_iff s).1 hnone with h | h | ⟨c, hc, hbad⟩
  · omega
  · omega
  · exact absurd (hs c hc) (Bool.eq_false_iff.1 hbad)

/-- The recursive sum is the positional sum (R103). -/
theorem hexSum_eq_sum (s : List Byte) :
    hexSum s = ∑ i ∈ Finset.range s.length, hexval (s.getD i 0#8) * 16 ^ (s.length - 1 - i) := by
  induction s with
  | nil => rfl
  | cons c s ih =>
    have hexp (i : Nat) : s.length + 1 - 1 - (i + 1) = s.length - 1 - i := by omega
    rw [hexSum, ih, List.length_cons, Finset.sum_range_succ', Nat.add_comm]
    simp only [List.getD_cons_succ, List.getD_cons_zero, hexp]
    rfl

/-- Settles O18: the failing inputs of `decodeHex`, and its sum, which fits 32 bits. -/
theorem decodeHexIsThePositionalSum : Obligations.DecodeHexIsThePositionalSum :=
  fun s => ⟨decodeHex_eq_none_iff s, fun _ h => (decodeHex_toNat h).trans (hexSum_eq_sum s)⟩

/-! ### Round trips (R106) -/

/-- A value of `d` digits fits the bytes that hold them. -/
theorem pow16_le_pow_bytes (d : Nat) : 16 ^ d ≤ 2 ^ (8 * ((d + 1) / 2)) := by
  rw [show 16 = 2 ^ 4 from rfl, ← pow_mul]
  exact Nat.pow_le_pow_right (by decide) (by omega)

theorem encodeHex_of_lt {v : Word} {d : Nat} (h1 : 1 ≤ d) (h8 : d ≤ 8) (hv : v.toNat < 16 ^ d) :
    encodeHex v d = some (hexDigits v.toNat d) :=
  encodeHex_eq_some h1 h8 (hv.trans_le (pow16_le_pow_bytes d))

theorem decodeHex_hexDigits_of_lt {v : Word} {d : Nat} (h1 : 1 ≤ d) (h8 : d ≤ 8) (hv : v.toNat < 16 ^ d) :
    decodeHex (hexDigits v.toNat d) = some v := by
  rw [decodeHex_hexDigits _ _ h1 h8, Nat.mod_eq_of_lt hv, BitVec.ofNat_toNat, BitVec.setWidth_eq]

/-- The first characters of HS are the string last written to it, while its registers stay (R29). -/
theorem State.take_hs_of_setHs {s u : State} {cs : List Byte} {n : Nat} (hhi : u.hexstrHi = (s.setHs cs).hexstrHi)
    (hlo : u.hexstrLo = (s.setHs cs).hexstrLo) (hn : cs.length = n) (h8 : n ≤ 8) : u.hs.take n = cs := by
  have hhs : u.hs = (s.setHs cs).hs := by rw [State.hs, State.hs, hhi, hlo]
  subst hn
  rw [hhs, s.hs_setHs cs h8, List.take_left]

/-- Settles O19: the digits of a value that has at most `d` of them decode to it, in any state whose HS holds them. -/
theorem hexCodecRoundTrips : Obligations.HexCodecRoundTrips := by
  refine ⟨fun d v h1 h8 hv => ⟨_, encodeHex_of_lt h1 h8 hv, decodeHex_hexDigits_of_lt h1 h8 hv⟩, fun s h1 h8 hs => ?_,
    fun d s between h1 h8 hv hp => ?_⟩
  · obtain ⟨v, h⟩ := exists_decodeHex h1 h8 hs
    exact ⟨v, h, encodeHex_of_decodeHex h⟩
  · refine ⟨_, step_command hp (.hexEncOk d _ _ (encodeHex_of_lt h1 h8 hv)), rfl, fun n u rest _ _ hhi hlo hpu => ?_⟩
    have htake : u.hs.take d.toNat = hexDigits s.hexval.toNat d.toNat :=
      State.take_hs_of_setHs (s := s) hhi hlo (hexDigits_length _ _) h8
    have hdec : decodeHex (u.hs.take d.toNat) = some s.hexval := by
      rw [htake, decodeHex_hexDigits_of_lt h1 h8 hv]
    exact ⟨_, step_command hpu (.hexDecOk d _ s.hexval h1 h8 hdec), rfl, rfl⟩

/-! ### Odd digit counts (R107) -/

/-- The leading digit of `d + 1` and the `d` digits after it. -/
theorem hexDigits_succ_eq_cons (v d : Nat) : hexDigits v (d + 1) = hexchar (v / 16 ^ d % 16) :: hexDigits v d := by
  induction d generalizing v with
  | zero => simp [hexDigits]
  | succ d ih =>
    rw [hexDigits, ih, Nat.div_div_eq_div_mul, ← Nat.pow_succ']
    rfl

theorem hexchar_ne_zero_char {n : Nat} (h0 : n ≠ 0) (h : n < 16) : hexchar n ≠ 0x30#8 :=
  fun hc => h0 ((hexval_hexchar h).symm.trans (congrArg hexval hc))

/-- Settles O20: the leading digit of the encoding with one digit more is not 0, since `16^d <= v < 16^(d+1)`; what is
left decodes below `16^d`. -/
theorem oddDigitCountDropsALeadingDigit : Obligations.OddDigitCountDropsALeadingDigit := by
  refine ⟨fun d v hodd h8 hlo hhi => ?_, by decide⟩
  have hbound : 2 ^ (8 * ((d + 1) / 2)) = 16 ^ d * 16 := by
    rw [← pow_succ, show 16 = 2 ^ 4 from rfl, ← pow_mul, show 8 * ((d + 1) / 2) = 4 * (d + 1) by omega]
  have hlead : v.toNat / 16 ^ d < 16 := Nat.div_lt_of_lt_mul (hhi.trans_eq hbound)
  have hlead0 : v.toNat / 16 ^ d ≠ 0 := (Nat.div_pos hlo (by positivity)).ne'
  have hmod : v.toNat % 16 ^ d < 16 ^ d := Nat.mod_lt _ (by positivity)
  have hu : (BitVec.ofNat 32 (v.toNat % 16 ^ d)).toNat = v.toNat % 16 ^ d :=
    (BitVec.toNat_ofNat _ _).trans (Nat.mod_eq_of_lt (hmod.trans_le (pow16_le_of_le8 h8)))
  have hd1 : encodeHex v (d + 1) = some (hexchar (v.toNat / 16 ^ d) :: hexDigits v.toNat d) := by
    rw [encodeHex_eq_some (by omega) (by omega) (by rwa [show (d + 1 + 1) / 2 = (d + 1) / 2 by omega]),
      hexDigits_succ_eq_cons, Nat.mod_eq_of_lt hlead]
  exact ⟨hexDigits v.toNat d, _, encodeHex_eq_some (by omega) h8 hhi, hexDigits_length _ _, hexDigits_getElem? _ _,
    ⟨_, hexchar_ne_zero_char hlead0 hlead, hd1⟩, decodeHex_hexDigits _ _ (by omega) h8, hu,
    fun h => absurd (hu.symm.trans (congrArg BitVec.toNat h)) (by omega)⟩

/-! ### The commands (R104, R105) -/

/-- The word of a command that has no D operand (R87). -/
theorem encode_of_operandD_zero {i : Instr} (h : i.operandD = 0#1) :
    encode i = i.opcode.code.setWidth 32 ||| (i.operandA.setWidth 32 <<< 8) := by
  rw [encode, h, BitVec.or_comm]
  simp

/-- The characters of HS, four in each of its registers (R29). -/
theorem State.hs_getElem? (s : State) {i : Nat} (h : i < 4) :
    s.hs[i]? = some (s.hexstrHi.extractLsb' (24 - 8 * i) 8) ∧
      s.hs[4 + i]? = some (s.hexstrLo.extractLsb' (24 - 8 * i) 8) := by
  interval_cases i <;> exact ⟨rfl, rfl⟩

/-- Settles O21: HEX.ENC fails where `encodeHex` does, and otherwise writes its digits to HS. -/
theorem hexEncWritesTheDigits : Obligations.HexEncWritesTheDigits := by
  refine ⟨fun s => ⟨s.hs_length, fun _ => s.hs_getElem?⟩, fun d s =>
    ⟨encode_of_operandD_zero rfl, fun hfail => exec_of_effect (.hexEncFail d s ?_), fun h1 h8 hv => ?_⟩⟩
  · exact (encodeHex_eq_none_iff _ _).2 (hfail.imp_left Nat.lt_one_iff.2)
  · have henc := encodeHex_eq_some h1 h8 hv
    have hhs := s.hs_setHs (hexDigits s.hexval.toNat d.toNat) (by simpa using h8)
    rw [hexDigits_length] at hhs
    exact ⟨_, _, exec_of_effect (.hexEncOk d s _ henc), henc, hhs, rfl⟩

/-- Settles O22: HEX.DEC fails on a bad count or where `decodeHex` does, and otherwise writes its value to HEXVAL. -/
theorem hexDecReadsTheDigits : Obligations.HexDecReadsTheDigits := by
  refine fun n s => ⟨encode_of_operandD_zero rfl, fun hfail => exec_of_effect (.hexDecFail n s ?_), fun h1 h8 hs => ?_⟩
  · rcases hfail with h0 | h8 | hbad
    · exact .inl (Nat.lt_one_iff.2 h0)
    · exact .inr (.inl h8)
    · exact .inr (.inr ((decodeHex_eq_none_iff _).2 (.inr (.inr hbad))))
  · have hlen : (s.hs.take n.toNat).length = n.toNat := by
      rw [List.length_take, State.hs_length]
      omega
    obtain ⟨v, hv⟩ := exists_decodeHex (hlen.symm ▸ h1) (hlen.symm ▸ h8) hs
    exact ⟨v, hv, exec_of_effect (.hexDecOk n s v h1 h8 hv)⟩

end Sys2Proof.Machine
end

section
/-! SUPPORT. The CRC engine (spec/41_crc.md): the checksum as a digit string, what a changed byte does to it, the commands
CRC.INIT, CRC.BYTE and CRC.HEX, and the stream they compute. -/

namespace Sys2Proof.Machine

/-! ### The checksum string (R122, R124, R129) -/

/-- Settles O26: the digits of `hex8` decode to the value, and encoding what 8 digits decode to gives them back. -/
theorem hex8IsEncodeHexOfEight : Obligations.Hex8IsEncodeHexOfEight :=
  fun v => encodeHex_of_decodeHex (decodeHex_hex8 v)

theorem checksum_eq_iff_decodeHex (s : List Byte) {r : List Byte} (hl : r.length = 8) :
    checksum s = r ↔ decodeHex r = some (crc32 s) := by
  constructor
  · rintro rfl
    exact decodeHex_hex8 _
  · exact hex8_of_decodeHex hl

theorem hexdigit_of_mem_checksum {s : List Byte} {c : Byte} (h : c ∈ checksum s) : hexdigit c = true :=
  List.all_eq_true.1 (hex8_all _) c h

/-- A checksum field with a byte that is no uppercase hex digit fails the match step (R160). -/
theorem matchFrame_eq_false_of_crcText {f : List Byte} {c : Byte} (term : Byte) (hc : c ∈ crcText f)
    (hbad : hexdigit c = false) : matchFrame term f = false := by
  refine Bool.eq_false_iff.2 fun hm => ?_
  obtain ⟨-, -, -, -, -, hdigits⟩ := (matchFrame_iff term f).1 hm
  exact Bool.eq_false_iff.1 hbad (hdigits c hc)

/-- Settles O27: `hex8` and `decode_hex` are inverse on strings of 8 digits; a checksum has digits only, and the match
step asks as much of the checksum field. -/
theorem checksumEqualsItsDecodedCrc : Obligations.ChecksumEqualsItsDecodedCrc := by
  refine fun s r => ⟨fun hl _ => checksum_eq_iff_decodeHex s hl, fun ⟨c, hc, hbad⟩ => ⟨?_, ?_⟩⟩
  · rintro rfl
    exact Bool.eq_false_iff.1 hbad (hexdigit_of_mem_checksum hc)
  · rintro cfg f rfl
    exact parseFrame_of_not_match (matchFrame_eq_false_of_crcText cfg.term hc hbad)

/-- Another byte gives another accumulator, which the bytes after it keep apart (R120). -/
theorem crcFeed_byte_injective {acc : Word} {pre post : List Byte} {b c : Byte}
    (h : crcFeed acc (pre ++ [b] ++ post) = crcFeed acc (pre ++ [c] ++ post)) : b = c := by
  simp only [crcFeed_append, crcFeed_cons, crcFeed_nil] at h
  exact crcStep_byte_injective (crcFeed_injective post h)

/-- Settles O28: equal checksums render equal CRCs, so equal accumulators, so equal bytes. -/
theorem byteMutationChangesChecksum : Obligations.ByteMutationChangesChecksum :=
  fun _ _ _ _ hne h => hne (crcFeed_byte_injective (crcFinal_injective ((checksum_eq_iff _ _).1 h)))

/-! ### The commands (R125 to R127) -/

/-- What CRC_OUT reads is the finished accumulator (R27). -/
theorem State.windowRead_crcOut (s : State) : s.windowRead 0x00C = crcFinal s.acc := s.windowRead_register .crcOut

/-- Settles O23: the next state is CRC.INIT's effect, and so is the one after it. -/
theorem crcInitStartsAStream : Obligations.CrcInitStartsAStream := by
  refine ⟨encode_of_operandD_zero rfl, fun s => ⟨_, exec_of_effect (.crcInit s), rfl, ?_, ?_, ?_⟩⟩
  · exact State.windowRead_register _ .crcAcc
  · exact (State.windowRead_crcOut _).trans (BitVec.xor_self)
  · exact exec_of_effect (.crcInit _)

/-- Settles O24: the next state is CRC.BYTE's effect, and `crc_step` runs on the rule's four inputs. -/
theorem crcByteFeedsTheStream : Obligations.CrcByteFeedsTheStream := by
  refine ⟨fun b s => ⟨encode_of_operandD_zero rfl, exec_of_effect (.crcByte b s)⟩, ?_⟩
  decide

/-- Eight digits fill HS (R127). -/
theorem State.hs_setHs_hex8 (s : State) (v : Word) : (s.setHs (hex8 v)).hs = hex8 v :=
  s.hs_setHs (hex8 v) (by simp)

/-- Settles O25: the next state is CRC.HEX's effect, which fills HS and leaves ACC. -/
theorem crcHexRendersTheStream : Obligations.CrcHexRendersTheStream :=
  ⟨encode_of_operandD_zero rfl, fun s =>
    ⟨_, exec_of_effect (.crcHex s), State.hs_setHs_hex8 { s with hexval := crcFinal s.acc } _, rfl⟩⟩

/-! ### The stream (R128) -/

theorem fedByte_eq_none {i : Instr} (h : ∀ b, i ≠ .crcByte b) : fedByte i = none := by
  cases i with
  | crcByte b => exact absurd rfl (h b)
  | _ => rfl

/-- Commands among which there is no CRC.INIT and no RESET take ACC on by the bytes they feed (R26, R126). -/
theorem Effects.acc_eq_crcFeed {is : List Instr} {s t : State} (h : Effects is s t)
    (hne : ∀ i ∈ is, i ≠ .crcInit ∧ i ≠ .reset) : t.acc = crcFeed s.acc (is.filterMap fedByte) := by
  induction h with
  | nil => rfl
  | @cons i is s u t h _ ih =>
    obtain ⟨⟨hinit, hreset⟩, hrest⟩ := List.forall_mem_cons.1 hne
    rw [ih hrest]
    by_cases hb : ∃ b, i = .crcByte b
    · obtain ⟨b, rfl⟩ := hb
      cases h
      rfl
    · have hno : ∀ b, i ≠ .crcByte b := not_exists.1 hb
      rw [List.filterMap_cons_none (fedByte_eq_none hno), h.keeps_acc hinit hno hreset]

/-- A command sequence has effects from every state (R200). -/
theorem exists_effects (is : List Instr) (s : State) : ∃ t, Effects is s t := by
  induction is generalizing s with
  | nil => exact ⟨s, .nil s⟩
  | cons i is ih =>
    obtain ⟨u, -, hu⟩ := exec_total i s
    obtain ⟨t, ht⟩ := ih u
    exact ⟨t, .cons hu ht⟩

/-- A run over the CMD writes of a command sequence and nothing after them ends in the sequence's effects. -/
theorem run_commandWrites_eq_next {is : List Instr} {s t : State} {rest : List Access}
    (hp : s.pending = commandWrites s.cfg is ++ rest) (h : Effects is { s with pending := rest } t) :
    core.run is.length s = .next t := run_commandWrites 0 hp h

/-- The state after CRC.INIT, one CRC.BYTE a byte and CRC.HEX (R128). -/
def State.afterCrcOf (s : State) (bs : List Byte) : State :=
  (({ s with acc := crcFeed crcInit bs, hexval := crc32 bs } : State).setHs (checksum bs)).raise .ok

theorem effects_crcOf (bs : List Byte) (s : State) : Effects (lineCommands (.crcOf bs)) s (s.afterCrcOf bs) := by
  obtain ⟨r, hbytes⟩ := effects_crcBytes bs (({ s with acc := crcInit } : State).raise .ok)
  exact .append (.append (.single (.crcInit s)) hbytes) (.single (.crcHex _))

theorem lineCommands_crcOf_length (bs : List Byte) : (lineCommands (.crcOf bs)).length = bs.length + 2 := by
  simp [lineCommands]

theorem State.hs_afterCrcOf (s : State) (bs : List Byte) : (s.afterCrcOf bs).hs = checksum bs :=
  State.hs_setHs_hex8 { s with acc := crcFeed crcInit bs, hexval := crc32 bs } _

/-- Settles O29: CRC.INIT sets ACC, the commands after it take it on by the bytes they feed, and CRC.HEX renders what
CRC_OUT reads. -/
theorem crcStreamComputesCrc32 : Obligations.CrcStreamComputesCrc32 := by
  refine ⟨fun s is rest hne hp => ?_, fun s bs rest hp => ?_⟩
  · obtain ⟨t, ht⟩ := exists_effects is (({ s with pending := rest, acc := crcInit } : State).raise .ok)
    obtain ⟨-, hpending, -⟩ := ht.keeps_host
    refine ⟨t, run_commandWrites_eq_next hp (.cons (.crcInit _) ht), hpending, ?_⟩
    rw [State.windowRead_crcOut, ht.acc_eq_crcFeed hne]
    rfl
  · refine ⟨({ s with pending := rest } : State).afterCrcOf bs, ?_, State.windowRead_crcOut _,
      State.windowRead_register _ .hexval, State.hs_afterCrcOf _ bs, rfl⟩
    rw [← lineCommands_crcOf_length]
    exact run_commandWrites_eq_next hp (effects_crcOf bs _)

end Sys2Proof.Machine
end

section
/-! SUPPORT. The frame encoder (spec/42_frame_build.md): the layout of a built frame position by position, the commands
TX.CLEAR, TX.PUSH and FRAME.BUILD, and the request program they make up. -/

namespace Sys2Proof.Machine

/-! ### The layout of a built frame (R145) -/

theorem exists_buildFrame (term : Byte) {cid : Nat} (dir : Direction) (p : List Byte) (h : cid ≤ 99) :
    ∃ f, buildFrame term cid dir p = some f :=
  ⟨_, buildFrame_eq_some.2 ⟨h, rfl⟩⟩

/-- A decimal digit's character lies between '0' and '9', that many places above '0'. -/
theorem decimalChar_bounds {n : Nat} (h : n ≤ 9) :
    (0x30#8 ≤ BitVec.ofNat 8 (0x30 + n) ∧ BitVec.ofNat 8 (0x30 + n) ≤ 0x39#8) ∧
      (BitVec.ofNat 8 (0x30 + n)).toNat - 0x30 = n := by
  interval_cases n <;> decide

/-- The two characters of a command id are digits, and their value is the id. -/
theorem twoDigits_value {cid : Nat} (h : cid ≤ 99) :
    ∃ d1 d0, twoDigits cid = [d1, d0] ∧ (0x30#8 ≤ d1 ∧ d1 ≤ 0x39#8) ∧ (0x30#8 ≤ d0 ∧ d0 ≤ 0x39#8) ∧
      (d1.toNat - 0x30) * 10 + (d0.toNat - 0x30) = cid := by
  obtain ⟨hd1, hv1⟩ := decimalChar_bounds (n := cid / 10) (by omega)
  obtain ⟨hd0, hv0⟩ := decimalChar_bounds (n := cid % 10) (by omega)
  exact ⟨_, _, rfl, hd1, hd0, by omega⟩

section
variable {term : Byte} {cid : Nat} {dir : Direction} {p f : List Byte} (h : buildFrame term cid dir p = some f)
include h

/-- What stands before the last ten bytes of a frame is the covered span. -/
theorem buildFrame_coveredSpan : coveredSpan f = requestSpan cid dir p := by
  rw [coveredSpan, buildFrame_length h]
  exact buildFrame_take h

/-- The last ten bytes of a frame: the separator, the checksum of the covered span and the terminator. -/
theorem buildFrame_suffix : f.drop (f.length - 10) = space :: (checksum (coveredSpan f) ++ [term]) := by
  rw [buildFrame_coveredSpan h, buildFrame_length h]
  obtain ⟨-, rfl⟩ := buildFrame_eq_some.1 h
  rw [List.append_assoc, List.append_assoc, List.drop_left' (by simp)]
  rfl

theorem buildFrame_crcText : crcText f = checksum (coveredSpan f) := by
  have hsuffix := congrArg (List.drop 1) (buildFrame_suffix h)
  rw [List.drop_drop, show f.length - 10 + 1 = f.length - 9 by have := buildFrame_length h; omega] at hsuffix
  rw [crcText, hsuffix]
  exact List.take_left' rfl

theorem buildFrame_separator : f[f.length - 10]? = some space := by
  rw [← List.head?_drop, buildFrame_suffix h, List.head?_cons]

theorem buildFrame_terminator : f[f.length - 1]? = some term := by
  rw [← List.getLast?_eq_getElem?]
  obtain ⟨-, rfl⟩ := buildFrame_eq_some.1 h
  exact List.getLast?_concat

end

/-- Settles O31: the first six bytes are read off the frame's definition, the last ten off its suffix, and what stands
between them is the parameters. -/
theorem builtFrameLayout : Obligations.BuiltFrameLayout := by
  refine ⟨fun term cid dir p => exists_buildFrame term dir p, fun term cid dir p f h => ?_⟩
  have hparams : (f.take (f.length - 10)).drop 6 = p := congrArg (List.drop 6) (buildFrame_coveredSpan h)
  obtain ⟨hcid, hf⟩ := buildFrame_eq_some.1 h
  obtain ⟨d1, d0, hdigits, hd1, hd0, hvalue⟩ := twoDigits_value hcid
  rw [requestSpan, hdigits] at hf
  refine ⟨hcid, buildFrame_length h, ?_, ?_, ⟨d1, d0, ?_, ?_, hd1, hd0, hvalue⟩, hparams, buildFrame_separator h,
    buildFrame_crcText h, buildFrame_terminator h⟩
  · rw [hf]; rfl
  · rw [hf]; cases dir <;> rfl
  · rw [hf]; rfl
  · rw [hf]; rfl

/-! ### The commands (R142 to R144) -/

/-- The word of a command, its fields from the lowest up (R87). -/
theorem encode_eq_or (i : Instr) :
    encode i = i.opcode.code.setWidth 32 ||| (i.operandA.setWidth 32 <<< 8) ||| (i.operandD.setWidth 32 <<< 16) := by
  rw [encode, BitVec.or_comm, BitVec.or_comm (i.operandD.setWidth 32 <<< 16), BitVec.or_assoc]

/-- Settles O32: the next state is TX.CLEAR's effect, and so is the one after it; no byte of TBUF is valid in it. -/
theorem txClearEmptiesTransmitBuffer : Obligations.TxClearEmptiesTransmitBuffer := by
  refine ⟨encode_of_operandD_zero rfl, fun s =>
    ⟨_, exec_of_effect (.txClear s), rfl, exec_of_effect (.txClear _), fun k hk => ?_⟩⟩
  rw [State.windowRead_tbuf _ hk]
  exact bufferWord_empty _ _

/-- Settles O33: TX.PUSH has one effect where it is refused, and otherwise one that writes a single byte. -/
theorem txPushAppendsOneByte : Obligations.TxPushAppendsOneByte := by
  refine fun b s => ⟨encode_of_operandD_zero rfl, fun hfail => exec_of_effect (.txPushFail b s hfail), fun hf hl =>
    ⟨_, exec_of_effect (.txPushStore b s hf hl), rfl, fun k => ?_⟩⟩
  exact Memory.read_write _ _ _ _

/-- Settles O34: FRAME.BUILD has one effect where it is refused, and otherwise one that stores the frame, whose length
is below the 9-bit wrap. -/
theorem frameBuildLeavesTheFrame : Obligations.FrameBuildLeavesTheFrame := by
  refine fun cid dir s ⟨_, h256⟩ => ⟨encode_eq_or _, fun hfail => exec_of_effect (.buildFail cid dir s hfail),
    fun hf hcid hl => ?_⟩
  obtain ⟨f, hb⟩ := exists_buildFrame s.cfg.term dir s.outgoing hcid
  have hlen : f.length = s.tlen.toNat + 16 := by rw [buildFrame_length hb, State.outgoing_length]
  refine ⟨_, f, exec_of_effect (.buildOk cid dir s f hf hcid hl hb), hb, ?_, ?_, fun k hk => ?_, rfl⟩
  · rw [State.raise_tlen, State.holdFrame_tlen, BitVec.toNat_ofNat]
    omega
  · rw [← State.outgoing, State.outgoing_raise, State.outgoing_holdFrame _ _ _ (by omega)]
  · rw [State.raise_tbuf, State.holdFrame_tbuf, Memory.read_store, dif_neg (by omega)]

/-! ### The request program (R141 to R144) -/

/-- The commands that frame a request: TX.CLEAR, one TX.PUSH a parameter byte, FRAME.BUILD. -/
def requestCommands (cid : Byte) (dir : Direction) (p : List Byte) : List Instr :=
  [.txClear] ++ p.map .txPush ++ [.frameBuild cid dir]

theorem requestCommands_length (cid : Byte) (dir : Direction) (p : List Byte) :
    (requestCommands cid dir p).length = p.length + 2 := by
  simp [requestCommands]

theorem programAccesses_request (c : Config) (cid : Byte) (dir : Direction) (p : List Byte) :
    programAccesses c [.command .txClear, .txPushs p, .command (.frameBuild cid dir)] =
      commandWrites c (requestCommands cid dir p) := by
  simp [programAccesses, lineAccesses, lineCommands, commandWrites, requestCommands]

/-- Parameter bytes pushed where there is room for them are appended to the valid bytes of TBUF; only RESULT is also
written (R143). -/
theorem effects_txPushs (p : List Byte) (s : State) (hf : s.txframe = false) (h256 : s.cfg.bufSize ≤ 256)
    (hroom : s.tlen.toNat + p.length ≤ s.cfg.bufSize) :
    ∃ (m : Memory) (n : Len) (r : Result),
      Effects (p.map .txPush) s { s with tbuf := m, tlen := n, result := r } ∧
      ({ s with tbuf := m, tlen := n, result := r } : State).outgoing = s.outgoing ++ p := by
  induction p generalizing s with
  | nil => exact ⟨s.tbuf, s.tlen, s.result, .nil s, (List.append_nil _).symm⟩
  | cons b p ih =>
    rw [List.length_cons] at hroom
    have hsucc : (s.tlen + 1#9).toNat = s.tlen.toNat + 1 := len_succ (by omega)
    have hroom' : (s.tlen + 1#9).toNat + p.length ≤ s.cfg.bufSize := by omega
    obtain ⟨m, n, r, he, hout⟩ := ih ((s.appendTx b).raise .ok) hf h256 hroom'
    refine ⟨m, n, r, .cons (.txPushStore b s hf (by omega)) he, hout.trans ?_⟩
    rw [State.outgoing_raise, State.outgoing_appendTx s b (by omega), List.append_assoc, List.singleton_append]

/-- The commands of a request whose frame fits leave the frame in TBUF (R144). -/
theorem effects_requestCommands {cid : Byte} {dir : Direction} {p f : List Byte} {s : State}
    (h256 : s.cfg.bufSize ≤ 256) (hroom : p.length + 16 ≤ s.cfg.bufSize)
    (hb : buildFrame s.cfg.term cid.toNat dir p = some f) :
    ∃ m : Memory, Effects (requestCommands cid dir p) s
      ((({ s with tbuf := m } : State).holdFrame f (crc32 (f.take (p.length + 6)))).raise .ok) := by
  obtain ⟨m, n, r, hpush, hout⟩ := effects_txPushs p (s.emptyTx.raise .ok) rfl h256
    (by show 0 + p.length ≤ s.cfg.bufSize; omega)
  have hlen : n.toNat = p.length := by simpa using congrArg List.length hout
  have hcid := (buildFrame_eq_some.1 hb).1
  refine ⟨m, .append (.append (.single (.txClear s)) hpush) (.single ?_)⟩
  rw [← hlen] at hroom ⊢
  exact .buildOk cid dir { s.emptyTx with tbuf := m, tlen := n, result := r } f rfl hcid hroom (hout ▸ hb)

/-- Settles O35: the program's accesses are the CMD writes of its commands, whose effects leave the frame in TBUF. -/
theorem requestProgramBuildsTheFrame : Obligations.RequestProgramBuildsTheFrame := by
  intro s cid dir p rest ⟨_, h256⟩ hcid hroom hp
  rw [programAccesses_request] at hp
  obtain ⟨f, hb⟩ := exists_buildFrame s.cfg.term dir p hcid
  have hlen := buildFrame_length hb
  obtain ⟨m, he⟩ := effects_requestCommands (s := { s with pending := rest }) h256 hroom hb
  refine ⟨_, f, (requestCommands_length cid dir p) ▸ run_commandWrites_eq_next hp he, hb, ?_, rfl, ?_⟩
  · rw [State.outgoing_raise, State.outgoing_holdFrame _ _ _ (by omega)]
  · rw [← hlen]
    rfl

end Sys2Proof.Machine
end

section
/-! SUPPORT. The frame decoder (spec/43_frame_parse.md): the steps of `parse_frame` on the bytes of its input, the
commands RX.CLEAR, RX.PUSH, RX.ABORT and FRAME.PARSE, the response program they make up, and how its failures are told
apart. -/

namespace Sys2Proof.Machine

/-! ### The match step position by position (R160, R169) -/

/-- The checksum field is `F[L-9 .. L-2]`. -/
theorem mem_crcText_iff {f : List Byte} (h13 : 13 ≤ f.length) (x : Byte) :
    x ∈ crcText f ↔ ∃ i, f.length - 9 ≤ i ∧ i ≤ f.length - 2 ∧ f[i]? = some x := by
  rw [crcText, List.mem_iff_getElem?]
  constructor
  · rintro ⟨j, hj⟩
    obtain ⟨hlt, -⟩ := List.getElem?_eq_some_iff.1 hj
    rw [List.length_take] at hlt
    rw [List.getElem?_take_of_lt (by omega), List.getElem?_drop] at hj
    exact ⟨_, by omega, by omega, hj⟩
  · rintro ⟨i, hlo, hhi, hi⟩
    refine ⟨i - (f.length - 9), ?_⟩
    rw [List.getElem?_take_of_lt (by omega), List.getElem?_drop, Nat.add_sub_cancel' hlo, hi]

/-- The checksum field has digits only exactly when there is one at each of its positions. -/
theorem crcText_digits_iff {f : List Byte} (h13 : 13 ≤ f.length) :
    (∀ x ∈ crcText f, hexdigit x = true) ↔
      ∀ i, f.length - 9 ≤ i → i ≤ f.length - 2 → ∃ x, f[i]? = some x ∧ hexdigit x = true := by
  constructor
  · intro h i hlo hhi
    have hi : i < f.length := by omega
    exact ⟨f[i], List.getElem?_eq_getElem hi,
      h _ ((mem_crcText_iff h13 _).2 ⟨i, hlo, hhi, List.getElem?_eq_getElem hi⟩)⟩
  · intro h x hx
    obtain ⟨i, hlo, hhi, hi⟩ := (mem_crcText_iff h13 x).1 hx
    obtain ⟨y, hy, hdigit⟩ := h i hlo hhi
    obtain rfl := Option.some.inj (hi.symm.trans hy)
    exact hdigit

/-- The match step on raw positions (R160). -/
theorem matchFrame_iff_positions (term : Byte) (f : List Byte) :
    matchFrame term f = true ↔
      13 ≤ f.length ∧ f[f.length - 1]? = some term ∧ (f.take 2 = okToken ∨ f.take 2 = erToken) ∧
        f[2]? = some plus ∧ f[f.length - 10]? = some space ∧
        ∀ i, f.length - 9 ≤ i → i ≤ f.length - 2 → ∃ x, f[i]? = some x ∧ hexdigit x = true := by
  rw [matchFrame_iff]
  refine and_congr_right fun h13 => ?_
  rw [crcText_digits_iff h13]

/-- Settles O37: neither status token has a '+', so the first is byte 2; what follows byte L-10 is digits and TERM. -/
theorem matchedFrameHasOneSplit : Obligations.MatchedFrameHasOneSplit := by
  intro c f hterm hm
  obtain ⟨h13, hlast, hstatus, hplus, hspace, hdigits⟩ := (matchFrame_iff_positions _ _).1 hm
  refine ⟨?_, hspace, fun i hi hsp => ?_⟩
  · have hno : plus ∉ f.take 2 := by rcases hstatus with h | h <;> rw [h] <;> decide
    have hlen : (f.take 2).length = 2 := by rw [List.length_take]; omega
    obtain ⟨hlt, hget⟩ := List.getElem?_eq_some_iff.1 hplus
    have hsplit : f = f.take 2 ++ plus :: f.drop 3 := by
      rw [← hget, ← List.drop_eq_getElem_cons, List.take_append_drop]
    show f.idxOf plus = 2
    rw [hsplit, List.idxOf_append_of_notMem hno, List.idxOf_cons_self, hlen]
  · obtain ⟨hlt, -⟩ := List.getElem?_eq_some_iff.1 hsp
    by_cases hi2 : i ≤ f.length - 2
    · obtain ⟨x, hx, hdigit⟩ := hdigits i (by omega) hi2
      obtain rfl := Option.some.inj (hsp.symm.trans hx)
      exact absurd hdigit (by decide)
    · obtain rfl : i = f.length - 1 := by omega
      have hbad := Option.some.inj (hsp.symm.trans hlast)
      rcases hterm with h | h <;> rw [h] at hbad <;> exact absurd hbad (by decide)

/-! ### The verify and interpret steps (R161 to R164) -/

theorem knownCode_iff (t : CodeTable) (c : Byte) : knownCode t c = true ↔ c ∈ t.codes :=
  List.contains_iff_mem

theorem interpretError_of_known {t : CodeTable} {c1 c0 : Byte} (h1 : hexdigit c1 = true) (h0 : hexdigit c0 = true)
    (hk : BitVec.ofNat 8 (16 * hexval c1 + hexval c0) ∈ t.codes) :
    interpretError t [c1, c0] = .deverr (BitVec.ofNat 8 (16 * hexval c1 + hexval c0)) := by
  simp [interpretError, h1, h0, (knownCode_iff _ _).2 hk]

/-- Any body that is not two digits of a known code is MALFORMED (R162). -/
theorem interpretError_of_not_known {t : CodeTable} {body : List Byte}
    (h : ¬ ∃ c1 c0, body = [c1, c0] ∧ hexdigit c1 = true ∧ hexdigit c0 = true ∧
      BitVec.ofNat 8 (16 * hexval c1 + hexval c0) ∈ t.codes) : interpretError t body = .malformed := by
  rcases interpretError_cases t body with hm | ⟨c1, c0, hb, h1, h0, hk, -⟩
  · exact hm
  · exact absurd ⟨c1, c0, hb, h1, h0, (knownCode_iff _ _).1 hk⟩ h

section
variable {c : Config} {f : List Byte} (hm : matchFrame c.term f = true)
include hm

theorem parseFrame_of_wrong_checksum (hcrc : checksum (coveredSpan f) ≠ crcText f) :
    parseFrame c f = (.integrity, some (crc32 (coveredSpan f))) := by
  rw [parseFrame_of_match hm, verifyThenInterpret, ← checksum, if_pos hcrc]

theorem parseFrame_of_ok (hcrc : checksum (coveredSpan f) = crcText f) (hs : statusOf f = okToken) :
    parseFrame c f = (.ok (f.length - 13), some (crc32 (coveredSpan f))) := by
  rw [parseFrame_of_match hm, verifyThenInterpret, ← checksum, if_neg (not_not.2 hcrc), interpret, if_pos hs]

theorem parseFrame_of_er (hcrc : checksum (coveredSpan f) = crcText f) (hs : statusOf f = erToken) :
    parseFrame c f = (interpretError c.codes (bodyOf f), some (crc32 (coveredSpan f))) := by
  rw [parseFrame_of_match hm, verifyThenInterpret, ← checksum, if_neg (not_not.2 hcrc), interpret,
    if_neg (hs ▸ okToken_ne_erToken.symm)]

end

/-- Settles O36: the premise is the match step, and the parse of matched input goes by its checksum, its status and its
body. -/
theorem parseFrameStepsInOrder : Obligations.ParseFrameStepsInOrder := by
  intro c f matched hmatched
  have hiff : matched ↔ matchFrame c.term f = true := hmatched.trans (matchFrame_iff_positions _ _).symm
  refine ⟨fun hno => parseFrame_of_not_match (Bool.eq_false_iff.2 (mt hiff.2 hno)), fun hyes => ?_⟩
  have hm := hiff.1 hyes
  refine ⟨parseFrame_of_wrong_checksum hm, fun hcrc => ⟨parseFrame_of_ok hm hcrc, fun hs => ?_⟩⟩
  rw [parseFrame_of_er hm hcrc hs]
  refine ⟨fun x1 x0 hbody h1 h0 hk => ?_, fun hno => ?_⟩
  · exact Prod.ext ((congrArg _ hbody).trans (interpretError_of_known h1 h0 hk)) rfl
  · exact Prod.ext (interpretError_of_not_known hno) rfl

/-! ### The commands (R165 to R168) -/

/-- With IBUF emptied no byte of it can be read. -/
theorem State.windowRead_ibuf_of_ilen_zero {s : State} (h : s.ilen = 0#9) {k : Nat} (hk : k < 256) :
    s.windowRead (0x400 + 4 * k) = 0#32 := by
  rw [State.windowRead_ibuf _ hk, h, bufferWord_empty]

/-- Settles O38: the next state is RX.CLEAR's effect, and so is the one after it. -/
theorem rxClearEmptiesReceiveBuffer : Obligations.RxClearEmptiesReceiveBuffer :=
  ⟨encode_of_operandD_zero rfl, fun s => ⟨_, exec_of_effect (.rxClear s), rfl, exec_of_effect (.rxClear _),
    fun _ => State.windowRead_ibuf_of_ilen_zero rfl⟩⟩

/-- Settles O40: the next state is RX.ABORT's effect. -/
theorem rxAbortReportsTimeout : Obligations.RxAbortReportsTimeout :=
  ⟨encode_of_operandD_zero rfl, fun s => exec_of_effect (.rxAbort s)⟩

/-- While no terminator is held, a stored byte leaves RXDONE at whether it is TERM (R166). -/
theorem State.appendRx_eq_of_not_done {s : State} (hd : s.rxdone = false) (b : Byte) :
    s.appendRx b =
      { s with ibuf := s.ibuf.write s.ilen.toNat b, ilen := s.ilen + 1#9, rxdone := decide (b = s.cfg.term) } := by
  rw [State.appendRx, hd, Bool.false_or]
  rfl

/-- Settles O39: RX.PUSH has one effect for each reason to drop its byte, and otherwise one that writes that byte
alone. -/
theorem rxPushStoresOrDrops : Obligations.RxPushStoresOrDrops := by
  refine fun b s => ⟨encode_of_operandD_zero rfl, fun hd => exec_of_effect (.rxPushLate b s hd),
    fun hd hl => exec_of_effect (.rxPushFull b s hd hl), fun hd hl =>
    ⟨_, exec_of_effect (.rxPushStore b s hd hl), ?_, fun k => Memory.read_write _ _ _ _⟩⟩
  rw [State.appendRx_eq_of_not_done hd]
  rfl

/-- Settles O41: FRAME.PARSE has one effect for each result of `parse_frame`, which records the CRC in FCRC alone. -/
theorem frameParseRecordsTheResult : Obligations.FrameParseRecordsTheResult := by
  refine ⟨encode_of_operandD_zero rfl, fun s r o hp => ⟨?_, ?_, ?_⟩⟩
  · rintro n rfl
    rw [exec_of_effect (.parseOk s n o hp), State.recordCrc_eq]
    rfl
  · rintro code rfl
    rw [exec_of_effect (.parseDeverr s code o hp), State.recordCrc_eq]
    rfl
  · rintro (rfl | rfl)
    · rw [exec_of_effect (.parseMalformed s o hp), State.recordCrc_eq]
      rfl
    · rw [exec_of_effect (.parseIntegrity s o hp), State.recordCrc_eq]
      rfl

/-- A failed FRAME.PARSE leaves the receive side empty. -/
theorem Effect.parse_failed {s t : State} (h : Effect .frameParse s t)
    (ht : t.result = .malformed ∨ t.result = .integrity) : t.rxSide = s.emptyRx.rxSide := by
  cases h with
  | parseOk | parseDeverr => rcases ht with ht | ht <;> cases ht
  | parseMalformed _ o | parseIntegrity _ o => cases o <;> rfl

/-- Settles O42: a failed FRAME.PARSE leaves ILEN, BODY_LEN and DEVERR 0, and with ILEN 0 no byte is valid. -/
theorem failedParseLeavesNothingReadable : Obligations.FailedParseLeavesNothingReadable := by
  intro s t h ht
  have hrx := (exec_effect h).parse_failed ht
  have hilen : t.ilen = 0#9 := congrArg RxSide.ilen hrx
  have hbody : t.bodyLen = 0#9 := congrArg RxSide.bodyLen hrx
  have hvalid : t.deverrValid = false := congrArg RxSide.deverrValid hrx
  have hcode : t.deverrCode = 0#8 := congrArg RxSide.deverrCode hrx
  refine ⟨fun _ => State.windowRead_ibuf_of_ilen_zero hilen, ?_, ?_, ?_⟩
  · refine (t.windowRead_register .ilen).trans ?_
    rw [State.readReg, hilen]
    rfl
  · refine (t.windowRead_register .bodyLen).trans ?_
    rw [State.readReg, hbody]
    rfl
  · refine (t.windowRead_register .deverr).trans ?_
    rw [State.readReg, State.deverrWord, hvalid, hcode]
    decide

/-- Settles O43: a parse that succeeds leaves the valid bytes of IBUF, so the next one has the same result, and records
what stands there already. -/
theorem successfulParseIsRepeatable : Obligations.SuccessfulParseIsRepeatable := by
  intro s t h ht
  apply exec_of_effect
  cases exec_effect h with
  | parseOk _ n o hp =>
    have again := Effect.parseOk (((s.recordCrc o).recordParse n false 0#8).raise .ok) n o
    cases o <;> exact again hp
  | parseDeverr _ code o hp =>
    have again := Effect.parseDeverr (((s.recordCrc o).recordParse 2 true code).raise .deverr) code o
    cases o <;> exact again hp
  | parseMalformed | parseIntegrity => rcases ht with ht | ht <;> cases ht

/-! ### An error body as the encoding of its code (R162, R171) -/

theorem encodeHex_two (c : Byte) :
    encodeHex (c.setWidth 32) 2 = some [hexchar (c.toNat / 16 % 16), hexchar (c.toNat % 16)] := by
  have hc : (c.setWidth 32).toNat = c.toNat := BitVec.toNat_setWidth_of_le (by decide)
  rw [encodeHex_of_lt (by decide) (by decide) (by rw [hc]; exact c.isLt), hc]
  rfl

/-- Two digits are the encoding of the byte they spell. -/
theorem encodeHex_two_digits {c1 c0 : Byte} (h1 : hexdigit c1 = true) (h0 : hexdigit c0 = true) :
    encodeHex ((BitVec.ofNat 8 (16 * hexval c1 + hexval c0)).setWidth 32) 2 = some [c1, c0] := by
  have hlt1 := hexval_lt h1
  have hlt0 := hexval_lt h0
  have hcode : (BitVec.ofNat 8 (16 * hexval c1 + hexval c0)).toNat = 16 * hexval c1 + hexval c0 :=
    BitVec.toNat_ofNat _ _ ▸ Nat.mod_eq_of_lt (by omega)
  rw [encodeHex_two, hcode, show (16 * hexval c1 + hexval c0) / 16 % 16 = hexval c1 by omega,
    show (16 * hexval c1 + hexval c0) % 16 = hexval c0 by omega, hexchar_hexval h1, hexchar_hexval h0]

/-- The encoding of a known code is an error body with that code. -/
theorem interpretError_of_encodeHex {t : CodeTable} {c : Byte} {body : List Byte} (hk : c ∈ t.codes)
    (h : encodeHex (c.setWidth 32) 2 = some body) : interpretError t body = .deverr c := by
  have hlt1 : c.toNat / 16 % 16 < 16 := Nat.mod_lt _ (by decide)
  have hlt0 : c.toNat % 16 < 16 := Nat.mod_lt _ (by decide)
  have hcode : BitVec.ofNat 8
      (16 * hexval (hexchar (c.toNat / 16 % 16)) + hexval (hexchar (c.toNat % 16))) = c := by
    have hc := c.isLt
    rw [hexval_hexchar hlt1, hexval_hexchar hlt0, show 16 * (c.toNat / 16 % 16) + c.toNat % 16 = c.toNat by omega,
      BitVec.ofNat_toNat, BitVec.setWidth_eq]
  obtain rfl := Option.some.inj ((encodeHex_two c).symm.trans h)
  rw [interpretError_of_known (hexdigit_hexchar hlt1) (hexdigit_hexchar hlt0) (hcode.symm ▸ hk), hcode]

/-- A body that encodes no known code is MALFORMED. -/
theorem interpretError_of_not_encodeHex {t : CodeTable} {body : List Byte}
    (h : ∀ c ∈ t.codes, encodeHex (c.setWidth 32) 2 ≠ some body) : interpretError t body = .malformed := by
  refine interpretError_of_not_known ?_
  rintro ⟨c1, c0, rfl, h1, h0, hk⟩
  exact h _ hk (encodeHex_two_digits h1 h0)

/-! ### The response program (R171) -/

theorem status_length {status : List Byte} (hst : status = okToken ∨ status = erToken) : status.length = 2 := by
  rcases hst with rfl | rfl <;> rfl

theorem response_checksum_iff {status sum : List Byte} (hst : status.length = 2) (hsum : sum.length = 8)
    (body : List Byte) (term : Byte) :
    checksum (coveredSpan (response status body sum term)) = crcText (response status body sum term) ↔
      sum = checksum (status ++ [plus] ++ body) := by
  rw [response_coveredSpan hst hsum, response_crcText hst hsum, eq_comm]

/-- No byte of a response before its last is the terminator, where none of its body is. -/
theorem term_not_mem_response {c : Config} {status body sum : List Byte} (hterm : c.TermOk)
    (hst : status = okToken ∨ status = erToken) (hbody : c.term ∉ body) (hsum : ∀ x ∈ sum, hexdigit x = true) :
    c.term ∉ status ++ [plus] ++ body ++ [space] ++ sum := by
  obtain ⟨hok, her, hplus, hspace, hdigit⟩ : c.term ∉ okToken ∧ c.term ∉ erToken ∧ c.term ∉ [plus] ∧
      c.term ∉ [space] ∧ hexdigit c.term ≠ true := by
    rcases hterm with h | h <;> rw [h] <;> decide
  have hstatus : c.term ∉ status := by rcases hst with rfl | rfl <;> assumption
  simp only [List.mem_append, not_or]
  exact ⟨⟨⟨⟨hstatus, hplus⟩, hbody⟩, hspace⟩, fun h => hdigit (hsum _ h)⟩

/-- Bytes other than TERM pushed where there is room for them are appended to the valid bytes of IBUF (R166). -/
theorem effects_rxPushs (p : List Byte) (s : State) (hd : s.rxdone = false) (hterm : s.cfg.term ∉ p)
    (h256 : s.cfg.bufSize ≤ 256) (hroom : s.ilen.toNat + p.length ≤ s.cfg.bufSize) :
    ∃ u, Effects (p.map .rxPush) s u ∧ u.rxdone = false ∧ u.received = s.received ++ p := by
  induction p generalizing s with
  | nil => exact ⟨s, .nil s, hd, (List.append_nil _).symm⟩
  | cons b p ih =>
    rw [List.length_cons] at hroom
    obtain ⟨hb, hterm⟩ := List.ne_and_not_mem_of_not_mem_cons hterm
    have hdone : ((s.appendRx b).raise .ok).rxdone = false := by simp [hd, hb.symm]
    have hsucc : (s.ilen + 1#9).toNat = s.ilen.toNat + 1 := len_succ (by omega)
    have hroom' : (s.ilen + 1#9).toNat + p.length ≤ s.cfg.bufSize := by omega
    obtain ⟨u, he, hud, hu⟩ := ih ((s.appendRx b).raise .ok) hdone hterm h256 hroom'
    refine ⟨u, .cons (.rxPushStore b s hd (by omega)) he, hud, hu.trans ?_⟩
    rw [State.received_raise, State.received_appendRx s b (by omega), List.append_assoc, List.singleton_append]

/-- RX.CLEAR and one RX.PUSH a byte leave a string that fits and has TERM nowhere but at its end as the valid bytes of
IBUF. -/
theorem effects_receive {p : List Byte} {s : State} (b : Byte) (hterm : s.cfg.term ∉ p) (h256 : s.cfg.bufSize ≤ 256)
    (hroom : p.length + 1 ≤ s.cfg.bufSize) :
    ∃ u, Effects ([.rxClear] ++ (p ++ [b]).map .rxPush) s u ∧ u.received = p ++ [b] := by
  obtain ⟨u, he, hud, hu⟩ := effects_rxPushs p (s.emptyRx.raise .ok) rfl hterm h256
    (by show 0 + p.length ≤ s.cfg.bufSize; omega)
  obtain ⟨hcfg, -, -⟩ := he.keeps_host
  have hu : u.received = p := hu
  have hlen : u.ilen.toNat = p.length := by rw [← State.received_length, hu]
  have hbuf : u.cfg.bufSize = s.cfg.bufSize := congrArg Config.bufSize hcfg
  refine ⟨(u.appendRx b).raise .ok, ?_, ?_⟩
  · rw [List.map_append]
    exact .append (.single (.rxClear s)) (he.append (.single (.rxPushStore b u hud (by omega))))
  · rw [State.received_raise, State.received_appendRx u b (by omega), hu]

/-- A response that fits, received after RX.CLEAR, is the valid bytes of IBUF. -/
theorem effects_receive_response {s : State} {status body sum : List Byte} (hv : s.cfg.Valid)
    (hst : status = okToken ∨ status = erToken) (hbody : s.cfg.term ∉ body) (hsum : sum.length = 8)
    (hd : ∀ x ∈ sum, hexdigit x = true) (hroom : body.length + 13 ≤ s.cfg.bufSize) :
    ∃ u, Effects ([.rxClear] ++ (response status body sum s.cfg.term).map .rxPush) s u ∧
      u.received = response status body sum u.cfg.term := by
  obtain ⟨hterm, ⟨-, h256⟩, -⟩ := hv
  have hlen := status_length hst
  have hflen : (response status body sum s.cfg.term).length = body.length + 13 := response_length hlen hsum
  rw [response, List.length_append, List.length_singleton] at hflen
  obtain ⟨u, he, hu⟩ := effects_receive s.cfg.term (term_not_mem_response hterm hst hbody hd) h256
    (hflen.trans_le hroom)
  obtain ⟨hcfg, -, -⟩ := he.keeps_host
  exact ⟨u, he, hcfg ▸ hu⟩

/-- A command takes a state to one next state only. -/
theorem Effect.unique {i : Instr} {s t u : State} (h : Effect i s t) (h' : Effect i s u) : t = u :=
  Host.Outcome.next.inj ((exec_of_effect h).symm.trans (exec_of_effect h'))

/-- The body of the frame held stands in IBUF from index 3 on (R160). -/
theorem State.bodyOf_received (s : State) : bodyOf s.received = s.ibuf.span 3 (s.ilen.toNat - 13) := by
  apply List.ext_getElem
  · simp [bodyOf, coveredSpan]
    omega
  · intro j _ _
    simp [bodyOf, coveredSpan, State.received]

/-- The commands that receive and parse a response: RX.CLEAR, one RX.PUSH a byte, FRAME.PARSE. -/
def responseCommands (bs : List Byte) : List Instr := [.rxClear] ++ bs.map .rxPush ++ [.frameParse]

theorem responseCommands_length (bs : List Byte) : (responseCommands bs).length = bs.length + 2 := by
  simp [responseCommands]

theorem programAccesses_response (c : Config) (bs : List Byte) :
    programAccesses c [.command .rxClear, .rxPushs bs, .command .frameParse] =
      commandWrites c (responseCommands bs) := by
  simp [programAccesses, lineAccesses, lineCommands, commandWrites, responseCommands]

section
variable {u t : State} {status body sum : List Byte} (hu : u.received = response status body sum u.cfg.term)
  (ht : Effect .frameParse u t) (hsum : sum.length = 8) (hd : ∀ x ∈ sum, hexdigit x = true)
include hu ht hsum hd

/-- FRAME.PARSE on a response held whose checksum field is another string of digits. -/
theorem parse_response_wrong_checksum (hst : status = okToken ∨ status = erToken)
    (hne : sum ≠ checksum (status ++ [plus] ++ body)) : t.result = .integrity ∧ t.ilen = 0#9 := by
  have hlen := status_length hst
  have hp := parseFrame_of_wrong_checksum (c := u.cfg) (response_match (body := body) hlen hsum hst hd)
    (mt (response_checksum_iff hlen hsum _ _).1 hne)
  obtain rfl := ht.unique (.parseIntegrity u _ (hu ▸ hp))
  exact ⟨rfl, rfl⟩

/-- FRAME.PARSE on an "OK" response held whose checksum is right. -/
theorem parse_response_ok (hst : status = okToken) (hcrc : sum = checksum (status ++ [plus] ++ body)) :
    t.result = .ok ∧ t.bodyLen.toNat = body.length ∧ t.ibuf.span 3 body.length = body := by
  have hlen := status_length (.inl hst)
  have hflen : (response status body sum u.cfg.term).length = body.length + 13 := response_length hlen hsum
  have hp := parseFrame_of_ok (c := u.cfg) (response_match (body := body) hlen hsum (.inl hst) hd)
    ((response_checksum_iff hlen hsum _ _).2 hcrc) ((response_statusOf _ _ _ hlen).trans hst)
  rw [hflen, Nat.add_sub_cancel] at hp
  have hilen : u.ilen.toNat = body.length + 13 := by rw [← State.received_length, hu, hflen]
  have hspan : u.ibuf.span 3 body.length = body := by
    have hbody := u.bodyOf_received
    rw [hu, response_bodyOf hlen hsum, hilen, Nat.add_sub_cancel] at hbody
    exact hbody.symm
  obtain rfl := ht.unique (.parseOk u _ _ (hu ▸ hp))
  refine ⟨rfl, ?_, hspan⟩
  have := u.ilen.isLt
  rw [State.raise_bodyLen, State.recordParse_bodyLen, BitVec.toNat_ofNat]
  omega

/-- FRAME.PARSE on an "ER" response held whose checksum is right. -/
theorem parse_response_er (hst : status = erToken) (hcrc : sum = checksum (status ++ [plus] ++ body)) :
    (∀ c ∈ u.cfg.codes.codes, encodeHex (c.setWidth 32) 2 = some body →
      t.result = .deverr ∧ t.deverrValid = true ∧ t.deverrCode = c) ∧
    ((∀ c ∈ u.cfg.codes.codes, encodeHex (c.setWidth 32) 2 ≠ some body) → t.result = .malformed) := by
  have hlen := status_length (.inr hst)
  have hp := parseFrame_of_er (c := u.cfg) (response_match (body := body) hlen hsum (.inr hst) hd)
    ((response_checksum_iff hlen hsum _ _).2 hcrc) ((response_statusOf _ _ _ hlen).trans hst)
  rw [response_bodyOf hlen hsum] at hp
  refine ⟨fun c hk henc => ?_, fun hno => ?_⟩
  · rw [interpretError_of_encodeHex hk henc] at hp
    obtain rfl := ht.unique (.parseDeverr u _ _ (hu ▸ hp))
    exact ⟨rfl, rfl, rfl⟩
  · rw [interpretError_of_not_encodeHex hno] at hp
    obtain rfl := ht.unique (.parseMalformed u _ (hu ▸ hp))
    rfl

end

/-- Settles O44: the program's accesses are the CMD writes of its commands, whose effects leave the response in IBUF for
FRAME.PARSE. -/
theorem responseProgramParses : Obligations.ResponseProgramParses := by
  intro s isOk body sum rest covered hv hbody hroom hcov hsum hd hp
  obtain ⟨status, hstatus⟩ : ∃ status, status = if isOk then okToken else erToken := ⟨_, rfl⟩
  have hst : status = okToken ∨ status = erToken := by cases isOk <;> simp [hstatus]
  have hlen := status_length hst
  obtain rfl : covered = status ++ [plus] ++ body := by rw [hcov, hstatus]; rfl
  rw [programAccesses_response] at hp
  obtain ⟨u, hrx, hu⟩ := effects_receive_response (s := { s with pending := rest }) hv hst (fun h => hbody _ h rfl)
    hsum hd hroom
  obtain ⟨t, -, ht⟩ := exec_total .frameParse u
  have heffects := hrx.append (.single ht)
  obtain ⟨-, hpend, -⟩ := heffects.keeps_host
  have hcount : (responseCommands (response status body sum s.cfg.term)).length = body.length + 15 := by
    rw [responseCommands_length, response_length hlen hsum]
  refine ⟨t, hcount ▸ run_commandWrites_eq_next hp heffects, hpend, parse_response_wrong_checksum hu ht hsum hd hst,
    fun hcrc hok => parse_response_ok hu ht hsum hd (by rw [hstatus, hok]; rfl) hcrc, fun hcrc her => ?_⟩
  obtain ⟨hcfg, -, -⟩ := hrx.keeps_host
  have hparse := parse_response_er hu ht hsum hd (by rw [hstatus, her]; rfl) hcrc
  rwa [hcfg] at hparse

/-! ### How failures are told apart (R172, R223, R233) -/

/-- The commands that report each failure of an exchange. -/
theorem Effect.failure_sources {i : Instr} {s t : State} (h : Effect i s t) :
    (t.result = .timeout ↔ i = .rxAbort) ∧ (t.result = .malformed ∨ t.result = .integrity → i = .frameParse) := by
  cases h <;> simp

/-- With no terminator held the valid bytes do not end in one, and so match no frame. -/
theorem State.R42.not_match {s : State} (hs : s.R42) (hd : s.rxdone = false) :
    matchFrame s.cfg.term s.received = false := by
  refine Bool.eq_false_iff.2 fun hm => ?_
  obtain ⟨h13, hlast, -⟩ := (matchFrame_iff _ _).1 hm
  rw [State.received_length] at h13 hlast
  rw [State.received_getElem? _ (by omega), Option.some.injEq] at hlast
  exact Bool.eq_false_iff.1 hd (hs.rxdone_iff.2 ⟨by omega, hlast⟩)

/-- A run over commands, each with the STATUS read after it, uses them up. -/
theorem run_checked_all {is : List Instr} {s : State} {rest : List Access}
    (hp : s.pending = programAccesses s.cfg (is.flatMap checked) ++ rest) :
    ∃ u : State, u.cfg = s.cfg ∧ u.pending = rest ∧
      ∀ n, Host.Core.run core (2 * is.length + n) s = Host.Core.run core n u := by
  induction is generalizing s with
  | nil => exact ⟨s, rfl, hp, fun n => by rw [List.length_nil, Nat.mul_zero, Nat.zero_add]⟩
  | cons i is ih =>
    rw [List.flatMap_cons, programAccesses_append, List.append_assoc] at hp
    obtain ⟨t, -, ht⟩ := exec_total i { s with pending := programAccesses s.cfg (is.flatMap checked) ++ rest }
    obtain ⟨hcfg, hpend, -⟩ := ht.keeps_host
    have hcfg : t.cfg = s.cfg := hcfg
    obtain ⟨u, hucfg, hupend, hrun⟩ := ih (s := { t with returned := t.statusWord :: t.returned }) (hcfg ▸ hpend)
    refine ⟨u, hucfg.trans hcfg, hupend, fun n => ?_⟩
    rw [show 2 * (i :: is).length + n = 2 * is.length + n + 2 by rw [List.length_cons]; omega, run_checked _ hp ht,
      hrun]

/-- The response half of an exchange in which no TERM is taken before the deadline (R223). -/
theorem responseProgram_of_no_term {c : Config} {arrived : List Byte} (h : c.term ∉ arrived.take c.bufSize) :
    responseProgram c arrived =
      [.command .rxClear] ++ (arrived.map .rxPush).flatMap checked ++ checked .rxAbort ++ [.command .rxClear] := by
  have hno : completes c arrived = false := by simpa [completes] using h
  simp [responseProgram, responseEnd, pushedBytes, hno, List.flatMap_map]

/-- The run of RX.CLEAR, some commands with the STATUS reads after them, RX.ABORT with its own, and RX.CLEAR: the last
word read has RESULT TIMEOUT. -/
theorem run_timed_out {is : List Instr} {s : State} {p1 p2 p3 rest : List Access}
    (hp : s.pending = cmdWrite s.cfg (encode .rxClear) :: p1)
    (h1 : p1 = programAccesses s.cfg (is.flatMap checked) ++ p2)
    (h2 : p2 = programAccesses s.cfg (checked .rxAbort) ++ p3)
    (h3 : p3 = cmdWrite s.cfg (encode .rxClear) :: rest) :
    ∃ (t : State) (status : Word), Host.Core.run core (2 * is.length + 4) s = .next t ∧ t.pending = rest ∧
      t.returned.head? = some status ∧ status.extractLsb' 0 4 = 5#4 ∧ t.ilen = 0#9 ∧ t.bodyLen = 0#9 := by
  have hclear := run_command (2 * is.length + 3) hp (.rxClear _)
  obtain ⟨u, hcfg, hupend, hmiddle⟩ :=
    run_checked_all (s := State.raise (State.emptyRx { s with pending := p1 }) .ok) h1
  have hcfg : u.cfg = s.cfg := hcfg
  rw [← hcfg] at h2 h3
  obtain ⟨a, -, ha⟩ := exec_total .rxAbort { u with pending := p3 }
  obtain ⟨hacfg, hapend, -⟩ := ha.keeps_host
  obtain ⟨htimeout, -⟩ := ha.failure_sources
  obtain ⟨hfield, -⟩ := a.statusWord_fields
  have habort := run_checked 1 (hupend.trans h2) ha
  have hfinal := run_command 0 (s := { a with returned := a.statusWord :: a.returned })
    (hapend.trans (hacfg ▸ h3)) (.rxClear _)
  refine ⟨_, a.statusWord, hclear.trans ((hmiddle 3).trans (habort.trans hfinal)), rfl, rfl, ?_, rfl, rfl⟩
  rw [hfield, htimeout.2 rfl]
  rfl

/-- Settles O45: the commands' effects name their results, a match needs the held terminator, and the run of the
exchange ends in RX.ABORT, a STATUS read and RX.CLEAR. -/
theorem failuresAreToldApart : Obligations.FailuresAreToldApart := by
  refine ⟨fun i s t h => (exec_effect h).failure_sources, fun s t hs hd h => ?_, fun s arrived rest hno hp => ?_⟩
  · obtain rfl := (exec_effect h).unique (.parseMalformed s none (parseFrame_of_not_match (hs.not_match hd)))
    rfl
  · rw [responseProgram_of_no_term hno, programAccesses_append, programAccesses_append, programAccesses_append,
      List.append_assoc, List.append_assoc, List.append_assoc] at hp
    rw [← List.length_map (f := Instr.rxPush) (as := arrived)]
    exact run_timed_out hp rfl rfl rfl

end Sys2Proof.Machine
end

section
/-! SUPPORT. Reads and plain writes of the window, and the commands NOP and RESET (spec/44_control.md R190, R191, R193,
R194). -/

namespace Sys2Proof.Machine

/-! ### The words of the map as numbers (R24, R33) -/

theorem toNat_append_eq_add {m n : Nat} (x : BitVec m) (y : BitVec n) :
    (x ++ y).toNat = x.toNat * 2 ^ n + y.toNat := by
  rw [BitVec.toNat_append, ← Nat.shiftLeft_add_eq_or_of_lt y.isLt, Nat.shiftLeft_eq]

theorem flagBit_toNat_mul (b : Bool) (n : Nat) : (flagBit b).toNat * n = if b then n else 0 := by
  cases b <;> simp [flagBit]

/-- STATUS as a number: each field at the weight of its lowest bit (R24). -/
theorem State.statusWord_toNat (s : State) :
    s.statusWord.toNat = s.result.code.toNat + (if s.rxdone then 16 else 0) + (if s.rxovf then 32 else 0) +
      (if s.rxlate then 64 else 0) + (if s.txframe then 128 else 0) := by
  rw [State.statusWord, BitVec.toNat_setWidth_of_le (by decide)]
  simp only [toNat_append_eq_add, ← flagBit_toNat_mul]
  omega

/-- DEVERR as a number (R33). -/
theorem State.deverrWord_toNat (s : State) :
    s.deverrWord.toNat = (if s.deverrValid then 256 else 0) + s.deverrCode.toNat := by
  rw [State.deverrWord, BitVec.toNat_setWidth_of_le (by decide), toNat_append_eq_add]
  exact congrArg (· + _) (flagBit_toNat_mul _ _)

/-- A length register is read as its value (R30 to R32). -/
theorem len_setWidth_toNat (n : Len) : (n.setWidth 32).toNat = n.toNat :=
  BitVec.toNat_setWidth_of_le (by decide)

/-! ### Accesses (R193, R194) -/

/-- Settles O9: a step on a read returns the window's word, whose value the map's laws give at each offset. -/
theorem readReturnsTheMappedWord : Obligations.ReadReturnsTheMappedWord := by
  intro s off rest ho h4 hp
  refine ⟨step_read hp ho h4, ?cmd, ?status, ?crcAcc, ?crcOut, ?hexval, ?hexstrHi, ?hexstrLo, ?ilen, ?tlen, ?bodyLen,
    ?deverr, ?fcrc, ?config, ?ibuf, ?tbuf, fun h => s.windowRead_reserved (by omega)⟩
  case cmd => rintro rfl; exact s.windowRead_register .cmd
  case status => rintro rfl; rw [s.windowRead_status, s.statusWord_toNat]
  case crcAcc => rintro rfl; exact s.windowRead_register .crcAcc
  case crcOut => rintro rfl; exact s.windowRead_crcOut
  case hexval => rintro rfl; exact s.windowRead_register .hexval
  case hexstrHi => rintro rfl; exact s.windowRead_register .hexstrHi
  case hexstrLo => rintro rfl; exact s.windowRead_register .hexstrLo
  case ilen => rintro rfl; exact (congrArg _ (s.windowRead_register .ilen)).trans (len_setWidth_toNat _)
  case tlen => rintro rfl; exact (congrArg _ (s.windowRead_register .tlen)).trans (len_setWidth_toNat _)
  case bodyLen => rintro rfl; exact (congrArg _ (s.windowRead_register .bodyLen)).trans (len_setWidth_toNat _)
  case deverr => rintro rfl; exact (congrArg _ (s.windowRead_register .deverr)).trans s.deverrWord_toNat
  case fcrc => rintro rfl; exact s.windowRead_register .fcrc
  case config => rintro rfl hc; rw [s.windowRead_config, configWord_toNat hc]
  case ibuf => rintro k rfl hk; exact s.windowRead_ibuf hk
  case tbuf => rintro k rfl hk; exact s.windowRead_tbuf hk

/-- A write above the last register changes nothing: the buffer windows are read-only, the rest reserved (R22, R36). -/
theorem State.windowWrite_high (s : State) {off : Nat} (v : Word) (h : 0x030 < off) :
    s.windowWrite off v = .next s := by
  rw [State.windowWrite, targetOf_high h]
  split_ifs <;> rfl

/-- An aligned offset is a register's or lies above the last register (R21). -/
theorem register_or_high {off : Nat} (h4 : off % 4 = 0) : (∃ r, off = regOffset r) ∨ 0x030 < off := by
  refine (offset_cases h4).imp_right fun h => ?_
  rcases h with ⟨k, -, rfl⟩ | ⟨k, -, rfl⟩ | hr <;> omega

/-- A write to any aligned offset but CMD: one of the three read-write registers takes the word, or nothing changes
(R193). -/
theorem State.windowWrite_plain (s : State) {off : Nat} (v : Word) (h4 : off % 4 = 0) (h0 : off ≠ 0x000) :
    s.windowWrite off v = .next
      { s with
        hexval   := if off = 0x010 then v else s.hexval
        hexstrHi := if off = 0x014 then v else s.hexstrHi
        hexstrLo := if off = 0x018 then v else s.hexstrLo } := by
  rcases register_or_high h4 with ⟨r, rfl⟩ | hhigh
  · rw [State.windowWrite, targetOf_register]
    cases r with
    | cmd => exact absurd rfl h0
    | _ => rfl
  · rw [s.windowWrite_high v hhigh, if_neg (by omega), if_neg (by omega), if_neg (by omega)]

/-- Settles O10: a step on a write is the window's write. -/
theorem plainWriteStoresOrIsIgnored : Obligations.PlainWriteStoresOrIsIgnored :=
  fun s _ v rest ho h4 h0 hp => (step_write hp ho h4).trans (State.windowWrite_plain { s with pending := rest } v h4 h0)

/-! ### The commands (R190, R191) -/

/-- Settles O13: NOP has one effect, which writes RESULT alone. -/
theorem nopOnlyReportsOk : Obligations.NopOnlyReportsOk :=
  ⟨encode_of_operandD_zero rfl, fun s => exec_of_effect (.nop s)⟩

/-- After RESET every aligned offset but STATUS, CRC_ACC and CONFIG reads 0, as it does after power-on (R43, R191). -/
theorem reset_windowRead_zero {s t : State} (h : exec .reset s = .next t) {off : Nat} (h4 : off % 4 = 0)
    (hs : off ≠ 0x004) (ha : off ≠ 0x008) (hc : off ≠ 0x030) : t.windowRead off = 0#32 :=
  ((resetReadsAsPowerOn.2 s t [] [] h).1 off hs).trans (powerOn_windowRead_zero s.cfg [] [] h4 ha hc)

/-- Settles O14: RESET has one effect, after which what can be read is what can be read after power-on, but STATUS. -/
theorem resetCommandClearsRegisters : Obligations.ResetCommandClearsRegisters := by
  refine ⟨encode_of_operandD_zero rfl, fun s => ?_⟩
  have h := exec_of_effect (.reset s)
  refine ⟨_, h, rfl, ?_, (resetReadsAsPowerOn.2 s _ [] [] h).2, fun k _ => ⟨?_, ?_⟩⟩
  · exact reset_windowRead_zero h (by decide) (by decide) (by decide) (by decide)
  · exact reset_windowRead_zero h (by omega) (by omega) (by omega) (by omega)
  · exact reset_windowRead_zero h (by omega) (by omega) (by omega) (by omega)

end Sys2Proof.Machine
end

section
/-! SUPPORT. Failures as results (spec/60_exceptions.md R200, R201): every command has a next state, and what a next
state's failure result says of the command that raised it and of the state it left. -/

namespace Sys2Proof.Machine

/-- Settles O46: the next state is an effect's, and every effect writes RESULT and leaves the host's side. -/
theorem everyCommandEndsNormally : Obligations.EveryCommandEndsNormally := by
  intro i s
  obtain ⟨t, h, he⟩ := exec_total i s
  exact ⟨t, h, he.result_ne_none, he.keeps_host⟩

section
variable {i : Instr} {s t : State}

/-! ### FRAME.PARSE (R168) -/

/-- A FRAME.PARSE that does not report MALFORMED passed the match step (R160, R164). -/
theorem Effect.parse_matched (h : Effect .frameParse s t) (ht : t.result ≠ .malformed) :
    matchFrame s.cfg.term s.received = true := by
  by_contra hm
  have hp := parseFrame_of_not_match (Bool.eq_false_iff.2 hm)
  exact ht (congrArg State.result (h.unique (.parseMalformed s none hp)))

/-- A FRAME.PARSE that passed the match step leaves the recomputed CRC in FCRC, whatever its result (R34, R168). -/
theorem Effect.parse_fcrc (h : Effect .frameParse s t) (hm : matchFrame s.cfg.term s.received = true) :
    t.fcrc = crc32 (coveredSpan s.received) := by
  have recorded : ∀ {r : ParseResult} {o : Option Word}, parseFrame s.cfg s.received = (r, o) →
      some (crc32 (coveredSpan s.received)) = o := fun hp =>
    (Prod.mk.inj ((parseFrame_of_match hm).symm.trans hp)).2
  cases h with
  | parseOk _ _ _ hp | parseDeverr _ _ _ hp | parseMalformed _ _ hp | parseIntegrity _ _ hp =>
    cases recorded hp
    rfl

/-- A failed FRAME.PARSE empties IBUF (R168). -/
theorem Effect.parse_failed_ilen (h : Effect .frameParse s t) (ht : t.result = .malformed ∨ t.result = .integrity) :
    t.ilen = 0#9 :=
  congrArg RxSide.ilen (h.parse_failed ht)

/-! ### The failure results (R201) -/

/-- DEVERR comes from a FRAME.PARSE that found a known code, and records it with the length of its two digits. -/
theorem Effect.of_deverr (h : Effect i s t) (ht : t.result = .deverr) :
    i = .frameParse ∧ t.deverrValid = true ∧ knownCode s.cfg.codes t.deverrCode = true ∧ t.bodyLen = 2#9 := by
  cases h with
  | parseDeverr _ code o hp =>
    obtain ⟨-, -, hknown⟩ := parseFrame_deverr hp
    exact ⟨rfl, rfl, hknown, rfl⟩
  | _ => cases ht

/-- PRECOND comes from a command with a precondition, which then writes RESULT alone. -/
theorem Effect.of_precond (h : Effect i s t) (ht : t.result = .precond) :
    ((∃ d, i = .hexEnc d) ∨ (∃ n, i = .hexDec n) ∨ (∃ b, i = .txPush b) ∨ ∃ cid dir, i = .frameBuild cid dir) ∧
      t = s.raise .precond := by
  cases h with
  | hexEncFail d => exact ⟨.inl ⟨d, rfl⟩, rfl⟩
  | hexDecFail n => exact ⟨.inr (.inl ⟨n, rfl⟩), rfl⟩
  | txPushFail b => exact ⟨.inr (.inr (.inl ⟨b, rfl⟩)), rfl⟩
  | buildFail cid dir => exact ⟨.inr (.inr (.inr ⟨cid, dir, rfl⟩)), rfl⟩
  | _ => cases ht

/-- BADCMD is no command's result: it is what an illegal word gives (R192). -/
theorem Effect.result_ne_badcmd (h : Effect i s t) : t.result ≠ .badcmd := by
  cases h <;> simp

/-- DROPPED comes from an RX.PUSH that set RXLATE or RXOVF and stored nothing. -/
theorem Effect.of_dropped (h : Effect i s t) (ht : t.result = .dropped) :
    (∃ b, i = .rxPush b) ∧ (t.rxlate = true ∨ t.rxovf = true) ∧ t.ibuf = s.ibuf ∧ t.ilen = s.ilen := by
  cases h with
  | rxPushLate b => exact ⟨⟨b, rfl⟩, .inl rfl, rfl, rfl⟩
  | rxPushFull b => exact ⟨⟨b, rfl⟩, .inr rfl, rfl, rfl⟩
  | _ => cases ht

end

/-- Settles O47: the row of R201 of each failure result, read off the effects that end in it. -/
theorem failureResultsAndTheirRecords : Obligations.FailureResultsAndTheirRecords := by
  intro i s t hexec
  have h := exec_effect hexec
  obtain ⟨timeoutSource, parseSource⟩ := h.failure_sources
  refine ⟨?deverr, ?malformed, ?integrity, ?timeout, h.of_precond, h.result_ne_badcmd, h.of_dropped⟩
  case deverr =>
    intro ht
    obtain ⟨rfl, hvalid, hknown, hlen⟩ := h.of_deverr ht
    exact ⟨rfl, hvalid, hknown, hlen, h.parse_fcrc (h.parse_matched (by simp [ht]))⟩
  case malformed =>
    intro ht
    obtain rfl := parseSource (.inl ht)
    exact ⟨rfl, h.parse_failed_ilen (.inl ht), h.parse_fcrc⟩
  case integrity =>
    intro ht
    obtain rfl := parseSource (.inr ht)
    exact ⟨rfl, h.parse_failed_ilen (.inr ht), h.parse_fcrc (h.parse_matched (by simp [ht]))⟩
  case timeout =>
    intro ht
    obtain rfl := timeoutSource.1 ht
    obtain rfl := h.unique (.rxAbort s)
    exact ⟨rfl, rfl⟩

end Sys2Proof.Machine
end

section
/-! SUPPORT. Hazards of the host (spec/70_reset_and_hazards.md R226 to R233): a program that leaves no result unread,
what a command free of hazards can still fail on, and what other commands leave of a parsed frame. -/

namespace Sys2Proof.Machine

/-! ### Reading every result (R229) -/

/-- Whatever follows, the lines of `p` leave no result unread. -/
def LeavesNoneUnread (c : Config) (p : List Line) : Prop :=
  ∀ rest, readsResults c false (programAccesses c p ++ rest) = readsResults c false rest

section
variable {c : Config} {p q : List Line}

theorem LeavesNoneUnread.reads_all (h : LeavesNoneUnread c p) :
    readsResults c false (programAccesses c p) = true := by
  rw [← List.append_nil (programAccesses c p), h []]
  rfl

theorem leavesNoneUnread_nil (c : Config) : LeavesNoneUnread c [] := fun _ => rfl

theorem LeavesNoneUnread.append (hp : LeavesNoneUnread c p) (hq : LeavesNoneUnread c q) :
    LeavesNoneUnread c (p ++ q) := by
  intro rest
  rw [programAccesses_append, List.append_assoc, hp, hq]

theorem LeavesNoneUnread.flatMap {α : Type} {f : α → List Line} (h : ∀ x, LeavesNoneUnread c (f x)) (xs : List α) :
    LeavesNoneUnread c (xs.flatMap f) := by
  induction xs with
  | nil => exact leavesNoneUnread_nil c
  | cons x xs ih => rw [List.flatMap_cons]; exact (h x).append ih

theorem leavesNoneUnread_checked (c : Config) (i : Instr) : LeavesNoneUnread c (checked i) := readsResults_checked c i

/-- R229 asks for no STATUS read after such a command. -/
theorem leavesNoneUnread_command (c : Config) {i : Instr} (h : mustReadResult i = false) :
    LeavesNoneUnread c [.command i] := by
  intro rest
  show readsResults c false (cmdWrite c (encode i) :: rest) = _
  rw [readsResults_command, h]
  rfl

theorem leavesNoneUnread_reads (h : ∀ l ∈ p, ∃ off, lineAccesses c l = [wordAccess c off .read]) :
    LeavesNoneUnread c p := by
  induction p with
  | nil => exact leavesNoneUnread_nil c
  | cons l p ih =>
    obtain ⟨⟨off, hl⟩, hp⟩ := List.forall_mem_cons.1 h
    intro rest
    rw [programAccesses_cons, hl, List.append_assoc, List.singleton_append, readsResults_read, ih hp]

end

/-- The request half: FRAME.BUILD and every TX.PUSH are checked, and only reads follow (R223). -/
theorem leavesNoneUnread_request (c : Config) (cid : Byte) (dir : Direction) (params : List Byte) :
    LeavesNoneUnread c (requestProgram c cid dir params) := by
  refine (((leavesNoneUnread_command c rfl).append (.flatMap (fun _ => leavesNoneUnread_checked c _) _)).append
    (leavesNoneUnread_checked c _)).append ?_
  split
  · exact leavesNoneUnread_reads (List.forall_mem_cons.2 ⟨⟨_, rfl⟩, List.forall_mem_map.2 fun _ _ => ⟨_, rfl⟩⟩)
  · exact leavesNoneUnread_nil c

theorem leavesNoneUnread_resultReads (c : Config) (r : ParseResult) : LeavesNoneUnread c (resultReads r) := by
  cases r with
  | ok n =>
    exact leavesNoneUnread_reads (List.forall_mem_cons.2 ⟨⟨_, rfl⟩, List.forall_mem_map.2 fun _ _ => ⟨_, rfl⟩⟩)
  | deverr => exact leavesNoneUnread_reads (List.forall_mem_singleton.2 ⟨_, rfl⟩)
  | malformed | integrity => exact leavesNoneUnread_nil c

theorem leavesNoneUnread_responseEnd (c : Config) (arrived : List Byte) :
    LeavesNoneUnread c (responseEnd c arrived) := by
  unfold responseEnd
  split
  · exact (leavesNoneUnread_checked c _).append (leavesNoneUnread_resultReads c _)
  · exact leavesNoneUnread_checked c _

/-- The response half: every RX.PUSH and the command that ends the wait are checked (R223, R233). -/
theorem leavesNoneUnread_response (c : Config) (arrived : List Byte) :
    LeavesNoneUnread c (responseProgram c arrived) :=
  (((leavesNoneUnread_command c rfl).append (.flatMap (fun _ => leavesNoneUnread_checked c _) _)).append
    (leavesNoneUnread_responseEnd c arrived)).append (leavesNoneUnread_command c rfl)

theorem leavesNoneUnread_exchange (c : Config) (cid : Byte) (dir : Direction) (params arrived : List Byte) :
    LeavesNoneUnread c (exchangeProgram c cid dir params arrived) := by
  refine (leavesNoneUnread_request c cid dir params).append ?_
  split
  · exact leavesNoneUnread_response c arrived
  · exact leavesNoneUnread_nil c

/-- What follows the first access of a program that reads every result still reads every result then due. -/
theorem readsResults_tail {c : Config} {owed : Bool} {a : Access} {rest : List Access}
    (h : readsResults c owed (a :: rest) = true) : ∃ due, readsResults c due rest = true := by
  rw [readsResults] at h
  split at h
  · exact ⟨_, h⟩
  · split at h
    · exact ⟨_, h⟩
    · split at h
      · exact ⟨_, (Bool.and_eq_true_iff.1 h).2⟩
      · exact ⟨_, h⟩

/-- A last command that R229 names leaves its result unread. -/
theorem readsResults_append_command {c : Config} {i : Instr} (hi : mustReadResult i = true) (p : List Access)
    (owed : Bool) : readsResults c owed (p ++ [cmdWrite c (encode i)]) = false := by
  induction p generalizing owed with
  | nil =>
    rw [List.nil_append, readsResults_command, hi]
    exact Bool.and_false _
  | cons a p ih =>
    refine Bool.eq_false_iff.2 fun h => ?_
    obtain ⟨due, hdue⟩ := readsResults_tail h
    exact absurd ((ih due).symm.trans hdue) (by decide)

/-! ### Commands free of hazards (R226, R227, R230, R233) -/

@[simp] theorem State.hazards_rxPush_eq_nil {s : State} {b : Byte} : s.hazards (.rxPush b) = [] ↔ s.rxdone = false := by
  simp [State.hazards]

@[simp] theorem State.hazards_rxAbort_eq_nil {s : State} : s.hazards .rxAbort = [] ↔ s.rxdone = false := by
  simp [State.hazards]

@[simp] theorem State.hazards_frameParse_eq_nil {s : State} : s.hazards .frameParse = [] ↔ s.rxdone = true := by
  simp [State.hazards]

@[simp] theorem State.hazards_txPush_eq_nil {s : State} {b : Byte} :
    s.hazards (.txPush b) = [] ↔ s.txframe = false ∧ b ≠ s.cfg.term := by
  simp [State.hazards]

@[simp] theorem State.hazards_frameBuild_eq_nil {s : State} {cid : Byte} {dir : Direction} :
    s.hazards (.frameBuild cid dir) = [] ↔ s.txframe = false := by
  simp [State.hazards]

/-- Where RXDONE is 1, R42 puts a terminator among the valid bytes. -/
theorem State.R42.exists_term {s : State} (hs : s.R42) (hd : s.rxdone = true) :
    ∃ k, k < s.ilen.toNat ∧ s.ibuf.read k = s.cfg.term := by
  obtain ⟨h1, hlast⟩ := hs.rxdone_iff.1 hd
  exact ⟨s.ilen.toNat - 1, by omega, hlast⟩

section
variable {i : Instr} {s t : State}

/-- Free of hazards, no command sets RXLATE. -/
theorem Effect.rxlate_of_no_hazard (h : Effect i s t) (hz : s.hazards i = []) :
    t.rxlate = s.rxlate ∨ i = .rxClear ∨ i = .rxAbort ∨ i = .frameParse ∨ i = .reset := by
  cases h with
  | rxPushLate b _ hd => simp [hd] at hz
  | rxClear | rxAbort | reset | parseOk | parseDeverr | parseMalformed | parseIntegrity => simp
  | _ => exact .inl rfl

/-- Free of hazards, a byte is dropped only where IBUF is full. -/
theorem Effect.full_of_dropped (h : Effect i s t) (hz : s.hazards i = []) (ht : t.result = .dropped) :
    s.ilen.toNat = s.cfg.bufSize := by
  cases h with
  | rxPushLate b _ hd => simp [hd] at hz
  | rxPushFull b _ _ hl => exact hl
  | _ => cases ht

/-- Free of hazards, TX.PUSH fails only where TBUF is full. -/
theorem Effect.full_of_txPush_precond {b : Byte} (h : Effect (.txPush b) s t) (hz : s.hazards (.txPush b) = [])
    (ht : t.result = .precond) : s.tlen.toNat = s.cfg.bufSize := by
  obtain ⟨hf, -⟩ := State.hazards_txPush_eq_nil.1 hz
  cases h with
  | txPushFail _ _ hfail => exact hfail.resolve_left (by simp [hf])
  | txPushStore => cases ht

/-- Free of hazards, FRAME.BUILD fails only on its id or for want of room. -/
theorem Effect.cause_of_frameBuild_precond {cid : Byte} {dir : Direction} (h : Effect (.frameBuild cid dir) s t)
    (hz : s.hazards (.frameBuild cid dir) = []) (ht : t.result = .precond) :
    99 < cid.toNat ∨ s.cfg.bufSize < s.tlen.toNat + 16 := by
  have hf := State.hazards_frameBuild_eq_nil.1 hz
  cases h with
  | buildFail _ _ _ hfail => exact hfail.resolve_left (by simp [hf])
  | buildOk => cases ht

end

/-- Settles O59: each line of the exchange leaves no result unread, a last command that R229 names does, and the
effects that end in a failure are those of a hazard or of the command's own contract. -/
theorem hazardFreeCommandsFailOnlyByContract : Obligations.HazardFreeCommandsFailOnlyByContract := by
  refine ⟨fun c cid dir params arrived => (leavesNoneUnread_exchange c cid dir params arrived).reads_all,
    fun c p i hi => readsResults_append_command hi p false, fun i s t hz hexec => ?_⟩
  have h := exec_effect hexec
  refine ⟨h.rxlate_of_no_hazard hz, h.full_of_dropped hz, ?txPush, ?frameBuild, ?rxAbort, ?frameParse⟩
  case txPush => rintro b rfl; exact h.full_of_txPush_precond hz
  case frameBuild => rintro cid dir rfl; exact h.cause_of_frameBuild_precond hz
  case rxAbort => rintro rfl; exact State.hazards_rxAbort_eq_nil.1 hz
  case frameParse => rintro rfl hs; exact hs.exists_term (State.hazards_frameParse_eq_nil.1 hz)

/-! ### The parsed frame (R231) -/

/-- While a terminator is held, only the commands that empty IBUF touch the received bytes (R166). -/
theorem RxEffect.keeps_held {i : Instr} {s t : State} (h : RxEffect s t i) (hd : s.rxdone = true)
    (hi : ¬ EmptiesRx i t.result) : t.ilen = s.ilen ∧ t.ibuf = s.ibuf := by
  cases h with
  | emptied he => exact absurd he hi
  | stored b hd' => simp [hd] at hd'
  | kept h | late _ h | full _ h | body _ _ _ h | error _ _ _ h =>
    exact ⟨congrArg RxSide.ilen h, congrArg RxSide.ibuf h⟩

/-- Settles O60: the parse's record has no other writers, and a recorded body stands beside a held terminator, which
keeps RX.PUSH from the received bytes. -/
theorem bodyStaysReadable : Obligations.BodyStaysReadable := by
  intro i s t hs hexec hclear habort hparse hreset
  have h := (exec_effect hexec).rx
  obtain ⟨hbody, hvalid, hcode⟩ := h.parse_writers.resolve_right (by simp [hclear, habort, hparse, hreset])
  refine ⟨?bodyLen, ?deverr, fun j hj => ?body⟩
  case bodyLen =>
    refine (t.windowRead_register .bodyLen).trans (.trans ?_ (s.windowRead_register .bodyLen).symm)
    rw [State.readReg, State.readReg, hbody]
  case deverr =>
    refine (t.windowRead_register .deverr).trans (.trans ?_ (s.windowRead_register .deverr).symm)
    rw [State.readReg, State.readReg, State.deverrWord, State.deverrWord, hvalid, hcode]
  case body =>
    obtain ⟨hilen, hibuf⟩ := h.keeps_held (hs.body_done (by omega))
      (by simp [EmptiesRx, hclear, habort, hparse, hreset])
    have hlen := hs.r42.body_len (by omega)
    have hle := hs.r42.ilen_le
    obtain ⟨-, ⟨-, h256⟩, -⟩ := hs.valid
    rw [show 0x40C + 4 * j = 0x400 + 4 * (3 + j) by omega, t.windowRead_ibuf (by omega), s.windowRead_ibuf (by omega),
      hilen, hibuf]

end Sys2Proof.Machine
end
